-- ==== Sys2Proof/Word.lean ====
section
/-! DEFINITION. The two word types of the block (spec/00_scope.md R17, R19): bytes of BUF, HDR and option payloads,
and the 32-bit host registers. -/

namespace Sys2Proof

/-- A byte (R19): buffer bytes, header bytes, option tags and length fields. -/
abbrev Byte := BitVec 8

/-- A 32-bit host register or host bus value (R17). -/
abbrev Word := BitVec 32

/-- The 20-byte header register HDR (spec/10_state.md R41), byte 0 first on the wire. -/
abbrev Header := Vector Byte 20

end Sys2Proof
end

