-- ==== Sys2Proof/Syntax.lean ====
section
/-! DEFINITION. The 46 commands of the host command interface (spec/30_encoding.md R115), one constructor per row of
spec/opcode_table.json, in the table's order. A class T command carries its option tag and a class F command its flag
index (R112); every other operand is in the argument registers (R114). -/

namespace Sys2Proof

/-- A decoded command (R115). -/
inductive Instr where
  | init
  | parse
  | serialize
  | hdrSize
  | optSizes
  | getSport
  | getDport
  | getSeq
  | getAck
  | getDoff
  | getWindow
  | getChecksum
  | getUrgptr
  | setSport
  | setDport
  | setSeq
  | setAck
  | setDoff
  | setWindow
  | setChecksum
  | setUrgptr
  /-- Class F: `f` is CMD[10:8], the bit number of the flag in HDR[13] (R126). -/
  | getFlag (f : BitVec 3)
  /-- Class F: `f` is CMD[10:8] (R126). -/
  | setFlag (f : BitVec 3)
  | getFlags
  | setFlags
  /-- Class T: `tag` is CMD[15:8] (R112). -/
  | addOption (tag : Byte)
  /-- Class T: `tag` is CMD[15:8] (R112). -/
  | removeOption (tag : Byte)
  /-- Class T: `tag` is CMD[15:8] (R112). -/
  | getOption (tag : Byte)
  | optCount
  | getOptionAt
  | setMss
  | setWscale
  | setSackOk
  | setSack
  | setTimestamp
  | setAltchk
  | getMss
  | getWscale
  | hasSackOk
  | getSack
  | getTimestamp
  | getAltchk
  | attachInner
  | detachInner
  | innerRead
  | matchResponse
  deriving DecidableEq, Repr

end Sys2Proof
end

