-- ==== Sys2Proof/WellFormed.lean ====
section
/-! DEFINITION. Which command words are legal (spec/30_encoding.md R110 to R113, R116), as a check on the word that does
not go through the decoder. Every term of `Instr` is well formed by its type alone: a tag is any byte and a flag index
any 3-bit value (R112, R126), so the checks that can fail are those on the word. -/

namespace Sys2Proof

/-- The SUB class of an opcode (R112). -/
inductive OpClass where
  /-- SUB must be 0x00. -/
  | n
  /-- SUB is an option tag, any value. -/
  | t
  /-- SUB[2:0] is a flag index and SUB[7:3] must be 0. -/
  | f
  deriving DecidableEq, Repr

/-- The class column of the opcode map (R115), by the ranges of assigned opcodes; `none` for a reserved opcode (R116). -/
def opClass (opc : Nat) : Option OpClass :=
  if opc = 0x20 ∨ opc = 0x21 then some .f
  else if 0x30 ≤ opc ∧ opc ≤ 0x32 then some .t
  else if (0x01 ≤ opc ∧ opc ≤ 0x05) ∨ (0x10 ≤ opc ∧ opc ≤ 0x1F) ∨ opc = 0x22 ∨ opc = 0x23 ∨ opc = 0x33 ∨ opc = 0x34
      ∨ (0x40 ≤ opc ∧ opc ≤ 0x45) ∨ (0x48 ≤ opc ∧ opc ≤ 0x4D) ∨ (0x50 ≤ opc ∧ opc ≤ 0x52) ∨ opc = 0x60 then some .n
  else none

/-- A SUB value inside its class (R112). -/
def subInClass (c : OpClass) (sub : Nat) : Bool :=
  match c with
  | .n => sub == 0
  | .t => true
  | .f => sub < 8

/-- A legal command word (the negation of R116): an assigned opcode, RSV zero (R113) and SUB inside its class (R112). -/
def wordWellFormed (w : Word) : Bool :=
  match opClass (w.toNat % 256) with
  | none => false
  | some c => w.toNat / 65536 == 0 && subInClass c (w.toNat / 256 % 256)

end Sys2Proof
end

