-- ==== Sys2Proof/Decode.lean ====
section
/-! DEFINITION. The decoder of command words (spec/30_encoding.md R118), total on every 32-bit word and rejecting by
name, and the encoder written from the same opcode map (R115). -/

namespace Sys2Proof

/-- Why a word is an illegal command (R116). -/
inductive DecodeError where
  /-- OPC is not in the opcode map of R115. -/
  | unknownOpcode
  /-- RSV, bits 31:16, is not zero (R113). -/
  | reservedNonzero
  /-- SUB, bits 15:8, is outside the opcode's class (R112). -/
  | subOutsideClass
  deriving DecidableEq, Repr

/-- One row of the opcode map: the command, as a function of what its class reads from SUB. -/
inductive OpRow where
  | n (i : Instr)
  | t (mk : Byte → Instr)
  | f (mk : BitVec 3 → Instr)

/-- OPC, bits 7:0 (R110). -/
def opcField (w : Word) : Byte := w.extractLsb' 0 8

/-- SUB, bits 15:8 (R110). -/
def subField (w : Word) : Byte := w.extractLsb' 8 8

/-- RSV, bits 31:16 (R110). -/
def rsvField (w : Word) : BitVec 16 := w.extractLsb' 16 16

/-- The opcode map (R115). -/
def opcodeRow (opc : Byte) : Option OpRow :=
  match opc with
  | 0x01#8 => some (.n .init)
  | 0x02#8 => some (.n .parse)
  | 0x03#8 => some (.n .serialize)
  | 0x04#8 => some (.n .hdrSize)
  | 0x05#8 => some (.n .optSizes)
  | 0x10#8 => some (.n .getSport)
  | 0x11#8 => some (.n .getDport)
  | 0x12#8 => some (.n .getSeq)
  | 0x13#8 => some (.n .getAck)
  | 0x14#8 => some (.n .getDoff)
  | 0x15#8 => some (.n .getWindow)
  | 0x16#8 => some (.n .getChecksum)
  | 0x17#8 => some (.n .getUrgptr)
  | 0x18#8 => some (.n .setSport)
  | 0x19#8 => some (.n .setDport)
  | 0x1A#8 => some (.n .setSeq)
  | 0x1B#8 => some (.n .setAck)
  | 0x1C#8 => some (.n .setDoff)
  | 0x1D#8 => some (.n .setWindow)
  | 0x1E#8 => some (.n .setChecksum)
  | 0x1F#8 => some (.n .setUrgptr)
  | 0x20#8 => some (.f .getFlag)
  | 0x21#8 => some (.f .setFlag)
  | 0x22#8 => some (.n .getFlags)
  | 0x23#8 => some (.n .setFlags)
  | 0x30#8 => some (.t .addOption)
  | 0x31#8 => some (.t .removeOption)
  | 0x32#8 => some (.t .getOption)
  | 0x33#8 => some (.n .optCount)
  | 0x34#8 => some (.n .getOptionAt)
  | 0x40#8 => some (.n .setMss)
  | 0x41#8 => some (.n .setWscale)
  | 0x42#8 => some (.n .setSackOk)
  | 0x43#8 => some (.n .setSack)
  | 0x44#8 => some (.n .setTimestamp)
  | 0x45#8 => some (.n .setAltchk)
  | 0x48#8 => some (.n .getMss)
  | 0x49#8 => some (.n .getWscale)
  | 0x4A#8 => some (.n .hasSackOk)
  | 0x4B#8 => some (.n .getSack)
  | 0x4C#8 => some (.n .getTimestamp)
  | 0x4D#8 => some (.n .getAltchk)
  | 0x50#8 => some (.n .attachInner)
  | 0x51#8 => some (.n .detachInner)
  | 0x52#8 => some (.n .innerRead)
  | 0x60#8 => some (.n .matchResponse)
  | _ => none

/-- The SUB check of a row (R112), with the operand it yields. -/
def decodeSub (row : OpRow) (sub : Byte) : Except DecodeError Instr :=
  match row with
  | .n i => if sub = 0x00#8 then .ok i else .error .subOutsideClass
  | .t mk => .ok (mk sub)
  | .f mk => if sub.extractLsb' 3 5 = 0#5 then .ok (mk (sub.extractLsb' 0 3)) else .error .subOutsideClass

/-- The decoding procedure, in the order of R118: opcode, RSV, SUB. -/
def decode (w : Word) : Except DecodeError Instr :=
  match opcodeRow (opcField w) with
  | none => .error .unknownOpcode
  | some row => if rsvField w = 0#16 then decodeSub row (subField w) else .error .reservedNonzero

/-- The command word with the given OPC and SUB, RSV zero (R110, R113). -/
def commandWord (opc sub : Byte) : Word := 0#16 ++ sub ++ opc

/-- The SUB byte of a class F command: the flag index in bits 2:0, bits 7:3 zero (R112). -/
def flagSub (f : BitVec 3) : Byte := 0#5 ++ f

/-- The command word of an instruction (R115). -/
def encode : Instr → Word
  | .init => commandWord 0x01#8 0x00#8
  | .parse => commandWord 0x02#8 0x00#8
  | .serialize => commandWord 0x03#8 0x00#8
  | .hdrSize => commandWord 0x04#8 0x00#8
  | .optSizes => commandWord 0x05#8 0x00#8
  | .getSport => commandWord 0x10#8 0x00#8
  | .getDport => commandWord 0x11#8 0x00#8
  | .getSeq => commandWord 0x12#8 0x00#8
  | .getAck => commandWord 0x13#8 0x00#8
  | .getDoff => commandWord 0x14#8 0x00#8
  | .getWindow => commandWord 0x15#8 0x00#8
  | .getChecksum => commandWord 0x16#8 0x00#8
  | .getUrgptr => commandWord 0x17#8 0x00#8
  | .setSport => commandWord 0x18#8 0x00#8
  | .setDport => commandWord 0x19#8 0x00#8
  | .setSeq => commandWord 0x1A#8 0x00#8
  | .setAck => commandWord 0x1B#8 0x00#8
  | .setDoff => commandWord 0x1C#8 0x00#8
  | .setWindow => commandWord 0x1D#8 0x00#8
  | .setChecksum => commandWord 0x1E#8 0x00#8
  | .setUrgptr => commandWord 0x1F#8 0x00#8
  | .getFlag f => commandWord 0x20#8 (flagSub f)
  | .setFlag f => commandWord 0x21#8 (flagSub f)
  | .getFlags => commandWord 0x22#8 0x00#8
  | .setFlags => commandWord 0x23#8 0x00#8
  | .addOption tag => commandWord 0x30#8 tag
  | .removeOption tag => commandWord 0x31#8 tag
  | .getOption tag => commandWord 0x32#8 tag
  | .optCount => commandWord 0x33#8 0x00#8
  | .getOptionAt => commandWord 0x34#8 0x00#8
  | .setMss => commandWord 0x40#8 0x00#8
  | .setWscale => commandWord 0x41#8 0x00#8
  | .setSackOk => commandWord 0x42#8 0x00#8
  | .setSack => commandWord 0x43#8 0x00#8
  | .setTimestamp => commandWord 0x44#8 0x00#8
  | .setAltchk => commandWord 0x45#8 0x00#8
  | .getMss => commandWord 0x48#8 0x00#8
  | .getWscale => commandWord 0x49#8 0x00#8
  | .hasSackOk => commandWord 0x4A#8 0x00#8
  | .getSack => commandWord 0x4B#8 0x00#8
  | .getTimestamp => commandWord 0x4C#8 0x00#8
  | .getAltchk => commandWord 0x4D#8 0x00#8
  | .attachInner => commandWord 0x50#8 0x00#8
  | .detachInner => commandWord 0x51#8 0x00#8
  | .innerRead => commandWord 0x52#8 0x00#8
  | .matchResponse => commandWord 0x60#8 0x00#8

/-- The word of an opcode-table row: its low `nbits` bits as the table numbers them, every bit above zero. A command is
one 32-bit word held in a register, so there is no byte order to choose (R110). -/
def tableWord (nbits w : Nat) : Word := BitVec.ofNat 32 (w % 2 ^ nbits)

/-- What the decoder reads from an instruction whose bits are `w`, numbered as spec/opcode_table.json numbers them. -/
def decodeTableWord (nbits w : Nat) : Option Instr :=
  match decode (tableWord nbits w) with
  | .ok i => some i
  | .error _ => none

end Sys2Proof
end

