-- ==== Sys2Proof/Config.lean ====
section
/-! DEFINITION. What an implementation fixes and what the spec leaves open: the size parameters (spec/00_scope.md R16),
the named constants (R10 to R13), the two parameter functions (R14, R15) and the free values. A constant declared with
`opaque` has no body: nothing in Lean can evaluate it, so a proof holds whatever it is. -/

namespace Sys2Proof

/-- The parent layer kinds PH is asked about (R14). -/
inductive IpKind where
  | ipv4
  | ipv6
  deriving DecidableEq, Repr

/-- Who attached the inner layer (spec/10_state.md R52): `raw` PARSE, `host` ATTACH_INNER. -/
inductive Origin where
  | raw
  | host
  deriving DecidableEq, Repr

/-- The two size parameters the spec leaves open (R16). They are carried in the state as constants that nothing writes
(notes/assumptions/1.md), so that a statement over every state ranges over every value of them. -/
structure Params where
  /-- BUF_SIZE, the size in bytes of the buffer RAM. -/
  bufSize : Nat
  /-- OPT_CAPACITY, the number of records the option store can hold. -/
  optCapacity : Nat
  deriving DecidableEq, Repr

/-- The bounds of R16: `1 <= BUF_SIZE <= 2^32 - 4096` and `OPT_CAPACITY >= 40`. -/
def Params.wf (p : Params) : Bool :=
  1 ≤ p.bufSize && p.bufSize ≤ 2 ^ 32 - 4096 && 40 ≤ p.optCapacity

/-- The parameters every vector of spec/95_test_vectors.md section 0 uses. DESIGN CHOICE (notes/assumptions/1.md):
`State.reset` carries these; no statement rests on the choice. -/
def Params.vectors : Params := { bufSize := 4096, optCapacity := 40 }

/-- FIXED_HDR (R10). -/
def Config.fixedHdr : Nat := 20

/-- OPT_MAX_BYTES (R10). -/
def Config.optMaxBytes : Nat := 40

/-- DEFAULT_WINDOW = 32678 (R11); UNVERIFIED literal of the source (notes/assumptions/12.md). -/
def Config.defaultWindow : BitVec 16 := 32678#16

/-- TAG_EOL (R12). -/
def Config.tagEol : Byte := 0#8
/-- TAG_NOP (R12). -/
def Config.tagNop : Byte := 1#8
/-- TAG_MSS (R12); general knowledge of the spec's writer, as the five below (notes/assumptions/12.md). -/
def Config.tagMss : Byte := 2#8
/-- TAG_WSCALE (R12). -/
def Config.tagWscale : Byte := 3#8
/-- TAG_SACK_OK (R12). -/
def Config.tagSackOk : Byte := 4#8
/-- TAG_SACK (R12). -/
def Config.tagSack : Byte := 5#8
/-- TAG_TSOPT (R12). -/
def Config.tagTsopt : Byte := 8#8
/-- TAG_ALTCHK (R12). -/
def Config.tagAltchk : Byte := 14#8

/-- PROTO_TCP = 6 (R13); general knowledge of the spec's writer (notes/assumptions/12.md). -/
def Config.protoTcp : Byte := 6#8

/-- PH, the pseudo-header partial-sum function of the parent layer (R14): kind, source, destination, segment length,
protocol. The spec assumes nothing of it but that it is a total function (notes/assumptions/2.md). -/
opaque Config.ph : IpKind → BitVec 128 → BitVec 128 → Nat → Byte → Nat

/-- INNER_MATCH, the inner layer's own matcher (R15): origin, inner bytes, inbound tail. Any total function
(notes/assumptions/3.md). -/
opaque Config.innerMatch : Origin → List Byte → List Byte → Bool

/-- Free value: the unspecified byte a host read of an unwritten BUF byte returns, one per draw
(spec/20_memory.md R83; spec/93_implementation_defined.md U1; notes/assumptions/7.md). -/
opaque Config.freeByte : Nat → Byte

/-- Free value: what a 32-bit result register holds when the natural number written to it does not fit 32 bits; the spec
states no value there (notes/assumptions/11.md). -/
opaque Config.wideResult : Nat → Word

end Sys2Proof
end

