-- ==== Sys2Proof/Machine/State.lean ====
section
/-! DEFINITION. The block's state as plain data (spec/10_state.md R30), the host accesses it has still to answer, the
reset state (R53) and the reasons a step could stop. -/

namespace Sys2Proof.Machine

/-- One option record (R47). -/
structure OptRec where
  tag : Byte
  /-- 0 to 255 bytes (R47; `OptRec.wf`). -/
  payload : List Byte
  /-- The explicit length-field value, which may differ from the payload's length (R49). -/
  lenfield : Byte
  deriving DecidableEq, Repr

/-- The payload bound of R47. -/
def OptRec.wf (o : OptRec) : Bool := o.payload.length ≤ 255

/-- The inner layer (R52): who attached it, and its serialized bytes. -/
structure Inner where
  origin : Origin
  bytes : List Byte
  deriving DecidableEq, Repr

/-- The outcome STATUS.ERR records (R37; spec/60_exceptions.md R431). Values 3 to 15 are never written, so they have no
constructor (notes/assumptions/8.md). -/
inductive ErrCode where
  | noError
  | malformedInput
  | optionNotFound
  deriving DecidableEq, Repr

/-- The ten fault causes of the block (spec/60_exceptions.md R435), in the order of their codes 1 to 10. -/
inductive FaultCause where
  | illegalCommand
  | noSegment
  | bufRange
  | bufUninit
  | operandRange
  | optCapacity
  | outbufTooSmall
  | optionsOverflow
  | optionRegionOverrun
  | typedBadLength
  deriving DecidableEq, Repr

/-- The width of a host bus access (spec/20_memory.md R82, R83). -/
inductive Width where
  | w8
  | w16
  | w32
  deriving DecidableEq, Repr

/-- One thing the host or the platform does to the block (spec/70_reset_and_hazards.md R474). An 8- or 16-bit write
carries its value in the low bits. -/
inductive HostEvent where
  | write (width : Width) (addr : Word) (value : Word)
  | read (width : Width) (addr : Word)
  /-- The platform's reset event (R470). -/
  | reset
  deriving DecidableEq, Repr

/-- The written bytes of BUF, as (offset, byte) pairs; an offset not listed is an unwritten byte, which has no value
(spec/20_memory.md R83, R85). -/
abbrev Memory := List Host.Cell

/-- The canonical form: offsets strictly rising. An unlisted byte has no value, so no entry can equal what an unlisted
offset reads as. -/
def Memory.wf : Memory → Bool
  | [] => true
  | [_] => true
  | c :: d :: rest => c.1 < d.1 && Memory.wf (d :: rest)

/-- The state. The fields down to `mem` are the spec's (INVENTORY.md, State); the last four are the model's own. -/
structure State where
  /-- VALID, also STATUS bit 31 (R31, R37). -/
  valid : Bool
  /-- HDR (R41, R42). -/
  hdr : Header
  /-- OPTS, the first record first (R47, R48). -/
  opts : List OptRec
  /-- INNER (R52). -/
  inner : Option Inner
  /-- CMD (R36). -/
  cmd : Word
  arg0 : Word
  arg1 : Word
  arg2 : Word
  /-- STATUS.ERR (R37). -/
  err : ErrCode
  /-- STATUS.FAULT and STATUS.FAULT_CAUSE: the cause while FAULT = 1, `none` while FAULT = 0 (R37). -/
  fault : Option FaultCause
  result0 : Word
  result1 : Word
  /-- FAULT_INFO (R38). -/
  faultInfo : Word
  /-- PARENT_KIND (R39). -/
  parentKind : Word
  psrc0 : Word
  psrc1 : Word
  psrc2 : Word
  psrc3 : Word
  pdst0 : Word
  pdst1 : Word
  pdst2 : Word
  pdst3 : Word
  /-- BUF (spec/20_memory.md R80, R85). -/
  mem : Memory
  /-- The open size parameters (spec/00_scope.md R16); nothing writes them (notes/assumptions/1.md). -/
  params : Params
  /-- The host accesses still to come, the next one first: the host program (notes/assumptions/5.md). -/
  pending : List HostEvent
  /-- What the host's reads have returned, oldest first (notes/assumptions/6.md). -/
  replies : List Word
  /-- How many unspecified bytes have been drawn, the index of the next one (notes/assumptions/7.md). -/
  draws : Nat
  deriving DecidableEq, Repr

/-- The reset state of a block with the given parameters (R53). HDR: the spec gives no value; DESIGN CHOICE 20 zero bytes
(notes/assumptions/4.md). -/
def State.resetWith (p : Params) : State where
  valid := false
  hdr := Vector.replicate 20 0#8
  opts := []
  inner := none
  cmd := 0#32
  arg0 := 0#32
  arg1 := 0#32
  arg2 := 0#32
  err := .noError
  fault := none
  result0 := 0#32
  result1 := 0#32
  faultInfo := 0#32
  parentKind := 0#32
  psrc0 := 0#32
  psrc1 := 0#32
  psrc2 := 0#32
  psrc3 := 0#32
  pdst0 := 0#32
  pdst1 := 0#32
  pdst2 := 0#32
  pdst3 := 0#32
  mem := []
  params := p
  pending := []
  replies := []
  draws := 0

/-- The machine right after reset, with the parameters of spec/95_test_vectors.md (notes/assumptions/1.md). -/
def State.reset : State := State.resetWith Params.vectors

/-- Why a step would stop the machine. No constructor: every contract violation the spec names is the block's own sticky
faulted state, which is a next state (spec/60_exceptions.md R434), and every other access has a stated effect. -/
inductive Fault : Type
  deriving DecidableEq, Repr

/-- Why an instruction would have no meaning in the model. -/
inductive Refusal where
  /-- Raised only by an arm of `exec` whose instruction has no meaning yet (safe: nothing can be proved of it). No arm
  raises it: every command has its meaning. -/
  | notModelled (mnemonic : String)
  deriving DecidableEq, Repr

end Sys2Proof.Machine
end

