-- ==== Sys2Proof/Machine/Operands.lean ====
section
/-! DEFINITION. Operand assembly (spec/30_encoding.md R114), the big-endian byte order of wire values
(spec/00_scope.md R19), the numeric fields of HDR (spec/10_state.md R42) and the result words (R127). -/

namespace Sys2Proof.Machine

/-! ## Operands: the low bits of an argument register, or the whole register as a natural number (R114) -/

/-- A 16-bit operand, `ARGn[15:0]`. -/
def low16 (w : Word) : BitVec 16 := w.extractLsb' 0 16

/-- An 8-bit operand, `ARGn[7:0]`. -/
def low8 (w : Word) : Byte := w.extractLsb' 0 8

/-- A 4-bit operand, `ARGn[3:0]`. -/
def low4 (w : Word) : BitVec 4 := w.extractLsb' 0 4

/-- A flag bit operand, `ARGn[0]`. -/
def bit0 (w : Word) : Bool := w.getLsbD 0

/-- The combined flags operand, `ARGn[11:0]`. -/
def low12 (w : Word) : BitVec 12 := w.extractLsb' 0 12

/-- The spoof enable of ADD_OPTION, `ARG2[8]` (spec/41_option_list.md R225). -/
def spoofEnable (w : Word) : Bool := w.getLsbD 8

/-- A buffer offset, a length, a count or an index: the full register as a natural number. -/
abbrev natOf (w : Word) : Nat := w.toNat

/-! ## Byte order (R19) -/

/-- `BE16` of two bytes. -/
def be16 (x y : Byte) : BitVec 16 := x ++ y

/-- `BE32` of four bytes. -/
def be32 (x y z w : Byte) : Word := x ++ y ++ z ++ w

/-- Byte `i` of a byte string; only asked for `i < |s|`. -/
def byteAt (s : List Byte) (i : Nat) : Byte := s.getD i 0#8

/-- `BE16(s, i)`. -/
def listBE16 (s : List Byte) (i : Nat) : BitVec 16 := be16 (byteAt s i) (byteAt s (i + 1))

/-- `BE32(s, i)`. -/
def listBE32 (s : List Byte) (i : Nat) : Word :=
  be32 (byteAt s i) (byteAt s (i + 1)) (byteAt s (i + 2)) (byteAt s (i + 3))

/-- `toBE16(v)`. -/
def toBE16 (v : BitVec 16) : List Byte := [v.extractLsb' 8 8, v.extractLsb' 0 8]

/-- `toBE32(v)`. -/
def toBE32 (v : Word) : List Byte :=
  [v.extractLsb' 24 8, v.extractLsb' 16 8, v.extractLsb' 8 8, v.extractLsb' 0 8]

/-- `s[i..j)` of a byte string, by start and length. -/
def slice (s : List Byte) (i n : Nat) : List Byte := (s.drop i).take n

/-! ## The header register (spec/10_state.md R42) -/

/-- `BE16(HDR, i)`. -/
def hdrBE16 (h : Header) (i : Nat) (hi : i + 1 < 20 := by decide) : BitVec 16 := be16 h[i] h[i + 1]

/-- `BE32(HDR, i)`. -/
def hdrBE32 (h : Header) (i : Nat) (hi : i + 3 < 20 := by decide) : Word :=
  be32 h[i] h[i + 1] h[i + 2] h[i + 3]

/-- `HDR[i..i+2) <- toBE16(v)`. -/
def hdrPut16 (h : Header) (i : Nat) (v : BitVec 16) (hi : i + 1 < 20 := by decide) : Header :=
  (h.set i (v.extractLsb' 8 8)).set (i + 1) (v.extractLsb' 0 8)

/-- `HDR[i..i+4) <- toBE32(v)`. -/
def hdrPut32 (h : Header) (i : Nat) (v : Word) (hi : i + 3 < 20 := by decide) : Header :=
  (((h.set i (v.extractLsb' 24 8)).set (i + 1) (v.extractLsb' 16 8)).set (i + 2) (v.extractLsb' 8 8)).set
    (i + 3) (v.extractLsb' 0 8)

/-- The high nibble of a byte, bits 7:4: the data offset when the byte is byte 12 of a header (R42, R120). -/
def highNibble (b : Byte) : BitVec 4 := b.extractLsb' 4 4

/-- The low nibble of a byte, bits 3:0: the reserved field when the byte is byte 12 of a header (R42, R120). -/
def lowNibble (b : Byte) : BitVec 4 := b.extractLsb' 0 4

/-- A byte from its two nibbles. -/
def nibbles (hi lo : BitVec 4) : Byte := hi ++ lo

/-- `HDR[12][7:4] <- v`, the reserved nibble kept. -/
def hdrPutDoff (h : Header) (v : BitVec 4) : Header := h.set 12 (nibbles v (lowNibble h[12]))

/-- The header end a data-offset byte declares: `B[12][7:4] * 4` (spec/43_parser.md R303). -/
def headerEnd (b12 : Byte) : Nat := (highNibble b12).toNat * 4

/-- HDR from the first 20 bytes of a string of at least 20 bytes (spec/43_parser.md R302). -/
def headerOfBytes (b : List Byte) : Header := Vector.ofFn fun i => byteAt b i.val

/-! ## Result words -/

/-- `zext_32` of a field (spec/40_lifecycle_header.md R160). -/
def zext32 (v : BitVec n) : Word := v.setWidth 32

/-- A natural number written to a 32-bit result register. Where it does not fit, the spec states no value and the register
holds a free value. DESIGN CHOICE (notes/assumptions/11.md). -/
def resultOfNat (n : Nat) : Word := if n < 2 ^ 32 then BitVec.ofNat 32 n else Config.wideResult n

/-- A 0/1 result. -/
def resultOfBool (b : Bool) : Word := if b then 1#32 else 0#32

/-- The option word of a found record (spec/30_encoding.md R127): bit 0 FOUND, 15:8 the tag, 23:16 the length field. -/
def optionWord (o : OptRec) : Word := 0#8 ++ o.lenfield ++ o.tag ++ 1#8

/-! ## The parent registers (spec/10_state.md R39, R40) -/

/-- The recognised parent kind in PARENT_KIND[1:0]: 1 IPv4, 2 IPv6; `none` for NONE and OTHER. -/
def parentIp (w : Word) : Option IpKind :=
  match w.extractLsb' 0 2 with
  | 1#2 => some .ipv4
  | 2#2 => some .ipv6
  | _ => none

/-- `PSRC`, the 128-bit source address. -/
def psrc (s : State) : BitVec 128 := s.psrc0 ++ s.psrc1 ++ s.psrc2 ++ s.psrc3

/-- `PDST`, the 128-bit destination address. -/
def pdst (s : State) : BitVec 128 := s.pdst0 ++ s.pdst1 ++ s.pdst2 ++ s.pdst3

end Sys2Proof.Machine
end

