-- ==== Sys2Proof/Machine/Flags.lean ====
section
/-! DEFINITION. The TCP flags and the reserved field of HDR (spec/10_state.md R43, R44; spec/30_encoding.md R120, R126).
The block's own condition bits are STATUS.ERR, FAULT and VALID, written in Ops.lean. -/

namespace Sys2Proof.Machine

/-- Flag `f` of HDR: bit `f` of HDR[13] (R43, R126). -/
def hdrFlag (h : Header) (f : BitVec 3) : Bool := h[13].getLsbD f.toNat

/-- A byte with bit `f` set to `v` and the other seven bits kept. -/
def putBit (b : Byte) (f : BitVec 3) (v : Bool) : Byte :=
  let m := 1#8 <<< f.toNat
  if v then b ||| m else b &&& ~~~m

/-- `HDR[13][f] <- v`. -/
def hdrPutFlag (h : Header) (f : BitVec 3) (v : Bool) : Header := h.set 13 (putBit h[13] f v)

/-- The combined 12-bit flags value, reserved field above the eight flags (R44). -/
def hdrFlags12 (h : Header) : BitVec 12 := lowNibble h[12] ++ h[13]

/-- Both fields written from a 12-bit value, the data offset kept (spec/40_lifecycle_header.md R183). -/
def hdrPutFlags12 (h : Header) (v : BitVec 12) : Header :=
  (h.set 12 (nibbles (highNibble h[12]) (v.extractLsb' 8 4))).set 13 (v.extractLsb' 0 8)

end Sys2Proof.Machine
end

