-- ==== Sys2Proof/Machine/Ops.lean ====
section
/-! DEFINITION. The operations every command is written from: the ends of a command (spec/00_scope.md R22), fault entry
(spec/60_exceptions.md R434), the buffer primitives and their checks (R21; spec/20_memory.md R84, R85, R98), the segment
check (spec/40_lifecycle_header.md R160) and the codes STATUS shows (spec/10_state.md R37). There is no return from a
fault: only reset leaves the faulted state (spec/60_exceptions.md R438), and that is a host event (HostPort.lean). -/

namespace Sys2Proof.Machine

/-- What a command or a host access answers. -/
abbrev Result := Host.Outcome State Fault Refusal

/-! ## The ends of a command (R22) -/

/-- `raise Fault(cause)`: the block enters its faulted state. Exactly the writes of spec/60_exceptions.md R434; control
goes nowhere, there being no program counter, vector or mode. -/
def raiseFault (c : FaultCause) (s : State) : Result :=
  .next { s with fault := some c, faultInfo := s.cmd }

/-- `raise Error(code)`: STATUS.ERR and nothing else (spec/60_exceptions.md R430). -/
def raiseError (e : ErrCode) (s : State) : Result := .next { s with err := e }

/-- `ok`: STATUS.ERR <- 0 after the command's own writes. -/
def finishOk (s : State) : Result := .next { s with err := .noError }

/-- `ok` of a command that writes RESULT0 alone. -/
def finishWith (v : Word) (s : State) : Result := finishOk { s with result0 := v }

/-- `ok` of a command that writes both result registers. -/
def finishWith2 (v0 v1 : Word) (s : State) : Result := finishOk { s with result0 := v0, result1 := v1 }

/-- `require_segment()` before the rest of a command (R160). -/
def withSegment (s : State) (k : Result) : Result := if s.valid then k else raiseFault .noSegment s

/-! ## The buffer RAM -/

/-- The byte at offset `a`, or `none` where no byte was written (spec/20_memory.md R85). -/
def memByte (m : Memory) (a : Nat) : Option Byte :=
  match m with
  | [] => none
  | c :: rest => if c.1 = a then some c.2 else memByte rest a

/-- `BUF[a] <- v`, the byte marked written; the list stays in its canonical form. -/
def memPut (m : Memory) (a : Nat) (v : Byte) : Memory :=
  match m with
  | [] => [(a, v)]
  | c :: rest =>
    if a < c.1 then (a, v) :: c :: rest
    else if a = c.1 then (a, v) :: rest
    else c :: memPut rest a v

/-- The bytes `BUF[a..a+n)` if all of them are written. -/
def memRead (m : Memory) (a n : Nat) : Option (List Byte) :=
  match n with
  | 0 => some []
  | n + 1 =>
    match memByte m a, memRead m (a + 1) n with
    | some b, some rest => some (b :: rest)
    | _, _ => none

/-- `MemWrite(a, |bs|, bs)` (R21). -/
def memWrite (m : Memory) (a : Nat) (bs : List Byte) : Memory :=
  match bs with
  | [] => m
  | b :: rest => memWrite (memPut m a b) (a + 1) rest

/-- The range test of R84: `a + n <= BUF_SIZE` in natural numbers. -/
def rangeFits (s : State) (a n : Nat) : Bool := a + n ≤ s.params.bufSize

/-- `check_read(a, n)` and the `MemRead(a, n)` it guards (R98): the bytes, or the fault of the first check that fails. -/
def bufRead (s : State) (a n : Nat) : Except FaultCause (List Byte) :=
  if rangeFits s a n then
    match memRead s.mem a n with
    | some bs => .ok bs
    | none => .error .bufUninit
  else .error .bufRange

/-- A command that goes on with the bytes of a buffer range. -/
def withBytes (s : State) (a n : Nat) (k : List Byte → Result) : Result :=
  match bufRead s a n with
  | .ok bs => k bs
  | .error c => raiseFault c s

/-- `check_write(a, n)` before the rest of a command (R98). -/
def withRoom (s : State) (a n : Nat) (k : Result) : Result :=
  if rangeFits s a n then k else raiseFault .bufRange s

/-- `MemWrite` on the state. -/
def bufWrite (s : State) (a : Nat) (bs : List Byte) : State := { s with mem := memWrite s.mem a bs }

/-- `check_write`, `MemWrite` of a whole byte string, then the end of the command. -/
def copyOut (a : Nat) (bs : List Byte) (k : State → Result) (s : State) : Result :=
  withRoom s a bs.length (k (bufWrite s a bs))

/-! ## STATUS (spec/10_state.md R37) -/

/-- The code STATUS.ERR shows (spec/60_exceptions.md R431). -/
def errCode : ErrCode → BitVec 4
  | .noError => 0#4
  | .malformedInput => 1#4
  | .optionNotFound => 2#4

/-- The code STATUS.FAULT_CAUSE shows (spec/60_exceptions.md R435). -/
def causeCode : FaultCause → Byte
  | .illegalCommand => 1#8
  | .noSegment => 2#8
  | .bufRange => 3#8
  | .bufUninit => 4#8
  | .operandRange => 5#8
  | .optCapacity => 6#8
  | .outbufTooSmall => 7#8
  | .optionsOverflow => 8#8
  | .optionRegionOverrun => 9#8
  | .typedBadLength => 10#8

/-- STATUS as the host reads it: VALID at 31, FAULT_CAUSE at 23:16, FAULT at 8, ERR at 3:0, every other bit 0. -/
def statusWord (s : State) : Word :=
  BitVec.ofBool s.valid ++ 0#7 ++ ((s.fault.map causeCode).getD 0#8) ++ 0#7 ++ BitVec.ofBool s.fault.isSome ++ 0#4 ++
    errCode s.err

end Sys2Proof.Machine
end

