-- ==== Sys2Proof/Machine/HeaderFields.lean ====
section
/-! DEFINITION. The header field and flag accessors (spec/40_lifecycle_header.md R164 to R183). -/

namespace Sys2Proof.Machine

/-- The shared shape of the getters (R160): a field of HDR, zero-extended into RESULT0. -/
def readField (v : BitVec n) (s : State) : Result := withSegment s (finishWith (zext32 v) s)

/-- The shared shape of the setters (R160): HDR replaced by an updated header. -/
def writeHeader (h : Header) (s : State) : Result := withSegment s (finishOk { s with hdr := h })

/-- GET_SPORT (R164). -/
def execGetSport (s : State) : Result := readField (hdrBE16 s.hdr 0) s
/-- GET_DPORT (R165). -/
def execGetDport (s : State) : Result := readField (hdrBE16 s.hdr 2) s
/-- GET_SEQ (R166). -/
def execGetSeq (s : State) : Result := readField (hdrBE32 s.hdr 4) s
/-- GET_ACK (R167). -/
def execGetAck (s : State) : Result := readField (hdrBE32 s.hdr 8) s
/-- GET_DOFF (R168): the stored nibble. -/
def execGetDoff (s : State) : Result := readField (highNibble s.hdr[12]) s
/-- GET_WINDOW (R169). -/
def execGetWindow (s : State) : Result := readField (hdrBE16 s.hdr 14) s
/-- GET_CHECKSUM (R170). -/
def execGetChecksum (s : State) : Result := readField (hdrBE16 s.hdr 16) s
/-- GET_URGPTR (R171). -/
def execGetUrgptr (s : State) : Result := readField (hdrBE16 s.hdr 18) s

/-- SET_SPORT (R172). -/
def execSetSport (s : State) : Result := writeHeader (hdrPut16 s.hdr 0 (low16 s.arg0)) s
/-- SET_DPORT (R173). -/
def execSetDport (s : State) : Result := writeHeader (hdrPut16 s.hdr 2 (low16 s.arg0)) s
/-- SET_SEQ (R174). -/
def execSetSeq (s : State) : Result := writeHeader (hdrPut32 s.hdr 4 s.arg0) s
/-- SET_ACK (R175). -/
def execSetAck (s : State) : Result := writeHeader (hdrPut32 s.hdr 8 s.arg0) s
/-- SET_DOFF (R176): any nibble is stored, the reserved nibble kept. -/
def execSetDoff (s : State) : Result := writeHeader (hdrPutDoff s.hdr (low4 s.arg0)) s
/-- SET_WINDOW (R177). -/
def execSetWindow (s : State) : Result := writeHeader (hdrPut16 s.hdr 14 (low16 s.arg0)) s
/-- SET_CHECKSUM (R178). -/
def execSetChecksum (s : State) : Result := writeHeader (hdrPut16 s.hdr 16 (low16 s.arg0)) s
/-- SET_URGPTR (R179). -/
def execSetUrgptr (s : State) : Result := writeHeader (hdrPut16 s.hdr 18 (low16 s.arg0)) s

/-- GET_FLAG (R180). -/
def execGetFlag (f : BitVec 3) (s : State) : Result := readField (BitVec.ofBool (hdrFlag s.hdr f)) s
/-- SET_FLAG (R181): only ARG0[0] is read. -/
def execSetFlag (f : BitVec 3) (s : State) : Result := writeHeader (hdrPutFlag s.hdr f (bit0 s.arg0)) s
/-- GET_FLAGS (R182). -/
def execGetFlags (s : State) : Result := readField (hdrFlags12 s.hdr) s
/-- SET_FLAGS (R183). -/
def execSetFlags (s : State) : Result := writeHeader (hdrPutFlags12 s.hdr (low12 s.arg0)) s

end Sys2Proof.Machine
end

