-- ==== Sys2Proof/Machine/OptionList.lean ====
section
/-! DEFINITION. The option list and its size bookkeeping (spec/41_option_list.md R220 to R229). -/

namespace Sys2Proof.Machine

/-! ## Size bookkeeping -/

/-- The bytes the bookkeeping charges for a record (R220). -/
def optCost (o : OptRec) : Nat :=
  1 + (if 0 < o.payload.length ∨ o.tag = Config.tagSackOk then 1 + o.payload.length else 0)

/-- The raw options size R (R221). -/
def rawSize (opts : List OptRec) : Nat := (opts.map optCost).sum

/-- `roundup4` (spec/00_scope.md R18). -/
def roundUp4 (n : Nat) : Nat := (n + 3) / 4 * 4

/-- The aligned options size A (R222). -/
def alignedSize (opts : List OptRec) : Nat := roundUp4 (rawSize opts)

/-- `first(OPTS, t)` (R224). -/
def firstOpt (opts : List OptRec) (t : Byte) : Option OptRec := opts.find? fun o => o.tag == t

/-- The list without its first record of tag `t` (R226). -/
def removeFirst (opts : List OptRec) (t : Byte) : List OptRec := opts.eraseP fun o => o.tag == t

/-! ## Commands -/

/-- The capacity check of the option store (R225; spec/42_option_codec.md R260). -/
def withCapacity (s : State) (k : Result) : Result :=
  if s.opts.length = s.params.optCapacity then raiseFault .optCapacity s else k

/-- Append one record and end `ok`, if the store has room. -/
def appendOpt (o : OptRec) (s : State) : Result := withCapacity s (finishOk { s with opts := s.opts ++ [o] })

/-- The length field ADD_OPTION stores: spoofed when ARG2[8] = 1, else the payload length (R225). -/
def addLenfield (arg2 : Word) (n : Nat) : Byte := if spoofEnable arg2 then low8 arg2 else BitVec.ofNat 8 n

/-- ADD_OPTION (R225): the checks OPERAND_RANGE, BUF_RANGE, BUF_UNINIT, OPT_CAPACITY, in that order. -/
def execAddOption (tag : Byte) (s : State) : Result :=
  withSegment s
    (if 255 < natOf s.arg1 then raiseFault .operandRange s
     else withBytes s (natOf s.arg0) (natOf s.arg1) fun p =>
       appendOpt ⟨tag, p, addLenfield s.arg2 (natOf s.arg1)⟩ s)

/-- REMOVE_OPTION (R226): absence is reported in RESULT0, not as an error. -/
def execRemoveOption (tag : Byte) (s : State) : Result :=
  withSegment s
    (match firstOpt s.opts tag with
     | none => finishWith 0#32 s
     | some _ => finishWith 1#32 { s with opts := removeFirst s.opts tag })

/-- A found record: its payload copied to BUF, the option word and the payload length as results (R227, R229). -/
def returnOption (o : OptRec) (s : State) : Result :=
  copyOut (natOf s.arg0) o.payload (finishWith2 (optionWord o) (resultOfNat o.payload.length)) s

/-- GET_OPTION (R227). -/
def execGetOption (tag : Byte) (s : State) : Result :=
  withSegment s
    (match firstOpt s.opts tag with
     | none => finishWith2 0#32 0#32 s
     | some o => returnOption o s)

/-- OPT_COUNT (R228). -/
def execOptCount (s : State) : Result := withSegment s (finishWith (resultOfNat s.opts.length) s)

/-- GET_OPTION_AT (R229): an index past the end is not an error. -/
def execGetOptionAt (s : State) : Result :=
  withSegment s
    (match s.opts[natOf s.arg1]? with
     | none => finishWith2 0#32 0#32 s
     | some o => returnOption o s)

end Sys2Proof.Machine
end

