-- ==== Sys2Proof/Machine/Lifecycle.lean ====
section
/-! DEFINITION. INIT, HDR_SIZE and OPT_SIZES (spec/40_lifecycle_header.md R161 to R163). -/

namespace Sys2Proof.Machine

/-- The header INIT builds (R161): the two ports, data offset 5, DEFAULT_WINDOW, every other byte 0. -/
def defaultHeader (sport dport : BitVec 16) : Header :=
  let h0 : Header := Vector.replicate 20 0#8
  let h1 := hdrPut16 h0 0 sport
  let h2 := hdrPut16 h1 2 dport
  let h3 := h2.set 12 (nibbles 5#4 0#4)
  hdrPut16 h3 14 Config.defaultWindow

/-- INIT (R161): allowed whether or not a segment is held; a held segment is discarded whole. -/
def execInit (s : State) : Result :=
  finishOk
    { s with
      hdr := defaultHeader (low16 s.arg0) (low16 s.arg1)
      opts := []
      inner := none
      valid := true }

/-- HDR_SIZE (R162): `20 + A(OPTS)`, whatever data offset is stored. -/
def execHdrSize (s : State) : Result :=
  withSegment s (finishWith (resultOfNat (Config.fixedHdr + alignedSize s.opts)) s)

/-- OPT_SIZES (R163): R and A. -/
def execOptSizes (s : State) : Result :=
  withSegment s (finishWith2 (resultOfNat (rawSize s.opts)) (resultOfNat (alignedSize s.opts)) s)

end Sys2Proof.Machine
end

