-- ==== Sys2Proof/Machine/Matcher.lean ====
section
/-! DEFINITION. The response matcher and the inner layer (spec/45_matcher_inner.md R390 to R395). -/

namespace Sys2Proof.Machine

/-- The boundary of R392: the inbound data offset times 4, clamped to the inbound length; no lower bound. -/
def boundary (b : List Byte) : Nat := min (headerEnd (byteAt b 12)) b.length

/-- The port swap of R390. -/
def portsSwapped (h : Header) (b : List Byte) : Bool :=
  listBE16 b 0 == hdrBE16 h 2 && listBE16 b 2 == hdrBE16 h 0

/-- Whether the inner layer, where there is one, accepts the inbound bytes past the boundary (R390, R392). -/
def innerAccepts (i : Option Inner) (b : List Byte) : Bool :=
  match i with
  | none => true
  | some i => Config.innerMatch i.origin i.bytes (b.drop (boundary b))

/-- The whole match: at least 20 bytes (R391), swapped ports, and the inner layer's answer. -/
def matchesReply (s : State) (b : List Byte) : Bool :=
  20 ≤ b.length && portsSwapped s.hdr b && innerAccepts s.inner b

/-- MATCH_RESPONSE (R390). A mismatch is a result, not an error. -/
def execMatchResponse (s : State) : Result :=
  withSegment s
    (withBytes s (natOf s.arg0) (natOf s.arg1) fun b => finishWith (resultOfBool (matchesReply s b)) s)

/-- ATTACH_INNER (R393): the bytes are copied and replace any inner layer. -/
def execAttachInner (s : State) : Result :=
  withSegment s
    (withBytes s (natOf s.arg0) (natOf s.arg1) fun b => finishOk { s with inner := some ⟨.host, b⟩ })

/-- DETACH_INNER (R394). -/
def execDetachInner (s : State) : Result := withSegment s (finishOk { s with inner := none })

/-- RESULT0 of INNER_READ for a present inner layer: bit 0 present, bit 1 HOST origin (R395). -/
def originWord (o : Origin) : Word :=
  match o with
  | .raw => 1#32
  | .host => 3#32

/-- INNER_READ (R395). -/
def execInnerRead (s : State) : Result :=
  withSegment s
    (match s.inner with
     | none => finishWith2 0#32 0#32 s
     | some i => copyOut (natOf s.arg0) i.bytes (finishWith2 (originWord i.origin) (resultOfNat i.bytes.length)) s)

end Sys2Proof.Machine
end

