-- ==== Sys2Proof/Machine/OptionCodec.lean ====
section
/-! DEFINITION. The typed option codec (spec/42_option_codec.md R260 to R272; payload formats spec/30_encoding.md R124). -/

namespace Sys2Proof.Machine

/-- `add_typed(t, p)` with `require_segment()` before it (R260): a record with a true length field is appended. -/
def addTyped (t : Byte) (p : List Byte) (s : State) : Result :=
  withSegment s (appendOpt ⟨t, p, BitVec.ofNat 8 p.length⟩ s)

/-- The shared shape of the typed getters (R260): the first record of the tag, `absent` when there is none, the fault
TYPED_BAD_LENGTH when its payload length is not one the kind can decode. -/
def readTyped (t : Byte) (goodLength : Nat → Bool) (absent : Result) (k : List Byte → Result) (s : State) : Result :=
  withSegment s
    (match firstOpt s.opts t with
     | none => absent
     | some o => if goodLength o.payload.length then k o.payload else raiseFault .typedBadLength s)

/-- SET_MSS (R261). -/
def execSetMss (s : State) : Result := addTyped Config.tagMss (toBE16 (low16 s.arg0)) s
/-- SET_WSCALE (R262). -/
def execSetWscale (s : State) : Result := addTyped Config.tagWscale [low8 s.arg0] s
/-- SET_SACK_OK (R263). -/
def execSetSackOk (s : State) : Result := addTyped Config.tagSackOk [] s
/-- SET_SACK (R264): the checks OPERAND_RANGE, BUF_RANGE, BUF_UNINIT, OPT_CAPACITY, in that order. -/
def execSetSack (s : State) : Result :=
  withSegment s
    (if 255 < 4 * natOf s.arg1 then raiseFault .operandRange s
     else withBytes s (natOf s.arg0) (4 * natOf s.arg1) fun p =>
       appendOpt ⟨Config.tagSack, p, BitVec.ofNat 8 p.length⟩ s)
/-- SET_TIMESTAMP (R265). -/
def execSetTimestamp (s : State) : Result := addTyped Config.tagTsopt (toBE32 s.arg0 ++ toBE32 s.arg1) s
/-- SET_ALTCHK (R266). -/
def execSetAltchk (s : State) : Result := addTyped Config.tagAltchk [low8 s.arg0] s

/-- GET_MSS (R267). -/
def execGetMss (s : State) : Result :=
  readTyped Config.tagMss (· == 2) (finishWith 0#32 s) (fun p => finishWith (zext32 (listBE16 p 0)) s) s
/-- GET_WSCALE (R268). -/
def execGetWscale (s : State) : Result :=
  readTyped Config.tagWscale (· == 1) (finishWith 0#32 s) (fun p => finishWith (zext32 (byteAt p 0)) s) s
/-- HAS_SACK_OK (R269): presence only, the payload is not examined. -/
def execHasSackOk (s : State) : Result :=
  withSegment s (finishWith (resultOfBool (firstOpt s.opts Config.tagSackOk).isSome) s)
/-- GET_SACK (R270): OPTION_NOT_FOUND when absent; then the payload is copied out and the count returned. -/
def execGetSack (s : State) : Result :=
  readTyped Config.tagSack (· % 4 == 0) (raiseError .optionNotFound s)
    (fun p => copyOut (natOf s.arg0) p (finishWith (resultOfNat (p.length / 4))) s) s
/-- GET_TIMESTAMP (R271): OPTION_NOT_FOUND when absent. -/
def execGetTimestamp (s : State) : Result :=
  readTyped Config.tagTsopt (· == 8) (raiseError .optionNotFound s)
    (fun p => finishWith2 (listBE32 p 0) (listBE32 p 4) s) s
/-- GET_ALTCHK (R272): the raw selector byte (R273). -/
def execGetAltchk (s : State) : Result :=
  readTyped Config.tagAltchk (· == 1) (finishWith 0#32 s) (fun p => finishWith (zext32 (byteAt p 0)) s) s

end Sys2Proof.Machine
end

