-- ==== Sys2Proof/Machine/Parser.lean ====
section
/-! DEFINITION. PARSE (spec/43_parser.md R300 to R310). -/

namespace Sys2Proof.Machine

/-- The option loop of R304 to R308, from cursor `c` to the header end `hend`, over the buffer bytes `b`; `none` is
MALFORMED_INPUT. `fuel` bounds the rounds: every round moves the cursor by at least one byte, so `hend - c` rounds are
enough (DEDUCED, notes/assumptions/13.md). -/
def parseOpts (b : List Byte) (hend : Nat) (fuel c : Nat) : Option (List OptRec) :=
  match fuel with
  | 0 => if c < hend then none else some []
  | fuel + 1 =>
    if c < hend then
      match b[c]? with
      | none => none
      | some t =>
        if t = Config.tagEol ∨ t = Config.tagNop then
          (parseOpts b hend fuel (c + 1)).map (⟨t, [], 0#8⟩ :: ·)
        else
          match b[c + 1]? with
          | none => none
          | some l =>
            if l.toNat < 2 then none
            else if hend < c + 2 + (l.toNat - 2) then none
            else
              (parseOpts b hend fuel (c + 2 + (l.toNat - 2))).map
                (⟨t, slice b (c + 2) (l.toNat - 2), l - 2#8⟩ :: ·)
    else some []

/-- A parsed segment: HDR, OPTS and INNER. -/
structure Parsed where
  hdr : Header
  opts : List OptRec
  inner : Option Inner
  deriving DecidableEq, Repr

/-- The trailing payload (R309): the bytes past the header end, if there are any. -/
def trailing (b : List Byte) (hend : Nat) : Option Inner :=
  if hend < b.length then some ⟨.raw, b.drop hend⟩ else none

/-- The parse of a whole buffer: the fixed header (R302), the data-offset gate (R303), the option loop (R304) and the
trailing payload (R309); `none` is MALFORMED_INPUT. -/
def parseSegment (b : List Byte) : Option Parsed :=
  if b.length < Config.fixedHdr then none
  else
    let hend := headerEnd (byteAt b 12)
    if hend < Config.fixedHdr ∨ b.length < hend then none
    else
      match parseOpts b hend (hend - Config.fixedHdr) Config.fixedHdr with
      | none => none
      | some opts => some ⟨headerOfBytes b, opts, trailing b hend⟩

/-- PARSE (R300). It does not ask for a segment, and an error changes nothing but STATUS.ERR (R310). -/
def execParse (s : State) : Result :=
  withBytes s (natOf s.arg0) (natOf s.arg1) fun b =>
    match parseSegment b with
    | none => raiseError .malformedInput s
    | some p => finishOk { s with hdr := p.hdr, opts := p.opts, inner := p.inner, valid := true }

end Sys2Proof.Machine
end

