-- ==== Sys2Proof/Machine/Serializer.lean ====
section
/-! DEFINITION. SERIALIZE and the checksum accumulator (spec/44_serializer.md R340 to R350; spec/00_scope.md R23). -/

namespace Sys2Proof.Machine

/-! ## Option encoding -/

/-- The length byte of an encoded record (R342). -/
def lengthByte (o : OptRec) : Byte :=
  if o.lenfield.toNat = o.payload.length then o.lenfield + 2#8 else o.lenfield

/-- `enc(o)` (R341). -/
def encOpt (o : OptRec) : List Byte :=
  if o.tag = Config.tagEol ∨ o.tag = Config.tagNop then [o.tag] else o.tag :: lengthByte o :: o.payload

/-- The encoded options before padding, in list order (R341). -/
def encOpts (opts : List OptRec) : List Byte := opts.flatMap encOpt

/-- The option region: the encoded options and no-op padding up to the aligned size (R343). -/
def optRegion (opts : List OptRec) : List Byte :=
  encOpts opts ++ List.replicate (alignedSize opts - (encOpts opts).length) Config.tagNop

/-! ## The checksum -/

/-- `WordSum` (R23): the sum of the big-endian 16-bit words, an odd last byte being the high byte of a word. -/
def wordSum : List Byte → Nat
  | [] => 0
  | [x] => x.toNat * 256
  | x :: y :: rest => (x.toNat * 256 + y.toNat) + wordSum rest

/-- The repetition of `Fold` (R23), at most `fuel` times. -/
def foldRounds (fuel x : Nat) : Nat :=
  match fuel with
  | 0 => x
  | fuel + 1 => if x < 65536 then x else foldRounds fuel (x % 65536 + x / 65536)

/-- `Fold` (R23). A round makes a value of at least 65536 smaller, so `x` rounds are enough (DEDUCED,
notes/assumptions/14.md). -/
def fold (x : Nat) : Nat := foldRounds x x

/-- `~Fold(ph + WordSum(S))`, the 16-bit ones-complement (R346). -/
def checksumOf (ph : Nat) (seg : List Byte) : BitVec 16 := ~~~BitVec.ofNat 16 (fold (ph + wordSum seg))

/-- The pseudo-header sum of the parent, where there is a recognised one (R346, R347). -/
def parentSum (s : State) (seglen : Nat) : Option Nat :=
  (parentIp s.parentKind).map fun k => Config.ph k (psrc s) (pdst s) seglen Config.protoTcp

/-! ## The segment bytes -/

/-- The inner layer's bytes (R348). -/
def innerBytes (i : Option Inner) : List Byte :=
  match i with
  | none => []
  | some i => i.bytes

/-- `hs = 20 + A`. -/
def headerSize (opts : List OptRec) : Nat := Config.fixedHdr + alignedSize opts

/-- `total = hs + |I|` (R348). -/
def totalSize (s : State) : Nat := headerSize s.opts + (innerBytes s.inner).length

/-- The header with the data offset recomputed (R344) and the checksum field cleared (R345). -/
def clearedHeader (s : State) : Header :=
  hdrPut16 (hdrPutDoff s.hdr (BitVec.ofNat 4 (headerSize s.opts / 4))) 16 0#16

/-- The bytes after the fixed header: the option region and the inner layer (R348). -/
def bodyBytes (s : State) : List Byte := optRegion s.opts ++ innerBytes s.inner

/-- The checksum of the segment for the given pseudo-header sum; the cleared value without one (R346, R347). -/
def segmentChecksum (ph : Option Nat) (s : State) : BitVec 16 :=
  match ph with
  | some ph => checksumOf ph ((clearedHeader s).toList ++ bodyBytes s)
  | none => 0#16

/-- The header SERIALIZE writes and keeps (R349). -/
def serializedHeader (ph : Option Nat) (s : State) : Header :=
  hdrPut16 (clearedHeader s) 16 (segmentChecksum ph s)

/-- The bytes SERIALIZE writes (R348). -/
def serializedBytes (ph : Option Nat) (s : State) : List Byte := (serializedHeader ph s).toList ++ bodyBytes s

/-- The end of a SERIALIZE that passed its checks, for the given pseudo-header sum (R340, R349). -/
def serializeWith (ph : Option Nat) (s : State) : Result :=
  finishWith2 (resultOfNat (totalSize s)) (zext32 (segmentChecksum ph s))
    { bufWrite s (natOf s.arg0) (serializedBytes ph s) with hdr := serializedHeader ph s }

/-- SERIALIZE (R340): the checks BUF_RANGE, OPTIONS_OVERFLOW, OPTION_REGION_OVERRUN, OUTBUF_TOO_SMALL, in that order
(R350). -/
def execSerialize (s : State) : Result :=
  withSegment s
    (withRoom s (natOf s.arg0) (natOf s.arg1)
      (if Config.optMaxBytes < alignedSize s.opts then raiseFault .optionsOverflow s
       else if alignedSize s.opts < (encOpts s.opts).length then raiseFault .optionRegionOverrun s
       else if natOf s.arg1 < totalSize s then raiseFault .outbufTooSmall s
       else serializeWith (parentSum s (totalSize s)) s))

end Sys2Proof.Machine
end

