-- ==== Sys2Proof/Machine/Dispatch.lean ====
section
/-! DEFINITION. The meaning of each command, one arm per constructor of `Instr` (spec/30_encoding.md R115). -/

namespace Sys2Proof.Machine

def exec (i : Instr) (s : State) : Host.Outcome State Fault Refusal :=
  match i with
  | .init => Sys2Proof.Machine.execInit s
  | .parse => Sys2Proof.Machine.execParse s
  | .serialize => Sys2Proof.Machine.execSerialize s
  | .hdrSize => Sys2Proof.Machine.execHdrSize s
  | .optSizes => Sys2Proof.Machine.execOptSizes s
  | .getSport => Sys2Proof.Machine.execGetSport s
  | .getDport => Sys2Proof.Machine.execGetDport s
  | .getSeq => Sys2Proof.Machine.execGetSeq s
  | .getAck => Sys2Proof.Machine.execGetAck s
  | .getDoff => Sys2Proof.Machine.execGetDoff s
  | .getWindow => Sys2Proof.Machine.execGetWindow s
  | .getChecksum => Sys2Proof.Machine.execGetChecksum s
  | .getUrgptr => Sys2Proof.Machine.execGetUrgptr s
  | .setSport => Sys2Proof.Machine.execSetSport s
  | .setDport => Sys2Proof.Machine.execSetDport s
  | .setSeq => Sys2Proof.Machine.execSetSeq s
  | .setAck => Sys2Proof.Machine.execSetAck s
  | .setDoff => Sys2Proof.Machine.execSetDoff s
  | .setWindow => Sys2Proof.Machine.execSetWindow s
  | .setChecksum => Sys2Proof.Machine.execSetChecksum s
  | .setUrgptr => Sys2Proof.Machine.execSetUrgptr s
  | .getFlag f => Sys2Proof.Machine.execGetFlag f s
  | .setFlag f => Sys2Proof.Machine.execSetFlag f s
  | .getFlags => Sys2Proof.Machine.execGetFlags s
  | .setFlags => Sys2Proof.Machine.execSetFlags s
  | .addOption tag => Sys2Proof.Machine.execAddOption tag s
  | .removeOption tag => Sys2Proof.Machine.execRemoveOption tag s
  | .getOption tag => Sys2Proof.Machine.execGetOption tag s
  | .optCount => Sys2Proof.Machine.execOptCount s
  | .getOptionAt => Sys2Proof.Machine.execGetOptionAt s
  | .setMss => Sys2Proof.Machine.execSetMss s
  | .setWscale => Sys2Proof.Machine.execSetWscale s
  | .setSackOk => Sys2Proof.Machine.execSetSackOk s
  | .setSack => Sys2Proof.Machine.execSetSack s
  | .setTimestamp => Sys2Proof.Machine.execSetTimestamp s
  | .setAltchk => Sys2Proof.Machine.execSetAltchk s
  | .getMss => Sys2Proof.Machine.execGetMss s
  | .getWscale => Sys2Proof.Machine.execGetWscale s
  | .hasSackOk => Sys2Proof.Machine.execHasSackOk s
  | .getSack => Sys2Proof.Machine.execGetSack s
  | .getTimestamp => Sys2Proof.Machine.execGetTimestamp s
  | .getAltchk => Sys2Proof.Machine.execGetAltchk s
  | .attachInner => Sys2Proof.Machine.execAttachInner s
  | .detachInner => Sys2Proof.Machine.execDetachInner s
  | .innerRead => Sys2Proof.Machine.execInnerRead s
  | .matchResponse => Sys2Proof.Machine.execMatchResponse s

end Sys2Proof.Machine
end

