-- ==== Sys2Proof/Machine/HostPort.lean ====
section
/-! DEFINITION. The host port: register and buffer accesses (spec/20_memory.md R80 to R83), the CMD write that runs a
command (spec/10_state.md R36; spec/60_exceptions.md R436, R439) and the platform's reset (spec/70_reset_and_hazards.md
R470). -/

namespace Sys2Proof.Machine

/-- A word written to CMD: ignored while FAULT = 1 (R436), else stored and executed (R36); an illegal word faults (R116). -/
def writeCmd (w : Word) (s : State) : Result :=
  if s.fault.isSome then .next s
  else
    match decode w with
    | .ok i => exec i { s with cmd := w }
    | .error _ => raiseFault .illegalCommand { s with cmd := w }

/-- A 32-bit write to an aligned address of the register window (R81); read-only and reserved registers ignore it. -/
def writeRegister (addr : Nat) (v : Word) (s : State) : Result :=
  match addr with
  | 0x000 => writeCmd v s
  | 0x004 => .next { s with arg0 := v }
  | 0x008 => .next { s with arg1 := v }
  | 0x00C => .next { s with arg2 := v }
  | 0x020 => .next { s with parentKind := v }
  | 0x024 => .next { s with psrc0 := v }
  | 0x028 => .next { s with psrc1 := v }
  | 0x02C => .next { s with psrc2 := v }
  | 0x030 => .next { s with psrc3 := v }
  | 0x034 => .next { s with pdst0 := v }
  | 0x038 => .next { s with pdst1 := v }
  | 0x03C => .next { s with pdst2 := v }
  | 0x040 => .next { s with pdst3 := v }
  | _ => .next s

/-- A 32-bit read of an aligned address of the register window (R81); a reserved address reads 0. -/
def readRegister (addr : Nat) (s : State) : Word :=
  match addr with
  | 0x000 => s.cmd
  | 0x004 => s.arg0
  | 0x008 => s.arg1
  | 0x00C => s.arg2
  | 0x010 => statusWord s
  | 0x014 => s.result0
  | 0x018 => s.result1
  | 0x01C => s.faultInfo
  | 0x020 => s.parentKind
  | 0x024 => s.psrc0
  | 0x028 => s.psrc1
  | 0x02C => s.psrc2
  | 0x030 => s.psrc3
  | 0x034 => s.pdst0
  | 0x038 => s.pdst1
  | 0x03C => s.pdst2
  | 0x040 => s.pdst3
  | _ => 0#32

/-- The first host address of the buffer window (R80). -/
def bufBase : Nat := 0x1000

/-- Whether a host access is one the register window answers: 32 bits at a multiple of 4 below 0x1000 (R82). -/
def registerAccess (width : Width) (addr : Word) : Bool :=
  addr.toNat < bufBase && width == .w32 && addr.toNat % 4 == 0

/-- Whether a host access is one the buffer window answers: 8 bits inside the window (R83). -/
def bufferAccess (s : State) (width : Width) (addr : Word) : Bool :=
  bufBase ≤ addr.toNat && addr.toNat < bufBase + s.params.bufSize && width == .w8

/-- A host write: to a register (R81), to a buffer byte (R83), or ignored (R82, R83). -/
def hostWrite (width : Width) (addr v : Word) (s : State) : Result :=
  if registerAccess width addr then writeRegister addr.toNat v s
  else if bufferAccess s width addr then .next (bufWrite s (addr.toNat - bufBase) [low8 v])
  else .next s

/-- The value of a read, handed to the host. -/
def reply (v : Word) (s : State) : State := { s with replies := s.replies ++ [v] }

/-- A host read of a buffer byte: its value, or a fresh free value where no byte was written (R83). -/
def readBuffer (a : Nat) (s : State) : State :=
  match memByte s.mem a with
  | some b => reply (zext32 b) s
  | none => reply (zext32 (Config.freeByte s.draws)) { s with draws := s.draws + 1 }

/-- A host read: of a register, of a buffer byte, or 0 (R81 to R83). It changes nothing of the block (R89). -/
def hostRead (width : Width) (addr : Word) (s : State) : Result :=
  if registerAccess width addr then .next (reply (readRegister addr.toNat s) s)
  else if bufferAccess s width addr then .next (readBuffer (addr.toNat - bufBase) s)
  else .next (reply 0#32 s)

/-- The platform's reset event (R470): every state element of the block to its reset value. The parameters, the host's
own program and replies and the count of drawn bytes are no state of the block (notes/assumptions/9.md). -/
def resetBlock (s : State) : State :=
  { State.resetWith s.params with pending := s.pending, replies := s.replies, draws := s.draws }

/-- One host access or reset event. -/
def perform (e : HostEvent) (s : State) : Result :=
  match e with
  | .write width addr v => hostWrite width addr v s
  | .read width addr => hostRead width addr s
  | .reset => .next (resetBlock s)

/-- The next access of the host is taken and performed; with none to come the block waits, unchanged (R471). -/
def nextAccess (s : State) : Result :=
  match s.pending with
  | [] => .next s
  | e :: rest => perform e { s with pending := rest }

/-- The CMD write that hands the block the command word `w` (R36, R81). -/
def commandWrite (w : Word) : HostEvent := .write .w32 0x000#32 w

end Sys2Proof.Machine
end

