-- ==== Sys2Proof/Machine/Step.lean ====
section
/-! DEFINITION. One step of the machine: the host's next access (spec/00_scope.md R9; spec/20_memory.md R92). -/

namespace Sys2Proof.Machine

/-- One step: the first pending host access, performed whole. -/
def step (s : State) : Host.Outcome State Fault Refusal := nextAccess s

/-- The state in which the host's very next access is the CMD write of the table row's word. The block fetches nothing
(spec/10_state.md R33): the command comes from the host (notes/assumptions/5.md). -/
def State.withFetchWord (s : State) (nbits w : Nat) : State :=
  { s with pending := commandWrite (tableWord nbits w) :: s.pending }

end Sys2Proof.Machine
end

