-- ==== Sys2Proof/Machine/Assembler.lean ====
section
/-! DEFINITION. The host assembler (spec/30_encoding.md R128 to R130): each source line as the host accesses it stands
for. A host program is the list of the accesses of its lines, placed in `State.pending`. -/

namespace Sys2Proof.Machine

/-- A 32-bit register write, `W <address> <value>` (R130). -/
def wr (addr v : Word) : HostEvent := .write .w32 addr v

/-- How many argument registers a command reads, which are ARG0 up to that number (R115). -/
def argCount : Instr → Nat
  | .init | .parse | .serialize => 2
  | .hdrSize | .optSizes => 0
  | .getSport | .getDport | .getSeq | .getAck | .getDoff | .getWindow | .getChecksum | .getUrgptr => 0
  | .setSport | .setDport | .setSeq | .setAck | .setDoff | .setWindow | .setChecksum | .setUrgptr => 1
  | .getFlag _ | .getFlags => 0
  | .setFlag _ | .setFlags => 1
  | .addOption _ => 3
  | .removeOption _ | .optCount => 0
  | .getOption _ => 1
  | .getOptionAt => 2
  | .setMss | .setWscale | .setAltchk => 1
  | .setSackOk => 0
  | .setSack | .setTimestamp => 2
  | .getMss | .getWscale | .hasSackOk | .getTimestamp | .getAltchk => 0
  | .getSack => 1
  | .attachInner | .matchResponse => 2
  | .detachInner => 0
  | .innerRead => 1

/-- The addresses of ARG0, ARG1, ARG2 (spec/20_memory.md R81). -/
def argAddrs : List Word := [0x004#32, 0x008#32, 0x00C#32]

/-- A command line: the named ARG registers in order, then the command word (R128). -/
def commandLine (i : Instr) (args : List Word) : List HostEvent :=
  (argAddrs.zip (args.take (argCount i))).map (fun p => wr p.1 p.2) ++ [commandWrite (encode i)]

/-- `SETF flag` (R129). -/
def setfLine (f : BitVec 3) : List HostEvent := commandLine (.setFlag f) [1#32]

/-- `CLRF flag` (R129). -/
def clrfLine (f : BitVec 3) : List HostEvent := commandLine (.setFlag f) [0#32]

/-- `ADD_OPTION tag, off, len`, the length field true (R129). -/
def addOptionLine (tag : Byte) (off len : Word) : List HostEvent := commandLine (.addOption tag) [off, len, 0#32]

/-- `ADD_OPTION tag, off, len, lf`, the length field spoofed (R129). -/
def addSpoofedLine (tag : Byte) (off len : Word) (lf : Byte) : List HostEvent :=
  commandLine (.addOption tag) [off, len, 0x100#32 + lf.setWidth 32]

/-- The host address of a buffer offset (spec/20_memory.md R80). Where `0x1000 + off` passes the 32-bit address space, so that
no BUF byte has the offset, the spec does not say what a WRBUF or RDBUF line does there; the address wraps modulo 2^32.
DESIGN CHOICE (notes/assumptions/15.md). -/
def bufAddr (off : Nat) : Word := BitVec.ofNat 32 (bufBase + off)

/-- `WRBUF off, b0 b1 ... bk` (R129). -/
def wrbufLine (off : Nat) (bs : List Byte) : List HostEvent :=
  match bs with
  | [] => []
  | b :: rest => .write .w8 (bufAddr off) (b.setWidth 32) :: wrbufLine (off + 1) rest

/-- `RDBUF off, n` (R129). -/
def rdbufLine (off n : Nat) : List HostEvent := (List.range n).map fun k => .read .w8 (bufAddr (off + k))

/-- The eight parent address registers, PSRC0 to PSRC3 then PDST0 to PDST3. -/
def parentAddrWrites (s0 s1 s2 s3 d0 d1 d2 d3 : Word) : List HostEvent :=
  [wr 0x024#32 s0, wr 0x028#32 s1, wr 0x02C#32 s2, wr 0x030#32 s3, wr 0x034#32 d0, wr 0x038#32 d1, wr 0x03C#32 d2,
    wr 0x040#32 d3]

/-- `PARENT NONE` (R129). -/
def parentNoneLine : List HostEvent := [wr 0x020#32 0#32]

/-- `PARENT IPV4, s, d` (R129). -/
def parentIpv4Line (s d : Word) : List HostEvent := wr 0x020#32 1#32 :: parentAddrWrites s 0 0 0 d 0 0 0

/-- `PARENT IPV6, s0 s1 s2 s3, d0 d1 d2 d3` (R129). -/
def parentIpv6Line (s0 s1 s2 s3 d0 d1 d2 d3 : Word) : List HostEvent :=
  wr 0x020#32 2#32 :: parentAddrWrites s0 s1 s2 s3 d0 d1 d2 d3

/-- `PARENT OTHER` (R129). -/
def parentOtherLine : List HostEvent := [wr 0x020#32 3#32]

/-- `RD reg` (R129), by the register's address. -/
def rdLine (addr : Word) : List HostEvent := [.read .w32 addr]

end Sys2Proof.Machine
end

