-- ==== Sys2Proof/Safety.lean ====
section
/-! DEFINITION. The invariant of the block's state, and what a good state at the end of a run is
(spec/70_reset_and_hazards.md R482). -/

namespace Sys2Proof.Machine

/-- Every written byte lies inside BUF (spec/20_memory.md R80). -/
def Memory.inside (size : Nat) (m : Memory) : Bool := m.all fun c => c.1 < size

/-- The inner layer's length bound (spec/10_state.md R52). -/
def innerFits (size : Nat) (i : Option Inner) : Bool :=
  match i with
  | none => true
  | some i => i.bytes.length ≤ size

/-- The invariant: the parameters are in their bounds (spec/00_scope.md R16), memory is in canonical form and inside
BUF, the option store is within its capacity and every payload within 255 bytes (spec/10_state.md R47), and the inner
layer is no longer than BUF (R52). -/
def State.Inv (s : State) : Bool :=
  s.params.wf && s.mem.wf && s.mem.inside s.params.bufSize && s.opts.length ≤ s.params.optCapacity
    && s.opts.all OptRec.wf && innerFits s.params.bufSize s.inner

/-- A good state at the end of a run: no fault is recorded (spec/70_reset_and_hazards.md R482). -/
def State.good (s : State) : Bool := s.fault.isNone

end Sys2Proof.Machine
end

