-- ==== Sys2Proof/Certificates/Slice0/Obligations.lean ====
section
/-! DEFINITION. The statements for the provers, each from the numbered rules of spec/. The helper definitions first: they
say, without the model's own command functions, what a rule's words mean. -/

namespace Sys2Proof.Claims

open Sys2Proof.Machine

/-- The state after fault entry: exactly the writes of spec/60_exceptions.md R434. -/
def faulted (c : FaultCause) (s : State) : State := { s with fault := some c, faultInfo := s.cmd }

/-- The bytes `bs` stand in the memory at offset `a`, every one written. -/
def HoldsAt (m : Memory) (a : Nat) (bs : List Byte) : Prop :=
  ∀ (k : Nat) (h : k < bs.length), memByte m (a + k) = some bs[k]

/-- The memory `m'` is `m` with `bs` stored at offset `a`: those bytes read as `bs`, every other byte as before. -/
def StoredAt (m m' : Memory) (a : Nat) (bs : List Byte) : Prop :=
  HoldsAt m' a bs ∧ ∀ b, (b < a ∨ a + bs.length ≤ b) → memByte m' b = memByte m b

/-- The header `h'` is `h` with the byte values `vs` from byte `i` on. -/
def HeaderPut (h h' : Header) (i : Nat) (vs : List Nat) : Prop :=
  ∀ (j : Nat) (hj : j < 20), h'[j].toNat = if i ≤ j ∧ j < i + vs.length then vs.getD (j - i) 0 else h[j].toNat

/-- No record of the list has the tag. -/
def Absent (opts : List OptRec) (tag : Byte) : Prop := ∀ o ∈ opts, o.tag ≠ tag

/-- `o` is the first record of the list with the tag (spec/41_option_list.md R224). -/
def FirstIs (opts : List OptRec) (tag : Byte) (o : OptRec) : Prop :=
  ∃ pre post, opts = pre ++ o :: post ∧ Absent pre tag ∧ o.tag = tag

/-- A register read at `addr` answers `f` of the state and changes nothing of the block. -/
def ReadsAs (addr : Word) (f : State → Word) : Prop :=
  ∀ (s : State) (es : List HostEvent), s.pending = .read .w32 addr :: es →
    step s = .next { s with pending := es, replies := s.replies ++ [f s] }

/-- A register write at `addr` of the value `v` has the effect `g v`. -/
def WritesAs (addr : Word) (g : Word → State → State) : Prop :=
  ∀ (s : State) (es : List HostEvent) (v : Word), s.pending = .write .w32 addr v :: es →
    step s = .next (g v { s with pending := es })

/-- The code of an error (spec/60_exceptions.md R431). -/
def errNumber : ErrCode → Nat
  | .noError => 0
  | .malformedInput => 1
  | .optionNotFound => 2

/-- The code of a fault cause (spec/60_exceptions.md R435). -/
def causeNumber : FaultCause → Nat
  | .illegalCommand => 1
  | .noSegment => 2
  | .bufRange => 3
  | .bufUninit => 4
  | .operandRange => 5
  | .optCapacity => 6
  | .outbufTooSmall => 7
  | .optionsOverflow => 8
  | .optionRegionOverrun => 9
  | .typedBadLength => 10

/-- The column "raised by" of spec/60_exceptions.md R435, for the commands. -/
def raisedBy (c : FaultCause) (i : Instr) : Bool :=
  match c, i with
  | .illegalCommand, _ => false
  | .noSegment, .init => false
  | .noSegment, .parse => false
  | .noSegment, _ => true
  | .bufRange, .parse | .bufRange, .serialize | .bufRange, .addOption _ | .bufRange, .setSack
  | .bufRange, .attachInner | .bufRange, .matchResponse | .bufRange, .getOption _ | .bufRange, .getOptionAt
  | .bufRange, .getSack | .bufRange, .innerRead => true
  | .bufUninit, .parse | .bufUninit, .addOption _ | .bufUninit, .setSack | .bufUninit, .attachInner
  | .bufUninit, .matchResponse => true
  | .operandRange, .addOption _ | .operandRange, .setSack => true
  | .optCapacity, .addOption _ | .optCapacity, .setMss | .optCapacity, .setWscale | .optCapacity, .setSackOk
  | .optCapacity, .setSack | .optCapacity, .setTimestamp | .optCapacity, .setAltchk => true
  | .outbufTooSmall, .serialize | .optionsOverflow, .serialize | .optionRegionOverrun, .serialize => true
  | .typedBadLength, .getMss | .typedBadLength, .getWscale | .typedBadLength, .getSack
  | .typedBadLength, .getTimestamp | .typedBadLength, .getAltchk => true
  | _, _ => false

/-- How many bytes a command stores at ARG0 when it completes (spec/20_memory.md R86), with the model's own lookups. -/
def storedLength (i : Instr) (s : State) : Nat :=
  match i with
  | .serialize => totalSize s
  | .getOption tag => ((firstOpt s.opts tag).map fun o => o.payload.length).getD 0
  | .getOptionAt => ((s.opts[s.arg1.toNat]?).map fun o => o.payload.length).getD 0
  | .getSack => ((firstOpt s.opts 5#8).map fun o => o.payload.length).getD 0
  | .innerRead => (s.inner.map fun i => i.bytes.length).getD 0
  | _ => 0

/-- The commands whose rule writes RESULT1 (the results column of spec/30_encoding.md R115). -/
def writesResult1 : Instr → Bool
  | .serialize | .optSizes | .getOption _ | .getOptionAt | .getTimestamp | .innerRead => true
  | _ => false

/-- The commands whose rule writes RESULT0 (the results column of spec/30_encoding.md R115). -/
def writesResult0 : Instr → Bool
  | .serialize | .hdrSize | .optSizes | .getSport | .getDport | .getSeq | .getAck | .getDoff | .getWindow
  | .getChecksum | .getUrgptr | .getFlag _ | .getFlags | .removeOption _ | .getOption _ | .optCount | .getOptionAt
  | .getMss | .getWscale | .hasSackOk | .getSack | .getTimestamp | .getAltchk | .innerRead | .matchResponse => true
  | _ => false

/-- The values spec/10_state.md R53 gives the block (HDR is unspecified there and not mentioned here). -/
def ResetValues (t : State) : Prop :=
  t.valid = false ∧ t.opts = [] ∧ t.inner = none ∧ t.cmd = 0#32 ∧ t.arg0 = 0#32 ∧ t.arg1 = 0#32 ∧ t.arg2 = 0#32 ∧
    statusWord t = 0#32 ∧ t.err = .noError ∧ t.fault = none ∧ t.result0 = 0#32 ∧ t.result1 = 0#32 ∧
    t.faultInfo = 0#32 ∧ t.parentKind = 0#32 ∧ t.psrc0 = 0#32 ∧ t.psrc1 = 0#32 ∧ t.psrc2 = 0#32 ∧ t.psrc3 = 0#32 ∧
    t.pdst0 = 0#32 ∧ t.pdst1 = 0#32 ∧ t.pdst2 = 0#32 ∧ t.pdst3 = 0#32 ∧ ∀ a, memByte t.mem a = none

/-- The typed setter `i` appends a record of the tag with the payload bytes `p` and a true length field, charging `r`
more bytes, unless the store is full (spec/42_option_codec.md R260). -/
def AppendsTyped (i : Instr) (s : State) (tag : Byte) (p : List Nat) (r : Nat) : Prop :=
  let o : OptRec := ⟨tag, p.map (BitVec.ofNat 8), BitVec.ofNat 8 p.length⟩
  (s.opts.length = s.params.optCapacity → exec i s = .next (faulted .optCapacity s)) ∧
  (s.opts.length ≠ s.params.optCapacity → exec i s = .next { s with opts := s.opts ++ [o], err := .noError }) ∧
  rawSize (s.opts ++ [o]) = rawSize s.opts + r

/-- What the rule of a command that needs a segment says beside its effect: its word decodes to it, and without a segment it
faults with NO_SEGMENT. -/
def Command (i : Instr) (w : Word) : Prop :=
  decode w = .ok i ∧ ∀ s : State, s.valid = false → exec i s = .next (faulted .noSegment s)

/-- The word of a command of class T or F: the opcode and the SUB field at bit 8 (spec/30_encoding.md R110). -/
def wordOf (opc sub : Nat) : Word := BitVec.ofNat 32 (opc + sub * 0x100)

/-- A command that writes RESULT0 alone and ends `ok`, with a value of the given number. -/
def Returns (i : Instr) (s : State) (n : Nat) : Prop :=
  ∃ v : Word, exec i s = .next { s with result0 := v, err := .noError } ∧ v.toNat = n

/-- A command that replaces the header alone and ends `ok`, the new header being HDR with the byte values from byte `i`. -/
def PutsHeader (c : Instr) (s : State) (i : Nat) (vs : List Nat) : Prop :=
  ∃ h : Header, exec c s = .next { s with hdr := h, err := .noError } ∧ HeaderPut s.hdr h i vs

/-- A found record copied out to ARG0 with its option word and length (spec/41_option_list.md R227, R229). -/
def ReturnsRecord (i : Instr) (s : State) (o : OptRec) : Prop :=
  (s.params.bufSize < s.arg0.toNat + o.payload.length → exec i s = .next (faulted .bufRange s)) ∧
  (s.arg0.toNat + o.payload.length ≤ s.params.bufSize →
    ∃ (m : Memory) (r0 r1 : Word),
      exec i s = .next { s with mem := m, result0 := r0, result1 := r1, err := .noError } ∧
        StoredAt s.mem m s.arg0.toNat o.payload ∧
        r0.toNat = 1 + o.tag.toNat * 256 + o.lenfield.toNat * 65536 ∧
        (o.payload.length < 2 ^ 32 → r1.toNat = o.payload.length))

/-- GET_SACK at the state `t`, for every ARG0 that leaves room, stores the bytes `p` there and returns the count `n`
(spec/42_option_codec.md R270). -/
def CopiesSack (t : State) (p : List Byte) (n : Nat) : Prop :=
  ∀ d : Word, d.toNat + p.length ≤ t.params.bufSize →
    ∃ (m : Memory) (r : Word),
      exec .getSack { t with arg0 := d } = .next { t with arg0 := d, mem := m, result0 := r, err := .noError } ∧
        StoredAt t.mem m d.toNat p ∧ r.toNat = n

/-- A record of the shape PARSE makes (spec/43_parser.md R305, R308): a single-byte option without payload, or any other
tag with a true length that a length byte can carry. -/
def WireRecord (o : OptRec) : Prop :=
  ((o.tag = 0#8 ∨ o.tag = 1#8) ∧ o.payload = [] ∧ o.lenfield = 0#8) ∨
    (o.tag ≠ 0#8 ∧ o.tag ≠ 1#8 ∧ o.payload.length ≤ 253 ∧ o.lenfield.toNat = o.payload.length)

/-- The wire form of an option (spec/30_encoding.md R121, R122). -/
def wireOpt (o : OptRec) : List Byte :=
  if o.tag = 0#8 ∨ o.tag = 1#8 then [o.tag] else o.tag :: BitVec.ofNat 8 (o.payload.length + 2) :: o.payload

/-- The wire form of an option list. -/
def wireOpts (os : List OptRec) : List Byte := os.flatMap wireOpt

/-- The inner layer PARSE attaches for the bytes past the header end (spec/43_parser.md R309). -/
def rawInner (tail : List Byte) : Option Inner := if tail = [] then none else some ⟨.raw, tail⟩

/-- The header end a header byte 12 declares (spec/43_parser.md R303). -/
def declaredEnd (b12 : Byte) : Nat := b12.toNat / 16 * 4

/-- A record for which the round trip of spec/44_serializer.md R357 holds: a true length, a tag 0 or 1 only with an empty
payload, and a nonempty payload unless its tag is 0, 1 or TAG_SACK_OK. -/
def RoundTripRecord (o : OptRec) : Prop :=
  o.lenfield.toNat = o.payload.length ∧ ((o.tag = 0#8 ∨ o.tag = 1#8) → o.payload = []) ∧
    (o.payload = [] → o.tag = 0#8 ∨ o.tag = 1#8 ∨ o.tag = 4#8)

/-- The state with ARG0 on written from a list of values (spec/30_encoding.md R128). -/
def withArgs (s : State) (args : List Word) : State :=
  { s with arg0 := args.getD 0 s.arg0, arg1 := args.getD 1 s.arg1, arg2 := args.getD 2 s.arg2 }

end Sys2Proof.Claims

section
open Sys2Proof Sys2Proof.Machine Sys2Proof.Claims

/-! ## Encoding -/

/-- Every instruction, with every operand, is what the decoder reads from its own word (spec/30_encoding.md Part 1). -/
def Obligations.DecodeEncodeRoundTrip : Prop := ∀ i : Instr, decode (encode i) = .ok i

/-- Every word has at most one meaning: a word that decodes is the word of what it decodes to (spec/30_encoding.md Part 1). -/
def Obligations.EncodeDecodeRoundTrip : Prop := ∀ (w : Word) (i : Instr), decode w = .ok i → encode i = w

/-- The decoder accepts exactly the words that are not illegal (spec/30_encoding.md R116, R118), the legality being checked
on the word's fields and opcode ranges and not by the decoder. -/
def Obligations.DecodableWordsAreLegalWords : Prop :=
  ∀ w : Word, (∃ i, decode w = .ok i) ↔ wordWellFormed w = true

/-- The command words spec/30_encoding.md R130 and spec/95_test_vectors.md V-E7 and V-E1 to V-E5 name. -/
def Obligations.ListedCommandWordsDecode : Prop :=
  decode 0x00000001#32 = .ok .init ∧ decode 0x00000121#32 = .ok (.setFlag 1#3) ∧
    decode 0x00000230#32 = .ok (.addOption 2#8) ∧ decode 0x00000431#32 = .ok (.removeOption 4#8) ∧
    decode 0x00000720#32 = .ok (.getFlag 7#3) ∧ decode 0x00000060#32 = .ok .matchResponse ∧
    decode 0x00000000#32 = .error .unknownOpcode ∧ decode 0x00000006#32 = .error .unknownOpcode ∧
    decode 0x00000110#32 = .error .subOutsideClass ∧ decode 0x00010001#32 = .error .reservedNonzero ∧
    decode 0x00000820#32 = .error .subOutsideClass

/-! ## The host port and the step -/

/-- CMD (spec/10_state.md R36): a write runs the decoded command while FAULT = 0, is ignored while FAULT = 1, and a read
returns the last word stored. This is the statement that a step runs the decoded instruction. -/
def Obligations.CommandWriteRunsDecodedInstruction : Prop :=
  ∀ (s : State) (es : List HostEvent) (w : Word),
    (s.pending = .write .w32 0x000#32 w :: es → s.fault = none → ∀ i, decode w = .ok i →
      step s = exec i { s with pending := es, cmd := w }) ∧
    (s.pending = .write .w32 0x000#32 w :: es → s.fault ≠ none → step s = .next { s with pending := es }) ∧
    (s.pending = .read .w32 0x000#32 :: es →
      step s = .next { s with pending := es, replies := s.replies ++ [s.cmd] })

/-- An illegal word (spec/30_encoding.md R116) is stored in CMD and faults with ILLEGAL_COMMAND. -/
def Obligations.IllegalCommandWordFaults : Prop :=
  ∀ (s : State) (es : List HostEvent) (w : Word), s.pending = .write .w32 0x000#32 w :: es → s.fault = none →
    wordWellFormed w = false →
      step s = .next { s with pending := es, cmd := w, fault := some .illegalCommand, faultInfo := w }

/-- The register window (spec/20_memory.md R81): the CMD write that executes a command, what each register reads, which
registers a write changes, and which it leaves alone. -/
def Obligations.RegisterWindowReadsAndWrites : Prop :=
  (∀ (s : State) (es : List HostEvent) (i : Instr), s.fault = none →
    s.pending = .write .w32 0x000#32 (encode i) :: es → step s = exec i { s with pending := es, cmd := encode i }) ∧
  ReadsAs 0x000#32 (·.cmd) ∧ ReadsAs 0x004#32 (·.arg0) ∧ ReadsAs 0x008#32 (·.arg1) ∧ ReadsAs 0x00C#32 (·.arg2) ∧
    ReadsAs 0x010#32 statusWord ∧ ReadsAs 0x014#32 (·.result0) ∧ ReadsAs 0x018#32 (·.result1) ∧
    ReadsAs 0x01C#32 (·.faultInfo) ∧ ReadsAs 0x020#32 (·.parentKind) ∧
    ReadsAs 0x024#32 (·.psrc0) ∧ ReadsAs 0x028#32 (·.psrc1) ∧ ReadsAs 0x02C#32 (·.psrc2) ∧ ReadsAs 0x030#32 (·.psrc3) ∧
    ReadsAs 0x034#32 (·.pdst0) ∧ ReadsAs 0x038#32 (·.pdst1) ∧ ReadsAs 0x03C#32 (·.pdst2) ∧ ReadsAs 0x040#32 (·.pdst3) ∧
    WritesAs 0x004#32 (fun v s => { s with arg0 := v }) ∧ WritesAs 0x008#32 (fun v s => { s with arg1 := v }) ∧
    WritesAs 0x00C#32 (fun v s => { s with arg2 := v }) ∧ WritesAs 0x010#32 (fun _ s => s) ∧
    WritesAs 0x014#32 (fun _ s => s) ∧ WritesAs 0x018#32 (fun _ s => s) ∧ WritesAs 0x01C#32 (fun _ s => s) ∧
    WritesAs 0x020#32 (fun v s => { s with parentKind := v }) ∧
    WritesAs 0x024#32 (fun v s => { s with psrc0 := v }) ∧ WritesAs 0x028#32 (fun v s => { s with psrc1 := v }) ∧
    WritesAs 0x02C#32 (fun v s => { s with psrc2 := v }) ∧ WritesAs 0x030#32 (fun v s => { s with psrc3 := v }) ∧
    WritesAs 0x034#32 (fun v s => { s with pdst0 := v }) ∧ WritesAs 0x038#32 (fun v s => { s with pdst1 := v }) ∧
    WritesAs 0x03C#32 (fun v s => { s with pdst2 := v }) ∧ WritesAs 0x040#32 (fun v s => { s with pdst3 := v }) ∧
    ∀ addr : Word, 0x044 ≤ addr.toNat → addr.toNat < 0x1000 → addr.toNat % 4 = 0 →
      ReadsAs addr (fun _ => 0#32) ∧ WritesAs addr (fun _ s => s)

/-- STATUS (spec/10_state.md R37) is the sum of its fields: ERR at bit 0, FAULT at bit 8, FAULT_CAUSE at bit 16 and VALID at
bit 31, and no other bit. -/
def Obligations.StatusIsTheSumOfItsFields : Prop :=
  ∀ s : State, (statusWord s).toNat =
    errNumber s.err + (if s.fault = none then 0 else 256) + ((s.fault.map causeNumber).getD 0) * 65536 +
      (if s.valid then 2 ^ 31 else 0)

/-- A narrow or misaligned access to the register window (spec/20_memory.md R82) is ignored as a write and reads 0. -/
def Obligations.OddRegisterAccessIsIgnored : Prop :=
  ∀ (s : State) (es : List HostEvent) (width : Width) (addr v : Word), addr.toNat < 0x1000 →
    ¬(width = .w32 ∧ addr.toNat % 4 = 0) →
      (s.pending = .write width addr v :: es → step s = .next { s with pending := es }) ∧
      (s.pending = .read width addr :: es → step s = .next { s with pending := es, replies := s.replies ++ [0#32] })

/-- The buffer window (spec/20_memory.md R83): a byte write, a byte read, the unspecified byte of an unwritten offset (the
free value of notes/assumptions/7.md, which the read advances so that the next one is drawn afresh), and the accesses that
are ignored. -/
def Obligations.BufferWindowAccess : Prop :=
  ∀ (s : State) (es : List HostEvent) (addr : Word), 0x1000 ≤ addr.toNat →
    (∀ v : Word, addr.toNat < 0x1000 + s.params.bufSize → s.pending = .write .w8 addr v :: es →
      ∃ m, step s = .next { s with pending := es, mem := m } ∧
        StoredAt s.mem m (addr.toNat - 0x1000) [BitVec.ofNat 8 v.toNat]) ∧
    (∀ b : Byte, addr.toNat < 0x1000 + s.params.bufSize → s.pending = .read .w8 addr :: es →
      memByte s.mem (addr.toNat - 0x1000) = some b →
        step s = .next { s with pending := es, replies := s.replies ++ [BitVec.ofNat 32 b.toNat] }) ∧
    (addr.toNat < 0x1000 + s.params.bufSize → s.pending = .read .w8 addr :: es →
      memByte s.mem (addr.toNat - 0x1000) = none →
        step s = .next { s with
          pending := es
          replies := s.replies ++ [BitVec.ofNat 32 (Config.freeByte s.draws).toNat]
          draws := s.draws + 1 }) ∧
    (∀ (width : Width) (v : Word), (width ≠ .w8 ∨ 0x1000 + s.params.bufSize ≤ addr.toNat) →
      (s.pending = .write width addr v :: es → step s = .next { s with pending := es }) ∧
      (s.pending = .read width addr :: es → step s = .next { s with pending := es, replies := s.replies ++ [0#32] }))

/-- A host read, of any width at any address, changes nothing of the block ("Reads have no side effects anywhere",
spec/20_memory.md R89); only the model's own record of the host changes. -/
def Obligations.HostReadsChangeNothing : Prop :=
  ∀ (s t : State) (es : List HostEvent) (width : Width) (addr : Word), s.pending = .read width addr :: es →
    step s = .next t → { t with pending := s.pending, replies := s.replies, draws := s.draws } = s

/-- The reset state of a block with any parameters has the values of spec/10_state.md R53. -/
def Obligations.ResetGivesTheListedValues : Prop := ∀ p : Params, ResetValues (State.resetWith p)

/-- Reset (spec/70_reset_and_hazards.md R470) gives the block the values of R53, and it is the only event that clears
STATUS.FAULT or VALID or makes a BUF byte unwritten. -/
def Obligations.OnlyResetClearsFaultValidAndBuffer : Prop :=
  (∀ (s : State) (es : List HostEvent), s.pending = .reset :: es →
    ∃ t, step s = .next t ∧ ResetValues t ∧ t.pending = es) ∧
  ∀ (s t : State) (e : HostEvent) (es : List HostEvent), s.pending = e :: es → e ≠ .reset → step s = .next t →
    (∀ c, s.fault = some c → t.fault = some c) ∧ (s.valid = true → t.valid = true) ∧
      ∀ a, memByte s.mem a ≠ none → memByte t.mem a ≠ none

/-- While FAULT = 1 (spec/60_exceptions.md R436, R438) no access but reset changes the segment, CMD, STATUS, FAULT_INFO or
the results: no command runs. -/
def Obligations.FaultedBlockRunsNoCommand : Prop :=
  ∀ (s t : State) (e : HostEvent) (es : List HostEvent), s.fault ≠ none → s.pending = e :: es → e ≠ .reset →
    step s = .next t →
      t.valid = s.valid ∧ t.hdr = s.hdr ∧ t.opts = s.opts ∧ t.inner = s.inner ∧ t.cmd = s.cmd ∧ t.err = s.err ∧
        t.fault = s.fault ∧ t.faultInfo = s.faultInfo ∧ t.result0 = s.result0 ∧ t.result1 = s.result1

/-- No access stops the machine: every step answers a next state, whatever the host does ("The block never hangs",
spec/70_reset_and_hazards.md R479), and none changes the parameters (spec/00_scope.md R16), not even reset: that they and
the host's own record outlive reset is the model's (notes/assumptions/1.md and 9.md). -/
def Obligations.EveryStepAnswersANextState : Prop := ∀ s : State, ∃ t, step s = .next t ∧ t.params = s.params

/-- An assembler command line (spec/30_encoding.md R128), run on a block that is not faulted, writes the argument registers
it names and then runs the command. -/
def Obligations.CommandLineWritesArgsThenRuns : Prop :=
  ∀ (s : State) (i : Instr) (args : List Word) (es : List HostEvent), s.fault = none → args.length = argCount i →
    Host.Core.run Sys2Proof.core (args.length + 1) ({ s with pending := commandLine i args ++ es } : State) =
      exec i { withArgs s args with pending := es, cmd := encode i }

/-! ## What every command does and leaves alone -/

/-- VALID (spec/10_state.md R31): 0 after reset, set by INIT and a successful PARSE and by nothing else, cleared by no
command, and every other command faults with NO_SEGMENT while it is 0. -/
def Obligations.ValidBitRules : Prop :=
  (∀ p : Params, (State.resetWith p).valid = false) ∧
  (∀ s t : State, exec .init s = .next t → t.valid = true) ∧
  (∀ s t : State, exec .parse s = .next t → t.fault = none → t.err = .noError → t.valid = true) ∧
  (∀ (i : Instr) (s t : State), exec i s = .next t → s.valid = true → t.valid = true) ∧
  (∀ (i : Instr) (s t : State), exec i s = .next t → s.valid = false → t.valid = true → i = .init ∨ i = .parse) ∧
  (∀ (s t : State) (e : HostEvent) (es : List HostEvent), s.pending = e :: es → e ≠ .reset → step s = .next t →
    s.valid = true → t.valid = true) ∧
  ∀ (i : Instr) (s : State), i ≠ .init → i ≠ .parse → s.valid = false → exec i s = .next (faulted .noSegment s)

/-- Fault entry (spec/60_exceptions.md R434): a command that faults changes STATUS.FAULT, FAULT_CAUSE and FAULT_INFO and
nothing else, FAULT_INFO taking the command word; so does the write of any word, legal or not, to CMD. -/
def Obligations.FaultEntryIsPrecise : Prop :=
  (∀ (i : Instr) (s t : State), s.fault = none → exec i s = .next t → t.fault ≠ none →
    t = { s with fault := t.fault, faultInfo := s.cmd }) ∧
  ∀ (s t : State) (es : List HostEvent) (w : Word), s.fault = none → s.pending = .write .w32 0x000#32 w :: es →
    step s = .next t → t.fault ≠ none → t = { s with pending := es, cmd := w, fault := t.fault, faultInfo := w }

/-- An error (spec/60_exceptions.md R430) writes STATUS.ERR and nothing else. -/
def Obligations.ErrorsWriteOnlyTheErrorCode : Prop :=
  ∀ (i : Instr) (s t : State), s.fault = none → exec i s = .next t → t.fault = none → t.err ≠ .noError →
    t = { s with err := t.err }

/-- A command can raise a fault cause exactly when the "raised by" column of spec/60_exceptions.md R435 lists it (the
illegal word is no command and has its own statement). -/
def Obligations.FaultCausesComeFromListedCommands : Prop :=
  ∀ (c : FaultCause) (i : Instr),
    raisedBy c i = true ↔ ∃ s t : State, s.fault = none ∧ exec i s = .next t ∧ t.fault = some c

/-- MALFORMED_INPUT comes from PARSE alone, OPTION_NOT_FOUND from GET_SACK and GET_TIMESTAMP alone
(spec/60_exceptions.md R431). -/
def Obligations.ErrorsComeFromListedCommands : Prop :=
  ∀ i : Instr,
    ((∃ s t : State, s.fault = none ∧ exec i s = .next t ∧ t.fault = none ∧ t.err = .malformedInput) ↔ i = .parse) ∧
    ((∃ s t : State, s.fault = none ∧ exec i s = .next t ∧ t.fault = none ∧ t.err = .optionNotFound) ↔
      i = .getSack ∨ i = .getTimestamp)

/-- No command writes CMD, an argument register or a parent register (spec/10_state.md R34, R39, R40), or what is not the
block's: the parameters, the host's program and its replies. -/
def Obligations.CommandsKeepTheHostsRegisters : Prop :=
  ∀ (i : Instr) (s t : State), exec i s = .next t →
    t.cmd = s.cmd ∧ t.arg0 = s.arg0 ∧ t.arg1 = s.arg1 ∧ t.arg2 = s.arg2 ∧ t.parentKind = s.parentKind ∧
      t.psrc0 = s.psrc0 ∧ t.psrc1 = s.psrc1 ∧ t.psrc2 = s.psrc2 ∧ t.psrc3 = s.psrc3 ∧
      t.pdst0 = s.pdst0 ∧ t.pdst1 = s.pdst1 ∧ t.pdst2 = s.pdst2 ∧ t.pdst3 = s.pdst3 ∧
      t.params = s.params ∧ t.pending = s.pending ∧ t.replies = s.replies ∧ t.draws = s.draws

/-- RESULT0 and RESULT1 (spec/10_state.md R35): host writes are ignored, a command writes them only where its rule says so,
and an error or a fault leaves both as they were. -/
def Obligations.ResultRegistersChangeOnlyByTheirCommands : Prop :=
  WritesAs 0x014#32 (fun _ s => s) ∧ WritesAs 0x018#32 (fun _ s => s) ∧
  ∀ (i : Instr) (s t : State), exec i s = .next t →
    (writesResult0 i = false → t.result0 = s.result0) ∧ (writesResult1 i = false → t.result1 = s.result1) ∧
      (s.fault = none → t.fault ≠ none ∨ t.err ≠ .noError → t.result0 = s.result0 ∧ t.result1 = s.result1)

/-- The only BUF bytes a command can change are those from ARG0 on that its rule names (spec/20_memory.md R86); a command
not listed there changes none. -/
def Obligations.CommandsStoreOnlyInTheirRange : Prop :=
  ∀ (i : Instr) (s t : State) (a : Nat), exec i s = .next t →
    (a < s.arg0.toNat ∨ s.arg0.toNat + storedLength i s ≤ a) → memByte t.mem a = memByte s.mem a

/-- Every step keeps the invariant: parameters in bounds, memory canonical and inside BUF, the option store within its
capacity and its payloads within 255 bytes, the inner layer no longer than BUF (spec/00_scope.md R16; spec/10_state.md
R47, R52; spec/43_parser.md R311). -/
def Obligations.StepKeepsTheInvariant : Prop :=
  ∀ s t : State, s.Inv = true → step s = .next t → t.Inv = true

/-- The reset state meets the invariant, with every pair of parameters in the bounds of spec/00_scope.md R16 and with those
of `State.reset`. -/
def Obligations.ResetMeetsTheInvariant : Prop :=
  (∀ p : Params, p.wf = true → (State.resetWith p).Inv = true) ∧ State.reset.Inv = true

/-! ## Lifecycle and header -/

/-- INIT (spec/40_lifecycle_header.md R161): its word, the twenty header bytes and the rest of the segment, in every
state. -/
def Obligations.InitCreatesTheDefaultSegment : Prop :=
  decode 0x00000001#32 = .ok .init ∧
  ∀ s : State, ∃ h : Header,
    exec .init s = .next { s with hdr := h, opts := [], inner := none, valid := true, err := .noError } ∧
      h.toList.map (·.toNat) =
        [s.arg0.toNat / 256 % 256, s.arg0.toNat % 256, s.arg1.toNat / 256 % 256, s.arg1.toNat % 256,
          0, 0, 0, 0, 0, 0, 0, 0, 0x50, 0, 0x7F, 0xA6, 0, 0, 0, 0]

/-- HDR_SIZE and OPT_SIZES (spec/40_lifecycle_header.md R162, R163): `20 + A`, R and A, where they fit the result register. -/
def Obligations.SizeQueriesReturnTheSizes : Prop :=
  Command .hdrSize 0x04#32 ∧ Command .optSizes 0x05#32 ∧
  ∀ s : State, s.valid = true →
    (∃ v : Word, exec .hdrSize s = .next { s with result0 := v, err := .noError } ∧
      (20 + alignedSize s.opts < 2 ^ 32 → v.toNat = 20 + alignedSize s.opts)) ∧
    ∃ v w : Word, exec .optSizes s = .next { s with result0 := v, result1 := w, err := .noError } ∧
      (rawSize s.opts < 2 ^ 32 → v.toNat = rawSize s.opts) ∧
      (alignedSize s.opts < 2 ^ 32 → w.toNat = alignedSize s.opts)

/-- The eight field getters (spec/40_lifecycle_header.md R164 to R171): the big-endian value of the field. -/
def Obligations.FieldGettersReadTheHeader : Prop :=
  Command .getSport 0x10#32 ∧ Command .getDport 0x11#32 ∧ Command .getSeq 0x12#32 ∧ Command .getAck 0x13#32 ∧
    Command .getDoff 0x14#32 ∧ Command .getWindow 0x15#32 ∧ Command .getChecksum 0x16#32 ∧ Command .getUrgptr 0x17#32 ∧
  ∀ s : State, s.valid = true →
    Returns .getSport s (s.hdr[0].toNat * 256 + s.hdr[1].toNat) ∧
    Returns .getDport s (s.hdr[2].toNat * 256 + s.hdr[3].toNat) ∧
    Returns .getSeq s
      (s.hdr[4].toNat * 2 ^ 24 + s.hdr[5].toNat * 2 ^ 16 + s.hdr[6].toNat * 2 ^ 8 + s.hdr[7].toNat) ∧
    Returns .getAck s
      (s.hdr[8].toNat * 2 ^ 24 + s.hdr[9].toNat * 2 ^ 16 + s.hdr[10].toNat * 2 ^ 8 + s.hdr[11].toNat) ∧
    Returns .getDoff s (s.hdr[12].toNat / 16) ∧
    Returns .getWindow s (s.hdr[14].toNat * 256 + s.hdr[15].toNat) ∧
    Returns .getChecksum s (s.hdr[16].toNat * 256 + s.hdr[17].toNat) ∧
    Returns .getUrgptr s (s.hdr[18].toNat * 256 + s.hdr[19].toNat)

/-- The eight field setters (spec/40_lifecycle_header.md R172 to R179): the wire bytes of the low bits of ARG0, every other
header byte and everything else kept. -/
def Obligations.FieldSettersWriteTheHeader : Prop :=
  Command .setSport 0x18#32 ∧ Command .setDport 0x19#32 ∧ Command .setSeq 0x1A#32 ∧ Command .setAck 0x1B#32 ∧
    Command .setDoff 0x1C#32 ∧ Command .setWindow 0x1D#32 ∧ Command .setChecksum 0x1E#32 ∧ Command .setUrgptr 0x1F#32 ∧
  ∀ s : State, s.valid = true →
    let two := [s.arg0.toNat / 256 % 256, s.arg0.toNat % 256]
    let four := [s.arg0.toNat / 2 ^ 24, s.arg0.toNat / 2 ^ 16 % 256, s.arg0.toNat / 256 % 256, s.arg0.toNat % 256]
    PutsHeader .setSport s 0 two ∧ PutsHeader .setDport s 2 two ∧ PutsHeader .setSeq s 4 four ∧
      PutsHeader .setAck s 8 four ∧ PutsHeader .setDoff s 12 [s.arg0.toNat % 16 * 16 + s.hdr[12].toNat % 16] ∧
      PutsHeader .setWindow s 14 two ∧ PutsHeader .setChecksum s 16 two ∧ PutsHeader .setUrgptr s 18 two

/-- A getter run after its setter returns the low bits of ARG0 the field can hold (spec/40_lifecycle_header.md R160,
sections 3 and 4). -/
def Obligations.GetterReturnsWhatTheSetterStored : Prop :=
  ∀ s : State, s.valid = true →
    (∃ t, exec .setSport s = .next t ∧ Returns .getSport t (s.arg0.toNat % 2 ^ 16)) ∧
    (∃ t, exec .setDport s = .next t ∧ Returns .getDport t (s.arg0.toNat % 2 ^ 16)) ∧
    (∃ t, exec .setSeq s = .next t ∧ Returns .getSeq t s.arg0.toNat) ∧
    (∃ t, exec .setAck s = .next t ∧ Returns .getAck t s.arg0.toNat) ∧
    (∃ t, exec .setDoff s = .next t ∧ Returns .getDoff t (s.arg0.toNat % 16)) ∧
    (∃ t, exec .setWindow s = .next t ∧ Returns .getWindow t (s.arg0.toNat % 2 ^ 16)) ∧
    (∃ t, exec .setChecksum s = .next t ∧ Returns .getChecksum t (s.arg0.toNat % 2 ^ 16)) ∧
    (∃ t, exec .setUrgptr s = .next t ∧ Returns .getUrgptr t (s.arg0.toNat % 2 ^ 16)) ∧
    (∀ f, ∃ t, exec (.setFlag f) s = .next t ∧ Returns (.getFlag f) t (s.arg0.toNat % 2)) ∧
    ∃ t, exec .setFlags s = .next t ∧ Returns .getFlags t (s.arg0.toNat % 2 ^ 12)

/-- GET_FLAG and SET_FLAG (spec/40_lifecycle_header.md R180, R181): bit `f` of header byte 13 read, or written from
ARG0[0] with the other seven bits and every other byte kept. -/
def Obligations.NamedFlagsReadAndWrite : Prop :=
  (∀ f : BitVec 3, Command (.getFlag f) (wordOf 0x20 f.toNat) ∧ Command (.setFlag f) (wordOf 0x21 f.toNat)) ∧
  ∀ (s : State) (f : BitVec 3), s.valid = true →
    Returns (.getFlag f) s (s.hdr[13].toNat / 2 ^ f.toNat % 2) ∧
    ∃ h : Header, exec (.setFlag f) s = .next { s with hdr := h, err := .noError } ∧
      (∀ g : BitVec 3, h[13].toNat / 2 ^ g.toNat % 2 =
        if g = f then s.arg0.toNat % 2 else s.hdr[13].toNat / 2 ^ g.toNat % 2) ∧
      ∀ (j : Nat) (hj : j < 20), j ≠ 13 → h[j] = s.hdr[j]

/-- GET_FLAGS and SET_FLAGS (spec/40_lifecycle_header.md R182, R183): the 12-bit value, the data offset nibble kept. -/
def Obligations.CombinedFlagsReadAndWrite : Prop :=
  Command .getFlags 0x22#32 ∧ Command .setFlags 0x23#32 ∧
  ∀ s : State, s.valid = true →
    Returns .getFlags s (s.hdr[12].toNat % 16 * 256 + s.hdr[13].toNat) ∧
    PutsHeader .setFlags s 12 [s.hdr[12].toNat / 16 * 16 + s.arg0.toNat / 256 % 16, s.arg0.toNat % 256]

/-! ## The option list -/

/-- The size bookkeeping (spec/41_option_list.md R220 to R222): the cost of a record, the raw size as the sum of the costs,
and the aligned size as the least multiple of 4 that is not below it. -/
def Obligations.OptionSizeBookkeeping : Prop :=
  (∀ o : OptRec, optCost o = if o.payload ≠ [] ∨ o.tag = 4#8 then 2 + o.payload.length else 1) ∧
  (rawSize [] = 0 ∧ ∀ (o : OptRec) (os : List OptRec), rawSize (o :: os) = optCost o + rawSize os) ∧
  ∀ os : List OptRec, alignedSize os % 4 = 0 ∧ rawSize os ≤ alignedSize os ∧ alignedSize os < rawSize os + 4

/-- ADD_OPTION (spec/41_option_list.md R225): its four checks in order, then the record appended, with the spoofed length
field when ARG2[8] = 1 and the payload length otherwise. -/
def Obligations.AddOptionAppendsTheRecord : Prop :=
  (∀ tag : Byte, Command (.addOption tag) (wordOf 0x30 tag.toNat)) ∧
  ∀ (tag : Byte) (s : State), s.valid = true →
    let a := s.arg0.toNat
    let n := s.arg1.toNat
    (255 < n → exec (.addOption tag) s = .next (faulted .operandRange s)) ∧
    (n ≤ 255 → s.params.bufSize < a + n → exec (.addOption tag) s = .next (faulted .bufRange s)) ∧
    (n ≤ 255 → a + n ≤ s.params.bufSize → (∃ k, k < n ∧ memByte s.mem (a + k) = none) →
      exec (.addOption tag) s = .next (faulted .bufUninit s)) ∧
    ∀ p : List Byte, p.length = n → n ≤ 255 → a + n ≤ s.params.bufSize → HoldsAt s.mem a p →
      (s.opts.length = s.params.optCapacity → exec (.addOption tag) s = .next (faulted .optCapacity s)) ∧
      (s.opts.length ≠ s.params.optCapacity →
        exec (.addOption tag) s = .next { s with
          opts := s.opts ++ [⟨tag, p,
            BitVec.ofNat 8 (if s.arg2.toNat / 256 % 2 = 1 then s.arg2.toNat % 256 else n)⟩]
          err := .noError })

/-- REMOVE_OPTION (spec/41_option_list.md R226): the first record of the tag removed and RESULT0 = 1, or RESULT0 = 0 and the
list kept. -/
def Obligations.RemoveOptionRemovesTheFirstMatch : Prop :=
  (∀ tag : Byte, Command (.removeOption tag) (wordOf 0x31 tag.toNat)) ∧
  ∀ (tag : Byte) (s : State), s.valid = true →
    (Absent s.opts tag → exec (.removeOption tag) s = .next { s with result0 := 0#32, err := .noError }) ∧
    ∀ (pre post : List OptRec) (o : OptRec), s.opts = pre ++ o :: post → Absent pre tag → o.tag = tag →
      exec (.removeOption tag) s = .next { s with opts := pre ++ post, result0 := 1#32, err := .noError }

/-- GET_OPTION (spec/41_option_list.md R227): both results 0 when absent, else the first record copied out. -/
def Obligations.GetOptionReturnsTheFirstMatch : Prop :=
  (∀ tag : Byte, Command (.getOption tag) (wordOf 0x32 tag.toNat)) ∧
  ∀ (tag : Byte) (s : State), s.valid = true →
    (Absent s.opts tag →
      exec (.getOption tag) s = .next { s with result0 := 0#32, result1 := 0#32, err := .noError }) ∧
    ∀ o : OptRec, FirstIs s.opts tag o → ReturnsRecord (.getOption tag) s o

/-- OPT_COUNT and GET_OPTION_AT (spec/41_option_list.md R228, R229): the number of records (where it fits the register), and
the record at an index, both results 0 past the end. -/
def Obligations.OptionListIsObservable : Prop :=
  Command .optCount 0x33#32 ∧ Command .getOptionAt 0x34#32 ∧
  ∀ s : State, s.valid = true →
    (∃ v : Word, exec .optCount s = .next { s with result0 := v, err := .noError } ∧
      (s.opts.length < 2 ^ 32 → v.toNat = s.opts.length)) ∧
    (s.opts.length ≤ s.arg1.toNat →
      exec .getOptionAt s = .next { s with result0 := 0#32, result1 := 0#32, err := .noError }) ∧
    ∀ h : s.arg1.toNat < s.opts.length, ReturnsRecord .getOptionAt s s.opts[s.arg1.toNat]

/-- The raw size grows by the cost of an added record and shrinks by the cost of a removed one
(spec/41_option_list.md section 1, the sentence on the incremental counters). -/
def Obligations.SizesChangeByTheRecordsCost : Prop :=
  ∀ (tag : Byte) (s t : State), s.valid = true → s.fault = none →
    (exec (.addOption tag) s = .next t → t.fault = none →
      ∃ o, t.opts = s.opts ++ [o] ∧ o.tag = tag ∧ rawSize t.opts = rawSize s.opts + optCost o) ∧
    (exec (.removeOption tag) s = .next t → t.result0 = 1#32 →
      ∃ o, FirstIs s.opts tag o ∧ rawSize t.opts + optCost o = rawSize s.opts) ∧
    (exec (.removeOption tag) s = .next t → t.result0 = 0#32 → t.opts = s.opts)

/-! ## The typed codec -/

/-- SET_MSS, SET_WSCALE, SET_SACK_OK, SET_TIMESTAMP and SET_ALTCHK (spec/42_option_codec.md R261, R262, R263, R265, R266):
the record each appends, and OPT_CAPACITY when the store is full. -/
def Obligations.TypedSettersAppend : Prop :=
  Command .setMss 0x40#32 ∧ Command .setWscale 0x41#32 ∧ Command .setSackOk 0x42#32 ∧ Command .setTimestamp 0x44#32 ∧
    Command .setAltchk 0x45#32 ∧
  ∀ s : State, s.valid = true →
    AppendsTyped .setMss s 2#8 [s.arg0.toNat / 256 % 256, s.arg0.toNat % 256] 4 ∧
    AppendsTyped .setWscale s 3#8 [s.arg0.toNat % 256] 3 ∧
    AppendsTyped .setSackOk s 4#8 [] 2 ∧
    AppendsTyped .setTimestamp s 8#8
      [s.arg0.toNat / 2 ^ 24, s.arg0.toNat / 2 ^ 16 % 256, s.arg0.toNat / 256 % 256, s.arg0.toNat % 256,
        s.arg1.toNat / 2 ^ 24, s.arg1.toNat / 2 ^ 16 % 256, s.arg1.toNat / 256 % 256, s.arg1.toNat % 256] 10 ∧
    AppendsTyped .setAltchk s 14#8 [s.arg0.toNat % 256] 3

/-- SET_SACK (spec/42_option_codec.md R264): its four checks in order, then the SACK record of the buffer's values. -/
def Obligations.SetSackAppendsTheValues : Prop :=
  Command .setSack 0x43#32 ∧
  ∀ s : State, s.valid = true →
    let a := s.arg0.toNat
    let n := 4 * s.arg1.toNat
    (255 < n → exec .setSack s = .next (faulted .operandRange s)) ∧
    (n ≤ 255 → s.params.bufSize < a + n → exec .setSack s = .next (faulted .bufRange s)) ∧
    (n ≤ 255 → a + n ≤ s.params.bufSize → (∃ k, k < n ∧ memByte s.mem (a + k) = none) →
      exec .setSack s = .next (faulted .bufUninit s)) ∧
    ∀ p : List Byte, p.length = n → n ≤ 255 → a + n ≤ s.params.bufSize → HoldsAt s.mem a p →
      (s.opts.length = s.params.optCapacity → exec .setSack s = .next (faulted .optCapacity s)) ∧
      (s.opts.length ≠ s.params.optCapacity →
        exec .setSack s = .next { s with opts := s.opts ++ [⟨5#8, p, BitVec.ofNat 8 n⟩], err := .noError } ∧
          rawSize (s.opts ++ [⟨5#8, p, BitVec.ofNat 8 n⟩]) = rawSize s.opts + (if n = 0 then 1 else 2 + n))

/-- GET_MSS, GET_WSCALE, HAS_SACK_OK and GET_ALTCHK (spec/42_option_codec.md R267, R268, R269, R272): 0 when absent, the
decoded value of the first record, TYPED_BAD_LENGTH on a payload the kind cannot decode. -/
def Obligations.TypedGettersDecodeTheFirstRecord : Prop :=
  Command .getMss 0x48#32 ∧ Command .getWscale 0x49#32 ∧ Command .hasSackOk 0x4A#32 ∧ Command .getAltchk 0x4D#32 ∧
  ∀ s : State, s.valid = true →
    ((Absent s.opts 2#8 → Returns .getMss s 0) ∧
      ∀ o, FirstIs s.opts 2#8 o →
        (o.payload.length ≠ 2 → exec .getMss s = .next (faulted .typedBadLength s)) ∧
        ∀ x y, o.payload = [x, y] → Returns .getMss s (x.toNat * 256 + y.toNat)) ∧
    ((Absent s.opts 3#8 → Returns .getWscale s 0) ∧
      ∀ o, FirstIs s.opts 3#8 o →
        (o.payload.length ≠ 1 → exec .getWscale s = .next (faulted .typedBadLength s)) ∧
        ∀ x, o.payload = [x] → Returns .getWscale s x.toNat) ∧
    ((Absent s.opts 4#8 → Returns .hasSackOk s 0) ∧ ∀ o, FirstIs s.opts 4#8 o → Returns .hasSackOk s 1) ∧
    ((Absent s.opts 14#8 → Returns .getAltchk s 0) ∧
      ∀ o, FirstIs s.opts 14#8 o →
        (o.payload.length ≠ 1 → exec .getAltchk s = .next (faulted .typedBadLength s)) ∧
        ∀ x, o.payload = [x] → Returns .getAltchk s x.toNat)

/-- GET_SACK (spec/42_option_codec.md R270): OPTION_NOT_FOUND when absent, TYPED_BAD_LENGTH, BUF_RANGE, else the values
copied out and their count in RESULT0. -/
def Obligations.GetSackCopiesTheValues : Prop :=
  Command .getSack 0x4B#32 ∧
  ∀ s : State, s.valid = true →
    (Absent s.opts 5#8 → exec .getSack s = .next { s with err := .optionNotFound }) ∧
    ∀ o, FirstIs s.opts 5#8 o →
      (o.payload.length % 4 ≠ 0 → exec .getSack s = .next (faulted .typedBadLength s)) ∧
      (o.payload.length % 4 = 0 → s.params.bufSize < s.arg0.toNat + o.payload.length →
        exec .getSack s = .next (faulted .bufRange s)) ∧
      (o.payload.length % 4 = 0 → s.arg0.toNat + o.payload.length ≤ s.params.bufSize →
        ∃ (m : Memory) (r : Word), exec .getSack s = .next { s with mem := m, result0 := r, err := .noError } ∧
          StoredAt s.mem m s.arg0.toNat o.payload ∧
          (o.payload.length / 4 < 2 ^ 32 → r.toNat = o.payload.length / 4))

/-- GET_TIMESTAMP (spec/42_option_codec.md R271): OPTION_NOT_FOUND when absent, TYPED_BAD_LENGTH, else the two halves. -/
def Obligations.GetTimestampReturnsBothHalves : Prop :=
  Command .getTimestamp 0x4C#32 ∧
  ∀ s : State, s.valid = true →
    (Absent s.opts 8#8 → exec .getTimestamp s = .next { s with err := .optionNotFound }) ∧
    ∀ o, FirstIs s.opts 8#8 o →
      (o.payload.length ≠ 8 → exec .getTimestamp s = .next (faulted .typedBadLength s)) ∧
      ∀ a b c d e f g h, o.payload = [a, b, c, d, e, f, g, h] →
        ∃ v r : Word, exec .getTimestamp s = .next { s with result0 := v, result1 := r, err := .noError } ∧
          v.toNat = a.toNat * 2 ^ 24 + b.toNat * 2 ^ 16 + c.toNat * 2 ^ 8 + d.toNat ∧
          r.toNat = e.toNat * 2 ^ 24 + f.toNat * 2 ^ 16 + g.toNat * 2 ^ 8 + h.toNat

/-- With room in the store, each of the six typed setters completes (SET_SACK: on values written in BUF), and the getter of
its kind then returns what was set when there was no earlier record of the kind, and the first earlier record's value when
there was one its kind can decode (spec/42_option_codec.md sections 1 and 4). HAS_SACK_OK returns 1 in both cases, and
GET_SACK may be given any ARG0 that leaves room for the bytes. -/
def Obligations.TypedSetThenGet : Prop :=
  ∀ s : State, s.valid = true → s.opts.length ≠ s.params.optCapacity →
    (∃ t, exec .setMss s = .next t ∧ (Absent s.opts 2#8 → Returns .getMss t (s.arg0.toNat % 2 ^ 16)) ∧
      ∀ o x y, FirstIs s.opts 2#8 o → o.payload = [x, y] → Returns .getMss t (x.toNat * 256 + y.toNat)) ∧
    (∃ t, exec .setWscale s = .next t ∧ (Absent s.opts 3#8 → Returns .getWscale t (s.arg0.toNat % 2 ^ 8)) ∧
      ∀ o x, FirstIs s.opts 3#8 o → o.payload = [x] → Returns .getWscale t x.toNat) ∧
    (∃ t, exec .setAltchk s = .next t ∧ (Absent s.opts 14#8 → Returns .getAltchk t (s.arg0.toNat % 2 ^ 8)) ∧
      ∀ o x, FirstIs s.opts 14#8 o → o.payload = [x] → Returns .getAltchk t x.toNat) ∧
    (∃ t, exec .setSackOk s = .next t ∧ Returns .hasSackOk t 1) ∧
    (∃ t, exec .setTimestamp s = .next t ∧
      (Absent s.opts 8#8 →
        exec .getTimestamp t = .next { t with result0 := s.arg0, result1 := s.arg1, err := .noError }) ∧
      ∀ o a b c d e f g h, FirstIs s.opts 8#8 o → o.payload = [a, b, c, d, e, f, g, h] →
        ∃ v r : Word, exec .getTimestamp t = .next { t with result0 := v, result1 := r, err := .noError } ∧
          v.toNat = a.toNat * 2 ^ 24 + b.toNat * 2 ^ 16 + c.toNat * 2 ^ 8 + d.toNat ∧
          r.toNat = e.toNat * 2 ^ 24 + f.toNat * 2 ^ 16 + g.toNat * 2 ^ 8 + h.toNat) ∧
    ∀ p : List Byte, p.length = 4 * s.arg1.toNat → p.length ≤ 255 → s.arg0.toNat + p.length ≤ s.params.bufSize →
      HoldsAt s.mem s.arg0.toNat p →
        ∃ t, exec .setSack s = .next t ∧ (Absent s.opts 5#8 → CopiesSack t p s.arg1.toNat) ∧
          ∀ o, FirstIs s.opts 5#8 o → o.payload.length % 4 = 0 → o.payload.length / 4 < 2 ^ 32 →
            CopiesSack t o.payload (o.payload.length / 4)

/-! ## The parser -/

/-- PARSE accepts every well-formed segment and decodes it (spec/43_parser.md section 1 and 2): a buffer made of a header
whose data offset spans it and the wire forms of an option list, and any trailing bytes, gives exactly that header, that
list and those bytes. -/
def Obligations.ParseDecodesEveryWellFormedSegment : Prop :=
  ∀ (s : State) (h : Header) (os : List OptRec) (tail : List Byte), (∀ o ∈ os, WireRecord o) →
    declaredEnd h[12] = 20 + (wireOpts os).length →
    s.arg1.toNat = (h.toList ++ wireOpts os ++ tail).length →
    s.arg0.toNat + s.arg1.toNat ≤ s.params.bufSize →
    HoldsAt s.mem s.arg0.toNat (h.toList ++ wireOpts os ++ tail) →
      exec .parse s = .next { s with hdr := h, opts := os, inner := rawInner tail, valid := true, err := .noError }

/-- PARSE accepts nothing else (spec/43_parser.md section 1 and 2): whenever it ends `ok`, the buffer is the header, the wire
forms of the recorded options up to the declared header end, and the bytes recorded as the inner layer. -/
def Obligations.ParseAcceptsOnlyWellFormedSegments : Prop :=
  ∀ s t : State, s.fault = none → exec .parse s = .next t → t.fault = none → t.err = .noError →
    ∃ tail : List Byte,
      HoldsAt s.mem s.arg0.toNat (t.hdr.toList ++ wireOpts t.opts ++ tail) ∧
        (t.hdr.toList ++ wireOpts t.opts ++ tail).length = s.arg1.toNat ∧
        s.arg0.toNat + s.arg1.toNat ≤ s.params.bufSize ∧
        declaredEnd t.hdr[12] = 20 + (wireOpts t.opts).length ∧ (∀ o ∈ t.opts, WireRecord o) ∧
        t = { s with hdr := t.hdr, opts := t.opts, inner := rawInner tail, valid := true, err := .noError }

/-- The ends of a PARSE that does not succeed (spec/43_parser.md section 2; spec/60_exceptions.md section 3): BUF_RANGE,
BUF_UNINIT, then MALFORMED_INPUT for a short buffer, a data offset out of bounds, and the first option that has no length
byte, a length byte below 2 or a payload past the header end; each leaves every other state element as it was. -/
def Obligations.ParseRejectsMalformedBuffers : Prop :=
  ∀ s : State,
    let a := s.arg0.toNat
    let n := s.arg1.toNat
    (s.params.bufSize < a + n → exec .parse s = .next (faulted .bufRange s)) ∧
    (a + n ≤ s.params.bufSize → (∃ k, k < n ∧ memByte s.mem (a + k) = none) →
      exec .parse s = .next (faulted .bufUninit s)) ∧
    ∀ b : List Byte, b.length = n → a + n ≤ s.params.bufSize → HoldsAt s.mem a b →
      (n < 20 → exec .parse s = .next { s with err := .malformedInput }) ∧
      ∀ h : 20 ≤ b.length,
        let hend := declaredEnd b[12]
        (hend < 20 ∨ n < hend → exec .parse s = .next { s with err := .malformedInput }) ∧
        ∀ (os : List OptRec) (t : Byte) (rest : List Byte), (∀ o ∈ os, WireRecord o) → t ≠ 0#8 → t ≠ 1#8 →
          b.drop 20 = wireOpts os ++ t :: rest → 20 + (wireOpts os).length < hend → hend ≤ n →
          (rest = [] ∨ (∃ l more, rest = l :: more ∧
              (l.toNat < 2 ∨ hend < 20 + (wireOpts os).length + l.toNat))) →
            exec .parse s = .next { s with err := .malformedInput }

/-- After a successful PARSE (spec/43_parser.md section 3): at most 40 records, every one with a true length, and the sizes
never past the declared header end. -/
def Obligations.ParsedSizesFitTheHeader : Prop :=
  ∀ s t : State, s.fault = none → exec .parse s = .next t → t.fault = none → t.err = .noError →
    t.opts.length ≤ 40 ∧ (∀ o ∈ t.opts, o.lenfield.toNat = o.payload.length) ∧
      20 + rawSize t.opts ≤ declaredEnd t.hdr[12] ∧ 20 + alignedSize t.opts ≤ declaredEnd t.hdr[12]

/-! ## The serializer -/

/-- The faults of SERIALIZE in their order (spec/44_serializer.md R350, after the range check), each leaving everything else
as it was. -/
def Obligations.SerializeFaultsInOrder : Prop :=
  ∀ s : State, s.valid = true →
    (s.params.bufSize < s.arg0.toNat + s.arg1.toNat → exec .serialize s = .next (faulted .bufRange s)) ∧
    (s.arg0.toNat + s.arg1.toNat ≤ s.params.bufSize →
      (40 < alignedSize s.opts → exec .serialize s = .next (faulted .optionsOverflow s)) ∧
      (alignedSize s.opts ≤ 40 → alignedSize s.opts < (encOpts s.opts).length →
        exec .serialize s = .next (faulted .optionRegionOverrun s)) ∧
      (alignedSize s.opts ≤ 40 → (encOpts s.opts).length ≤ alignedSize s.opts →
        s.arg1.toNat < 20 + alignedSize s.opts + (innerBytes s.inner).length →
          exec .serialize s = .next (faulted .outbufTooSmall s)))

/-- The encoding of an option (spec/44_serializer.md R341, R342): a single tag byte for tags 0 and 1, else tag, length byte
and payload, the length byte being the length field plus 2 modulo 256 when it is true and the field itself when spoofed. -/
def Obligations.OptionsEncodeAsStated : Prop :=
  encOpts [] = [] ∧
  ∀ (o : OptRec) (os : List OptRec),
    ((o.tag = 0#8 ∨ o.tag = 1#8) → encOpts (o :: os) = o.tag :: encOpts os) ∧
    (¬(o.tag = 0#8 ∨ o.tag = 1#8) → o.lenfield.toNat = o.payload.length →
      encOpts (o :: os) = o.tag :: BitVec.ofNat 8 ((o.lenfield.toNat + 2) % 256) :: (o.payload ++ encOpts os)) ∧
    (¬(o.tag = 0#8 ∨ o.tag = 1#8) → o.lenfield.toNat ≠ o.payload.length →
      encOpts (o :: os) = o.tag :: o.lenfield :: (o.payload ++ encOpts os))

/-- A SERIALIZE that passes its checks (spec/44_serializer.md R340): the bytes written are the header, the encoded options,
no-op padding to the aligned size and the inner layer; HDR keeps every byte but the data offset and the checksum; the
checksum is the complement of the folded sum for an IPv4 or IPv6 parent and 0 otherwise. -/
def Obligations.SerializeWritesTheSegment : Prop :=
  Command .serialize 0x03#32 ∧
  ∀ s : State, s.valid = true → s.arg0.toNat + s.arg1.toNat ≤ s.params.bufSize → alignedSize s.opts ≤ 40 →
    (encOpts s.opts).length ≤ alignedSize s.opts →
    20 + alignedSize s.opts + (innerBytes s.inner).length ≤ s.arg1.toNat →
      let total := 20 + alignedSize s.opts + (innerBytes s.inner).length
      let body := encOpts s.opts ++ List.replicate (alignedSize s.opts - (encOpts s.opts).length) 1#8
        ++ innerBytes s.inner
      ∃ (m : Memory) (h : Header) (ck r0 r1 : Word),
        exec .serialize s = .next { s with mem := m, hdr := h, result0 := r0, result1 := r1, err := .noError } ∧
          r0.toNat = total ∧ r1 = ck ∧ StoredAt s.mem m s.arg0.toNat (h.toList ++ body) ∧
          (h.toList ++ body).length = total ∧
          (∀ (j : Nat) (hj : j < 20), h[j].toNat =
            if j = 12 then (20 + alignedSize s.opts) / 4 * 16 + s.hdr[12].toNat % 16
            else if j = 16 then ck.toNat / 256 else if j = 17 then ck.toNat % 256 else s.hdr[j].toNat) ∧
          (let sum := wordSum (((h.set 16 0#8).set 17 0#8).toList ++ body)
           (s.parentKind.toNat % 4 = 1 → ck.toNat = 0xFFFF - fold (Config.ph .ipv4 (psrc s) (pdst s) total 6#8 + sum)) ∧
           (s.parentKind.toNat % 4 = 2 → ck.toNat = 0xFFFF - fold (Config.ph .ipv6 (psrc s) (pdst s) total 6#8 + sum)) ∧
           (s.parentKind.toNat % 4 = 0 ∨ s.parentKind.toNat % 4 = 3 → ck = 0#32))

/-- The parent addresses (spec/10_state.md R40): the 128-bit source and destination values PH is given. -/
def Obligations.ParentAddressesAreTheRegisters : Prop :=
  ∀ s : State,
    (psrc s).toNat = s.psrc0.toNat * 2 ^ 96 + s.psrc1.toNat * 2 ^ 64 + s.psrc2.toNat * 2 ^ 32 + s.psrc3.toNat ∧
    (pdst s).toNat = s.pdst0.toNat * 2 ^ 96 + s.pdst1.toNat * 2 ^ 64 + s.pdst2.toNat * 2 ^ 32 + s.pdst3.toNat

/-- `WordSum` and `Fold` are what spec/00_scope.md R23 says: the sum of the big-endian 16-bit words, with an odd last byte
as the high byte of a word, and the repeated folding of the bits above the low 16. The pairing of bytes into words is
general knowledge, as the spec marks it (notes/assumptions/12.md). -/
def Obligations.WordSumAndFoldAsDefined : Prop :=
  (∀ bs : List Byte, wordSum bs =
    ((List.range (bs.length / 2)).map fun i =>
        (bs.getD (2 * i) 0#8).toNat * 256 + (bs.getD (2 * i + 1) 0#8).toNat).sum +
      (if bs.length % 2 = 1 then (bs.getD (bs.length - 1) 0#8).toNat * 256 else 0)) ∧
  ∀ x : Nat, fold x = if x < 65536 then x else fold (x % 65536 + x / 65536)

/-- The laws of `Fold` (spec/00_scope.md R23) that spec/44_serializer.md section 3 uses: it ends below 65536, keeps the value
modulo 65535, is 0 only for 0, and may be taken at any point. -/
def Obligations.FoldLaws : Prop :=
  ∀ x y : Nat, fold x < 65536 ∧ fold x % 65535 = x % 65535 ∧ (fold x = 0 ↔ x = 0) ∧ fold (x + fold y) = fold (x + y)

/-- A serialized segment with a parent verifies (spec/44_serializer.md section 3): the folded sum of the pseudo-header and of
the bytes written, checksum filled in, is 0xFFFF, whatever function PH is. -/
def Obligations.SerializedChecksumVerifies : Prop :=
  ∀ (s t : State) (k : IpKind) (bs : List Byte), s.fault = none → exec .serialize s = .next t → t.fault = none →
    parentIp s.parentKind = some k → bs.length = t.result0.toNat → HoldsAt t.mem s.arg0.toNat bs →
      fold (Config.ph k (psrc s) (pdst s) bs.length 6#8 + wordSum bs) = 0xFFFF

/-- Serializing again (spec/44_serializer.md section 3) completes and changes nothing: no register, no header byte, no byte of
BUF. -/
def Obligations.SerializeTwiceGivesTheSameBytes : Prop :=
  ∀ s t : State, s.fault = none → exec .serialize s = .next t → t.fault = none →
    ∃ u, exec .serialize t = .next u ∧ { u with mem := t.mem } = t ∧ ∀ a, memByte u.mem a = memByte t.mem a

/-- The round trip (spec/44_serializer.md section 3, in its corrected form): PARSE of the bytes SERIALIZE wrote gives the header
as SERIALIZE left it, the same options followed by one no-op record per padding byte, and the inner bytes. -/
def Obligations.ParseOfSerializeIsTheSegment : Prop :=
  ∀ s t : State, s.fault = none → exec .serialize s = .next t → t.fault = none →
    (∀ o ∈ s.opts, RoundTripRecord o) →
      exec .parse { t with arg1 := t.result0 } = .next { t with
        arg1 := t.result0
        opts := s.opts ++ List.replicate (alignedSize s.opts - rawSize s.opts) ⟨1#8, [], 0#8⟩
        inner := rawInner (innerBytes s.inner)
        err := .noError }

/-! ## The response matcher and the inner layer -/

/-- MATCH_RESPONSE (spec/45_matcher_inner.md R390 to R392): the range faults, else RESULT0 = 1 exactly when at least 20
bytes came in, the ports are swapped, and the inner layer, if there is one, accepts the bytes past the clamped boundary. -/
def Obligations.MatchResponseTestsPortsAndInner : Prop :=
  Command .matchResponse 0x60#32 ∧
  ∀ s : State, s.valid = true →
    let a := s.arg0.toNat
    let n := s.arg1.toNat
    (s.params.bufSize < a + n → exec .matchResponse s = .next (faulted .bufRange s)) ∧
    (a + n ≤ s.params.bufSize → (∃ k, k < n ∧ memByte s.mem (a + k) = none) →
      exec .matchResponse s = .next (faulted .bufUninit s)) ∧
    ∀ b : List Byte, b.length = n → a + n ≤ s.params.bufSize → HoldsAt s.mem a b →
      (n < 20 → Returns .matchResponse s 0) ∧
      ∀ h : 20 ≤ b.length,
        ((b[0] = s.hdr[2] ∧ b[1] = s.hdr[3] ∧ b[2] = s.hdr[0] ∧ b[3] = s.hdr[1] ∧
            ∀ i, s.inner = some i →
              Config.innerMatch i.origin i.bytes (b.drop (min (declaredEnd b[12]) n)) = true) →
          Returns .matchResponse s 1) ∧
        (¬(b[0] = s.hdr[2] ∧ b[1] = s.hdr[3] ∧ b[2] = s.hdr[0] ∧ b[3] = s.hdr[1] ∧
            ∀ i, s.inner = some i →
              Config.innerMatch i.origin i.bytes (b.drop (min (declaredEnd b[12]) n)) = true) →
          Returns .matchResponse s 0)

/-- ATTACH_INNER, DETACH_INNER and INNER_READ (spec/45_matcher_inner.md R393, R394, R395). -/
def Obligations.InnerLayerAttachDetachRead : Prop :=
  Command .attachInner 0x50#32 ∧ Command .detachInner 0x51#32 ∧ Command .innerRead 0x52#32 ∧
  ∀ s : State, s.valid = true →
    let a := s.arg0.toNat
    let n := s.arg1.toNat
    ((s.params.bufSize < a + n → exec .attachInner s = .next (faulted .bufRange s)) ∧
      (a + n ≤ s.params.bufSize → (∃ k, k < n ∧ memByte s.mem (a + k) = none) →
        exec .attachInner s = .next (faulted .bufUninit s)) ∧
      ∀ b : List Byte, b.length = n → a + n ≤ s.params.bufSize → HoldsAt s.mem a b →
        exec .attachInner s = .next { s with inner := some ⟨.host, b⟩, err := .noError }) ∧
    exec .detachInner s = .next { s with inner := none, err := .noError } ∧
    (s.inner = none → exec .innerRead s = .next { s with result0 := 0#32, result1 := 0#32, err := .noError }) ∧
    ∀ i, s.inner = some i →
      (s.params.bufSize < a + i.bytes.length → exec .innerRead s = .next (faulted .bufRange s)) ∧
      (a + i.bytes.length ≤ s.params.bufSize →
        ∃ (m : Memory) (r : Word),
          exec .innerRead s = .next { s with
            mem := m
            result0 := if i.origin = .raw then 1#32 else 3#32
            result1 := r
            err := .noError } ∧
          StoredAt s.mem m a i.bytes ∧ (i.bytes.length < 2 ^ 32 → r.toNat = i.bytes.length))

end
end

