-- ==== Sys2Proof/Laws/Decode.lean ====
section
/-! SUPPORT. The fields of a command word as natural numbers, and the fields of a built command word. -/

namespace Sys2Proof

theorem toNat_append_lt {m n : Nat} (x : BitVec m) (y : BitVec n) : (x ++ y).toNat = x.toNat * 2 ^ n + y.toNat := by
  rw [BitVec.toNat_append, ← Nat.shiftLeft_add_eq_or_of_lt y.isLt, Nat.shiftLeft_eq]

theorem toNat_commandWord (opc sub : Byte) : (commandWord opc sub).toNat = sub.toNat * 256 + opc.toNat := by
  have h1 : (commandWord opc sub).toNat = (0#16 ++ sub : BitVec 24).toNat * 2 ^ 8 + opc.toNat := toNat_append_lt _ opc
  have h2 : (0#16 ++ sub : BitVec 24).toNat = (0#16).toNat * 2 ^ 8 + sub.toNat := toNat_append_lt _ sub
  rw [h1, h2]; simp

theorem toNat_flagSub (f : BitVec 3) : (flagSub f).toNat = f.toNat := by
  have h : (flagSub f).toNat = (0#5).toNat * 2 ^ 3 + f.toNat := toNat_append_lt _ f
  rw [h]; simp

theorem toNat_opcField (w : Word) : (opcField w).toNat = w.toNat % 256 := by
  simp [opcField, BitVec.extractLsb'_toNat]

theorem toNat_subField (w : Word) : (subField w).toNat = w.toNat / 256 % 256 := by
  simp [subField, BitVec.extractLsb'_toNat, Nat.shiftRight_eq_div_pow]

theorem toNat_rsvField (w : Word) : (rsvField w).toNat = w.toNat / 65536 := by
  have := w.isLt
  simp [rsvField, BitVec.extractLsb'_toNat, Nat.shiftRight_eq_div_pow]; omega

@[simp] theorem opcField_commandWord (opc sub : Byte) : opcField (commandWord opc sub) = opc := by
  apply BitVec.eq_of_toNat_eq
  have := opc.isLt
  rw [toNat_opcField, toNat_commandWord]; omega

@[simp] theorem subField_commandWord (opc sub : Byte) : subField (commandWord opc sub) = sub := by
  apply BitVec.eq_of_toNat_eq
  have := opc.isLt
  have := sub.isLt
  rw [toNat_subField, toNat_commandWord]; omega

@[simp] theorem rsvField_commandWord (opc sub : Byte) : rsvField (commandWord opc sub) = 0#16 := by
  apply BitVec.eq_of_toNat_eq
  have := opc.isLt
  have := sub.isLt
  rw [toNat_rsvField, toNat_commandWord, BitVec.toNat_ofNat]; omega

/-- A word is built from its OPC and SUB exactly when RSV is zero. -/
theorem commandWord_fields {w : Word} (h : rsvField w = 0#16) : commandWord (opcField w) (subField w) = w := by
  apply BitVec.eq_of_toNat_eq
  have h' : w.toNat / 65536 = 0 := by rw [← toNat_rsvField, h]; rfl
  rw [toNat_commandWord, toNat_opcField, toNat_subField]; omega

end Sys2Proof
end

