-- ==== Sys2Proof/Laws/Header.lean ====
section
/-! SUPPORT. The bytes of an updated header: each update changes the bytes of its field and no other. -/

namespace Sys2Proof.Machine

theorem getElem_hdrPut16 (h : Header) (i : Nat) (v : BitVec 16) (hi : i + 1 < 20) (j : Nat) (hj : j < 20) :
    (hdrPut16 h i v hi)[j] =
      if j = i then v.extractLsb' 8 8 else if j = i + 1 then v.extractLsb' 0 8 else h[j] := by
  simp only [hdrPut16, Vector.getElem_set]
  split_ifs <;> first | rfl | omega

theorem getElem_hdrPut32 (h : Header) (i : Nat) (v : Word) (hi : i + 3 < 20) (j : Nat) (hj : j < 20) :
    (hdrPut32 h i v hi)[j] =
      if j = i then v.extractLsb' 24 8 else if j = i + 1 then v.extractLsb' 16 8
      else if j = i + 2 then v.extractLsb' 8 8 else if j = i + 3 then v.extractLsb' 0 8 else h[j] := by
  simp only [hdrPut32, Vector.getElem_set]
  split_ifs <;> first | rfl | omega

theorem getElem_hdrPutDoff (h : Header) (v : BitVec 4) (j : Nat) (hj : j < 20) :
    (hdrPutDoff h v)[j] = if j = 12 then nibbles v (lowNibble h[12]) else h[j] := by
  simp only [hdrPutDoff, Vector.getElem_set, eq_comm]

theorem getElem_hdrPutFlag (h : Header) (f : BitVec 3) (v : Bool) (j : Nat) (hj : j < 20) :
    (hdrPutFlag h f v)[j] = if j = 13 then putBit h[13] f v else h[j] := by
  simp only [hdrPutFlag, Vector.getElem_set, eq_comm]

theorem getElem_hdrPutFlags12 (h : Header) (v : BitVec 12) (j : Nat) (hj : j < 20) :
    (hdrPutFlags12 h v)[j] =
      if j = 13 then v.extractLsb' 0 8
      else if j = 12 then nibbles (highNibble h[12]) (v.extractLsb' 8 4) else h[j] := by
  simp only [hdrPutFlags12, Vector.getElem_set]
  split_ifs <;> first | rfl | omega

theorem getElem_headerOfBytes (b : List Byte) (j : Nat) (hj : j < 20) : (headerOfBytes b)[j] = byteAt b j := by
  simp [headerOfBytes]

/-! ## Fields as natural numbers -/

theorem toNat_append_byte {n : Nat} (x : BitVec n) (y : Byte) : (x ++ y).toNat = x.toNat * 256 + y.toNat := by
  rw [BitVec.toNat_append, ← Nat.shiftLeft_add_eq_or_of_lt y.isLt, Nat.shiftLeft_eq]

theorem toNat_field {n : Nat} (v : BitVec n) (lo len : Nat) : (v.extractLsb' lo len).toNat = v.toNat / 2 ^ lo % 2 ^ len := by
  simp [BitVec.extractLsb'_toNat, Nat.shiftRight_eq_div_pow]

@[simp] theorem toNat_be16 (x y : Byte) : (be16 x y).toNat = x.toNat * 256 + y.toNat := toNat_append_byte x y

@[simp] theorem toNat_be32 (x y z w : Byte) :
    (be32 x y z w).toNat = ((x.toNat * 256 + y.toNat) * 256 + z.toNat) * 256 + w.toNat := by
  simp only [be32, toNat_append_byte]

@[simp] theorem toNat_nibbles (hi lo : BitVec 4) : (nibbles hi lo).toNat = hi.toNat * 16 + lo.toNat := by
  rw [nibbles, BitVec.toNat_append, ← Nat.shiftLeft_add_eq_or_of_lt lo.isLt, Nat.shiftLeft_eq]

@[simp] theorem toNat_highNibble (b : Byte) : (highNibble b).toNat = b.toNat / 16 := by
  have := b.isLt
  simp only [highNibble, toNat_field]; omega

@[simp] theorem toNat_lowNibble (b : Byte) : (lowNibble b).toNat = b.toNat % 16 := by
  simp only [lowNibble, toNat_field]; omega

@[simp] theorem highNibble_nibbles (hi lo : BitVec 4) : highNibble (nibbles hi lo) = hi := by
  apply BitVec.eq_of_toNat_eq
  have := hi.isLt
  have := lo.isLt
  simp only [toNat_highNibble, toNat_nibbles]; omega

@[simp] theorem lowNibble_nibbles (hi lo : BitVec 4) : lowNibble (nibbles hi lo) = lo := by
  apply BitVec.eq_of_toNat_eq
  have := lo.isLt
  simp only [toNat_lowNibble, toNat_nibbles]; omega

/-- The big-endian pair of a 16-bit value's bytes is the value. -/
@[simp] theorem be16_bytes (v : BitVec 16) : be16 (v.extractLsb' 8 8) (v.extractLsb' 0 8) = v := by
  apply BitVec.eq_of_toNat_eq
  have := v.isLt
  simp only [toNat_be16, toNat_field]; omega

/-- The big-endian four bytes of a 32-bit value are the value. -/
@[simp] theorem be32_bytes (v : Word) :
    be32 (v.extractLsb' 24 8) (v.extractLsb' 16 8) (v.extractLsb' 8 8) (v.extractLsb' 0 8) = v := by
  apply BitVec.eq_of_toNat_eq
  have := v.isLt
  simp only [toNat_be32, toNat_field]; omega

end Sys2Proof.Machine
end

