-- ==== Sys2Proof/Laws/Memory.lean ====
section
/-! SUPPORT. What the buffer operations do: a byte reads back as written, every other byte is kept, the canonical form and
the BUF bound are kept, and a range read answers exactly the bytes it names. -/

namespace Sys2Proof.Machine

@[simp] theorem memByte_nil (a : Nat) : memByte [] a = none := rfl

theorem memByte_cons (c : Host.Cell) (m : Memory) (a : Nat) :
    memByte (c :: m) a = if c.1 = a then some c.2 else memByte m a := rfl

/-- Read after write, at every offset and for every list of cells. -/
theorem memByte_memPut (m : Memory) (a : Nat) (v : Byte) (b : Nat) :
    memByte (memPut m a v) b = if b = a then some v else memByte m b := by
  induction m with
  | nil => simp [memPut, memByte, eq_comm]
  | cons c rest ih =>
    unfold memPut
    split
    · simp [memByte, eq_comm]
    · split
      · next h => simp only [memByte, h]; split <;> simp_all [eq_comm]
      · next h1 h2 =>
        simp only [memByte, ih]
        split
        · next h => simp [← h]; omega
        · rfl

@[simp] theorem memByte_memPut_self (m : Memory) (a : Nat) (v : Byte) : memByte (memPut m a v) a = some v := by
  simp [memByte_memPut]

theorem memByte_memPut_ne {a b : Nat} (h : b ≠ a) (m : Memory) (v : Byte) : memByte (memPut m a v) b = memByte m b := by
  simp [memByte_memPut, h]

@[simp] theorem memWrite_nil (m : Memory) (a : Nat) : memWrite m a [] = m := rfl

@[simp] theorem memWrite_cons (m : Memory) (a : Nat) (b : Byte) (bs : List Byte) :
    memWrite m a (b :: bs) = memWrite (memPut m a b) (a + 1) bs := rfl

/-- A byte outside the written range is kept. -/
theorem memByte_memWrite_outside (bs : List Byte) (m : Memory) (a b : Nat) (h : b < a ∨ a + bs.length ≤ b) :
    memByte (memWrite m a bs) b = memByte m b := by
  induction bs generalizing m a with
  | nil => rfl
  | cons x xs ih =>
    simp only [List.length_cons] at h
    rw [memWrite_cons, ih _ _ (by omega), memByte_memPut_ne (by omega)]

/-- A byte inside the written range reads as written. -/
theorem memByte_memWrite_inside (bs : List Byte) (m : Memory) (a k : Nat) (h : k < bs.length) :
    memByte (memWrite m a bs) (a + k) = some bs[k] := by
  induction bs generalizing m a k with
  | nil => simp at h
  | cons x xs ih =>
    rw [memWrite_cons]
    cases k with
    | zero => rw [memByte_memWrite_outside _ _ _ _ (by omega)]; simp
    | succ k => simpa [Nat.add_assoc, Nat.add_comm 1 k] using ih (memPut m a x) (a + 1) k (by simpa using h)

theorem memRead_succ (m : Memory) (a n : Nat) :
    memRead m a (n + 1) = (memByte m a).bind fun b => (memRead m (a + 1) n).map (b :: ·) := by
  simp only [memRead]
  cases memByte m a <;> cases memRead m (a + 1) n <;> rfl

/-- A range read answers `bs` exactly when every byte of the range is written and reads as `bs` says. -/
theorem memRead_eq_some_iff (m : Memory) (a n : Nat) (bs : List Byte) :
    memRead m a n = some bs ↔ bs.length = n ∧ ∀ k (h : k < bs.length), memByte m (a + k) = some bs[k] := by
  induction n generalizing a bs with
  | zero =>
    constructor
    · intro h; simp only [memRead, Option.some.injEq] at h; subst h; simp
    · rintro ⟨h, -⟩; simp [memRead, List.length_eq_zero_iff.mp h]
  | succ n ih =>
    cases bs with
    | nil => simp [memRead_succ, Option.bind_eq_some_iff]
    | cons x xs =>
      have key : memRead m a (n + 1) = some (x :: xs) ↔ memByte m a = some x ∧ memRead m (a + 1) n = some xs := by
        simp [memRead_succ, Option.bind_eq_some_iff]
      rw [key, ih]
      constructor
      · rintro ⟨h0, hl, hk⟩
        refine ⟨by simp [hl], fun k h => ?_⟩
        cases k with
        | zero => exact h0
        | succ k =>
          have := hk k (by simpa using h)
          rwa [show a + 1 + k = a + (k + 1) by omega] at this
      · rintro ⟨hl, hk⟩
        refine ⟨hk 0 (by simp), by simpa using hl, fun k h => ?_⟩
        have := hk (k + 1) (by simpa using h)
        rwa [show a + (k + 1) = a + 1 + k by omega] at this

/-- A range read fails exactly when some byte of the range is unwritten. -/
theorem memRead_eq_none_iff (m : Memory) (a n : Nat) :
    memRead m a n = none ↔ ∃ k, k < n ∧ memByte m (a + k) = none := by
  induction n generalizing a with
  | zero => simp [memRead]
  | succ n ih =>
    have key : memRead m a (n + 1) = none ↔ memByte m a = none ∨ memRead m (a + 1) n = none := by
      rw [memRead_succ]
      cases memByte m a <;> simp
    rw [key, ih]
    constructor
    · rintro (h | ⟨k, hk, h⟩)
      · exact ⟨0, by omega, h⟩
      · exact ⟨k + 1, by omega, by rwa [show a + (k + 1) = a + 1 + k by omega]⟩
    · rintro ⟨k, hk, h⟩
      cases k with
      | zero => exact .inl h
      | succ k => exact .inr ⟨k, by omega, by rwa [show a + 1 + k = a + (k + 1) by omega]⟩

/-- What was written reads back whole. -/
theorem memRead_memWrite (bs : List Byte) (m : Memory) (a : Nat) : memRead (memWrite m a bs) a bs.length = some bs :=
  (memRead_eq_some_iff ..).mpr ⟨rfl, fun k h => memByte_memWrite_inside bs m a k h⟩

/-- The canonical form is the strict order of the offsets. -/
theorem memory_wf_iff (m : Memory) : m.wf = true ↔ m.Pairwise fun c d => c.1 < d.1 := by
  induction m with
  | nil => simp [Memory.wf]
  | cons c rest ih =>
    cases rest with
    | nil => simp [Memory.wf]
    | cons d rest =>
      simp only [Memory.wf, Bool.and_eq_true, decide_eq_true_eq, ih, List.pairwise_cons]
      constructor
      · rintro ⟨h, h1, h2⟩
        refine ⟨fun e he => ?_, h1, h2⟩
        rcases List.mem_cons.mp he with rfl | he
        · exact h
        · exact lt_trans h (h1 e he)
      · rintro ⟨h, h1, h2⟩
        exact ⟨h d (by simp), h1, h2⟩

theorem mem_memPut {m : Memory} {a : Nat} {v : Byte} {c : Host.Cell} (h : c ∈ memPut m a v) : c = (a, v) ∨ c ∈ m := by
  induction m with
  | nil => simpa [memPut] using h
  | cons d rest ih =>
    unfold memPut at h
    split at h
    · simpa using h
    · split at h
      · rcases List.mem_cons.mp h with h | h
        · exact .inl h
        · exact .inr (by simp [h])
      · rcases List.mem_cons.mp h with h | h
        · exact .inr (by simp [h])
        · rcases ih h with h | h
          · exact .inl h
          · exact .inr (by simp [h])

/-- Writing a byte keeps the canonical form. -/
theorem memPut_wf {m : Memory} (h : m.wf = true) (a : Nat) (v : Byte) : Memory.wf (memPut m a v) = true := by
  rw [memory_wf_iff] at h ⊢
  induction m with
  | nil => simp [memPut]
  | cons c rest ih =>
    rw [List.pairwise_cons] at h
    unfold memPut
    split
    · next h1 =>
      refine List.pairwise_cons.mpr ⟨fun e he => ?_, List.pairwise_cons.mpr h⟩
      rcases List.mem_cons.mp he with rfl | he
      · exact h1
      · exact lt_trans h1 (h.1 e he)
    · split
      · next h2 => exact List.pairwise_cons.mpr ⟨fun e he => by simpa [h2] using h.1 e he, h.2⟩
      · next h1 h2 =>
        refine List.pairwise_cons.mpr ⟨fun e he => ?_, ih h.2⟩
        rcases mem_memPut he with rfl | he
        · show c.1 < a; omega
        · exact h.1 e he

/-- Writing a byte string keeps the canonical form. -/
theorem memWrite_wf (bs : List Byte) {m : Memory} (h : m.wf = true) (a : Nat) : Memory.wf (memWrite m a bs) = true := by
  induction bs generalizing m a with
  | nil => exact h
  | cons b bs ih => exact ih (memPut_wf h a b) (a + 1)

theorem inside_iff (size : Nat) (m : Memory) : m.inside size = true ↔ ∀ c ∈ m, c.1 < size := by
  simp [Memory.inside]

/-- A byte written inside BUF keeps the memory inside BUF. -/
theorem memPut_inside {size : Nat} {m : Memory} (h : m.inside size = true) {a : Nat} (ha : a < size) (v : Byte) :
    Memory.inside size (memPut m a v) = true := by
  rw [inside_iff] at h ⊢
  intro c hc
  rcases mem_memPut hc with rfl | hc
  · exact ha
  · exact h c hc

/-- A byte string written inside BUF keeps the memory inside BUF. -/
theorem memWrite_inside (bs : List Byte) {size : Nat} {m : Memory} (h : m.inside size = true) {a : Nat}
    (ha : a + bs.length ≤ size) : Memory.inside size (memWrite m a bs) = true := by
  induction bs generalizing m a with
  | nil => exact h
  | cons b bs ih =>
    simp only [List.length_cons] at ha
    exact ih (memPut_inside h (by omega) b) (by omega)

end Sys2Proof.Machine
end

