-- ==== Sys2Proof/Laws/State.lean ====
section
/-! SUPPORT. What each named update of the state does to each field, so that no later proof unfolds a record update. -/

namespace Sys2Proof.Machine

/-! ## `bufWrite`: only `mem` -/

@[simp] theorem bufWrite_valid (s : State) (a : Nat) (bs : List Byte) : (bufWrite s a bs).valid = s.valid := rfl
@[simp] theorem bufWrite_hdr (s : State) (a : Nat) (bs : List Byte) : (bufWrite s a bs).hdr = s.hdr := rfl
@[simp] theorem bufWrite_opts (s : State) (a : Nat) (bs : List Byte) : (bufWrite s a bs).opts = s.opts := rfl
@[simp] theorem bufWrite_inner (s : State) (a : Nat) (bs : List Byte) : (bufWrite s a bs).inner = s.inner := rfl
@[simp] theorem bufWrite_cmd (s : State) (a : Nat) (bs : List Byte) : (bufWrite s a bs).cmd = s.cmd := rfl
@[simp] theorem bufWrite_arg0 (s : State) (a : Nat) (bs : List Byte) : (bufWrite s a bs).arg0 = s.arg0 := rfl
@[simp] theorem bufWrite_arg1 (s : State) (a : Nat) (bs : List Byte) : (bufWrite s a bs).arg1 = s.arg1 := rfl
@[simp] theorem bufWrite_arg2 (s : State) (a : Nat) (bs : List Byte) : (bufWrite s a bs).arg2 = s.arg2 := rfl
@[simp] theorem bufWrite_err (s : State) (a : Nat) (bs : List Byte) : (bufWrite s a bs).err = s.err := rfl
@[simp] theorem bufWrite_fault (s : State) (a : Nat) (bs : List Byte) : (bufWrite s a bs).fault = s.fault := rfl
@[simp] theorem bufWrite_result0 (s : State) (a : Nat) (bs : List Byte) : (bufWrite s a bs).result0 = s.result0 := rfl
@[simp] theorem bufWrite_result1 (s : State) (a : Nat) (bs : List Byte) : (bufWrite s a bs).result1 = s.result1 := rfl
@[simp] theorem bufWrite_faultInfo (s : State) (a : Nat) (bs : List Byte) : (bufWrite s a bs).faultInfo = s.faultInfo := rfl
@[simp] theorem bufWrite_parentKind (s : State) (a : Nat) (bs : List Byte) : (bufWrite s a bs).parentKind = s.parentKind := rfl
@[simp] theorem bufWrite_psrc0 (s : State) (a : Nat) (bs : List Byte) : (bufWrite s a bs).psrc0 = s.psrc0 := rfl
@[simp] theorem bufWrite_psrc1 (s : State) (a : Nat) (bs : List Byte) : (bufWrite s a bs).psrc1 = s.psrc1 := rfl
@[simp] theorem bufWrite_psrc2 (s : State) (a : Nat) (bs : List Byte) : (bufWrite s a bs).psrc2 = s.psrc2 := rfl
@[simp] theorem bufWrite_psrc3 (s : State) (a : Nat) (bs : List Byte) : (bufWrite s a bs).psrc3 = s.psrc3 := rfl
@[simp] theorem bufWrite_pdst0 (s : State) (a : Nat) (bs : List Byte) : (bufWrite s a bs).pdst0 = s.pdst0 := rfl
@[simp] theorem bufWrite_pdst1 (s : State) (a : Nat) (bs : List Byte) : (bufWrite s a bs).pdst1 = s.pdst1 := rfl
@[simp] theorem bufWrite_pdst2 (s : State) (a : Nat) (bs : List Byte) : (bufWrite s a bs).pdst2 = s.pdst2 := rfl
@[simp] theorem bufWrite_pdst3 (s : State) (a : Nat) (bs : List Byte) : (bufWrite s a bs).pdst3 = s.pdst3 := rfl
@[simp] theorem bufWrite_mem (s : State) (a : Nat) (bs : List Byte) :
    (bufWrite s a bs).mem = memWrite s.mem a bs := rfl
@[simp] theorem bufWrite_params (s : State) (a : Nat) (bs : List Byte) : (bufWrite s a bs).params = s.params := rfl
@[simp] theorem bufWrite_pending (s : State) (a : Nat) (bs : List Byte) : (bufWrite s a bs).pending = s.pending := rfl
@[simp] theorem bufWrite_replies (s : State) (a : Nat) (bs : List Byte) : (bufWrite s a bs).replies = s.replies := rfl
@[simp] theorem bufWrite_draws (s : State) (a : Nat) (bs : List Byte) : (bufWrite s a bs).draws = s.draws := rfl

/-! ## `reply`: only `replies` -/

@[simp] theorem reply_valid (v : Word) (s : State) : (reply v s).valid = s.valid := rfl
@[simp] theorem reply_hdr (v : Word) (s : State) : (reply v s).hdr = s.hdr := rfl
@[simp] theorem reply_opts (v : Word) (s : State) : (reply v s).opts = s.opts := rfl
@[simp] theorem reply_inner (v : Word) (s : State) : (reply v s).inner = s.inner := rfl
@[simp] theorem reply_cmd (v : Word) (s : State) : (reply v s).cmd = s.cmd := rfl
@[simp] theorem reply_arg0 (v : Word) (s : State) : (reply v s).arg0 = s.arg0 := rfl
@[simp] theorem reply_arg1 (v : Word) (s : State) : (reply v s).arg1 = s.arg1 := rfl
@[simp] theorem reply_arg2 (v : Word) (s : State) : (reply v s).arg2 = s.arg2 := rfl
@[simp] theorem reply_err (v : Word) (s : State) : (reply v s).err = s.err := rfl
@[simp] theorem reply_fault (v : Word) (s : State) : (reply v s).fault = s.fault := rfl
@[simp] theorem reply_result0 (v : Word) (s : State) : (reply v s).result0 = s.result0 := rfl
@[simp] theorem reply_result1 (v : Word) (s : State) : (reply v s).result1 = s.result1 := rfl
@[simp] theorem reply_faultInfo (v : Word) (s : State) : (reply v s).faultInfo = s.faultInfo := rfl
@[simp] theorem reply_parentKind (v : Word) (s : State) : (reply v s).parentKind = s.parentKind := rfl
@[simp] theorem reply_psrc0 (v : Word) (s : State) : (reply v s).psrc0 = s.psrc0 := rfl
@[simp] theorem reply_psrc1 (v : Word) (s : State) : (reply v s).psrc1 = s.psrc1 := rfl
@[simp] theorem reply_psrc2 (v : Word) (s : State) : (reply v s).psrc2 = s.psrc2 := rfl
@[simp] theorem reply_psrc3 (v : Word) (s : State) : (reply v s).psrc3 = s.psrc3 := rfl
@[simp] theorem reply_pdst0 (v : Word) (s : State) : (reply v s).pdst0 = s.pdst0 := rfl
@[simp] theorem reply_pdst1 (v : Word) (s : State) : (reply v s).pdst1 = s.pdst1 := rfl
@[simp] theorem reply_pdst2 (v : Word) (s : State) : (reply v s).pdst2 = s.pdst2 := rfl
@[simp] theorem reply_pdst3 (v : Word) (s : State) : (reply v s).pdst3 = s.pdst3 := rfl
@[simp] theorem reply_mem (v : Word) (s : State) : (reply v s).mem = s.mem := rfl
@[simp] theorem reply_params (v : Word) (s : State) : (reply v s).params = s.params := rfl
@[simp] theorem reply_pending (v : Word) (s : State) : (reply v s).pending = s.pending := rfl
@[simp] theorem reply_replies (v : Word) (s : State) : (reply v s).replies = s.replies ++ [v] := rfl
@[simp] theorem reply_draws (v : Word) (s : State) : (reply v s).draws = s.draws := rfl

/-! ## `resetBlock`: every field of the block, none of the host's or the parameters -/

@[simp] theorem resetBlock_valid (s : State) : (resetBlock s).valid = (State.resetWith s.params).valid := rfl
@[simp] theorem resetBlock_hdr (s : State) : (resetBlock s).hdr = (State.resetWith s.params).hdr := rfl
@[simp] theorem resetBlock_opts (s : State) : (resetBlock s).opts = (State.resetWith s.params).opts := rfl
@[simp] theorem resetBlock_inner (s : State) : (resetBlock s).inner = (State.resetWith s.params).inner := rfl
@[simp] theorem resetBlock_cmd (s : State) : (resetBlock s).cmd = (State.resetWith s.params).cmd := rfl
@[simp] theorem resetBlock_arg0 (s : State) : (resetBlock s).arg0 = (State.resetWith s.params).arg0 := rfl
@[simp] theorem resetBlock_arg1 (s : State) : (resetBlock s).arg1 = (State.resetWith s.params).arg1 := rfl
@[simp] theorem resetBlock_arg2 (s : State) : (resetBlock s).arg2 = (State.resetWith s.params).arg2 := rfl
@[simp] theorem resetBlock_err (s : State) : (resetBlock s).err = (State.resetWith s.params).err := rfl
@[simp] theorem resetBlock_fault (s : State) : (resetBlock s).fault = (State.resetWith s.params).fault := rfl
@[simp] theorem resetBlock_result0 (s : State) : (resetBlock s).result0 = (State.resetWith s.params).result0 := rfl
@[simp] theorem resetBlock_result1 (s : State) : (resetBlock s).result1 = (State.resetWith s.params).result1 := rfl
@[simp] theorem resetBlock_faultInfo (s : State) : (resetBlock s).faultInfo = (State.resetWith s.params).faultInfo := rfl
@[simp] theorem resetBlock_parentKind (s : State) : (resetBlock s).parentKind = (State.resetWith s.params).parentKind := rfl
@[simp] theorem resetBlock_psrc0 (s : State) : (resetBlock s).psrc0 = (State.resetWith s.params).psrc0 := rfl
@[simp] theorem resetBlock_psrc1 (s : State) : (resetBlock s).psrc1 = (State.resetWith s.params).psrc1 := rfl
@[simp] theorem resetBlock_psrc2 (s : State) : (resetBlock s).psrc2 = (State.resetWith s.params).psrc2 := rfl
@[simp] theorem resetBlock_psrc3 (s : State) : (resetBlock s).psrc3 = (State.resetWith s.params).psrc3 := rfl
@[simp] theorem resetBlock_pdst0 (s : State) : (resetBlock s).pdst0 = (State.resetWith s.params).pdst0 := rfl
@[simp] theorem resetBlock_pdst1 (s : State) : (resetBlock s).pdst1 = (State.resetWith s.params).pdst1 := rfl
@[simp] theorem resetBlock_pdst2 (s : State) : (resetBlock s).pdst2 = (State.resetWith s.params).pdst2 := rfl
@[simp] theorem resetBlock_pdst3 (s : State) : (resetBlock s).pdst3 = (State.resetWith s.params).pdst3 := rfl
@[simp] theorem resetBlock_mem (s : State) : (resetBlock s).mem = (State.resetWith s.params).mem := rfl
@[simp] theorem resetBlock_params (s : State) : (resetBlock s).params = s.params := rfl
@[simp] theorem resetBlock_pending (s : State) : (resetBlock s).pending = s.pending := rfl
@[simp] theorem resetBlock_replies (s : State) : (resetBlock s).replies = s.replies := rfl
@[simp] theorem resetBlock_draws (s : State) : (resetBlock s).draws = s.draws := rfl

/-! ## `State.resetWith` (spec/10_state.md R53) -/

@[simp] theorem resetWith_valid (p : Params) : (State.resetWith p).valid = false := rfl
@[simp] theorem resetWith_hdr (p : Params) : (State.resetWith p).hdr = Vector.replicate 20 0#8 := rfl
@[simp] theorem resetWith_opts (p : Params) : (State.resetWith p).opts = [] := rfl
@[simp] theorem resetWith_inner (p : Params) : (State.resetWith p).inner = none := rfl
@[simp] theorem resetWith_cmd (p : Params) : (State.resetWith p).cmd = 0#32 := rfl
@[simp] theorem resetWith_arg0 (p : Params) : (State.resetWith p).arg0 = 0#32 := rfl
@[simp] theorem resetWith_arg1 (p : Params) : (State.resetWith p).arg1 = 0#32 := rfl
@[simp] theorem resetWith_arg2 (p : Params) : (State.resetWith p).arg2 = 0#32 := rfl
@[simp] theorem resetWith_err (p : Params) : (State.resetWith p).err = .noError := rfl
@[simp] theorem resetWith_fault (p : Params) : (State.resetWith p).fault = none := rfl
@[simp] theorem resetWith_result0 (p : Params) : (State.resetWith p).result0 = 0#32 := rfl
@[simp] theorem resetWith_result1 (p : Params) : (State.resetWith p).result1 = 0#32 := rfl
@[simp] theorem resetWith_faultInfo (p : Params) : (State.resetWith p).faultInfo = 0#32 := rfl
@[simp] theorem resetWith_parentKind (p : Params) : (State.resetWith p).parentKind = 0#32 := rfl
@[simp] theorem resetWith_psrc0 (p : Params) : (State.resetWith p).psrc0 = 0#32 := rfl
@[simp] theorem resetWith_psrc1 (p : Params) : (State.resetWith p).psrc1 = 0#32 := rfl
@[simp] theorem resetWith_psrc2 (p : Params) : (State.resetWith p).psrc2 = 0#32 := rfl
@[simp] theorem resetWith_psrc3 (p : Params) : (State.resetWith p).psrc3 = 0#32 := rfl
@[simp] theorem resetWith_pdst0 (p : Params) : (State.resetWith p).pdst0 = 0#32 := rfl
@[simp] theorem resetWith_pdst1 (p : Params) : (State.resetWith p).pdst1 = 0#32 := rfl
@[simp] theorem resetWith_pdst2 (p : Params) : (State.resetWith p).pdst2 = 0#32 := rfl
@[simp] theorem resetWith_pdst3 (p : Params) : (State.resetWith p).pdst3 = 0#32 := rfl
@[simp] theorem resetWith_mem (p : Params) : (State.resetWith p).mem = [] := rfl
@[simp] theorem resetWith_params (p : Params) : (State.resetWith p).params = p := rfl
@[simp] theorem resetWith_pending (p : Params) : (State.resetWith p).pending = [] := rfl
@[simp] theorem resetWith_replies (p : Params) : (State.resetWith p).replies = [] := rfl
@[simp] theorem resetWith_draws (p : Params) : (State.resetWith p).draws = 0 := rfl

end Sys2Proof.Machine
end

