-- ==== Sys2Proof/Laws/Ops.lean ====
section
/-! SUPPORT. One lemma per shared operation that says everything it can do: its value where its check passes, its value
where the check fails, and the cases of a next state. -/

namespace Sys2Proof.Machine

/-! ## The ends of a command -/

@[simp] theorem raiseFault_eq_next (c : FaultCause) (s t : State) :
    raiseFault c s = .next t ↔ t = { s with fault := some c, faultInfo := s.cmd } := by
  simp [raiseFault, eq_comm]

@[simp] theorem raiseError_eq_next (e : ErrCode) (s t : State) : raiseError e s = .next t ↔ t = { s with err := e } := by
  simp [raiseError, eq_comm]

@[simp] theorem finishOk_eq_next (s t : State) : finishOk s = .next t ↔ t = { s with err := .noError } := by
  simp [finishOk, eq_comm]

@[simp] theorem finishWith_eq_next (v : Word) (s t : State) :
    finishWith v s = .next t ↔ t = { s with result0 := v, err := .noError } := by
  simp [finishWith]

@[simp] theorem finishWith2_eq_next (v0 v1 : Word) (s t : State) :
    finishWith2 v0 v1 s = .next t ↔ t = { s with result0 := v0, result1 := v1, err := .noError } := by
  simp [finishWith2]

/-! ## The segment check -/

theorem withSegment_of_valid {s : State} (h : s.valid = true) (k : Result) : withSegment s k = k := by
  simp [withSegment, h]

theorem withSegment_of_invalid {s : State} (h : s.valid = false) (k : Result) :
    withSegment s k = raiseFault .noSegment s := by
  simp [withSegment, h]

/-- What a command behind `require_segment()` can answer. -/
theorem withSegment_cases (s : State) (k : Result) (t : State) :
    withSegment s k = .next t ↔
      (s.valid = false ∧ t = { s with fault := some .noSegment, faultInfo := s.cmd }) ∨ (s.valid = true ∧ k = .next t) := by
  cases h : s.valid <;> simp [withSegment, h]

/-! ## The buffer checks -/

theorem rangeFits_iff (s : State) (a n : Nat) : rangeFits s a n = true ↔ a + n ≤ s.params.bufSize := by
  simp [rangeFits]

/-- The bytes of a range that fits and is written. -/
theorem bufRead_eq_ok_iff (s : State) (a n : Nat) (bs : List Byte) :
    bufRead s a n = .ok bs ↔
      a + n ≤ s.params.bufSize ∧ bs.length = n ∧ ∀ k (h : k < bs.length), memByte s.mem (a + k) = some bs[k] := by
  rw [← memRead_eq_some_iff, ← rangeFits_iff]
  unfold bufRead
  by_cases h : rangeFits s a n = true
  · simp only [h, if_true, true_and]
    cases hm : memRead s.mem a n <;> simp
  · simp [h]

/-- A range past the end of BUF. -/
theorem bufRead_range {s : State} {a n : Nat} (h : s.params.bufSize < a + n) : bufRead s a n = .error .bufRange := by
  have : rangeFits s a n = false := by simp [rangeFits]; omega
  simp [bufRead, this]

/-- A range inside BUF with an unwritten byte. -/
theorem bufRead_uninit {s : State} {a n k : Nat} (h : a + n ≤ s.params.bufSize) (hk : k < n)
    (hm : memByte s.mem (a + k) = none) : bufRead s a n = .error .bufUninit := by
  have h1 : rangeFits s a n = true := (rangeFits_iff ..).mpr h
  have h2 : memRead s.mem a n = none := (memRead_eq_none_iff ..).mpr ⟨k, hk, hm⟩
  simp [bufRead, h1, h2]

/-- A command that reads a buffer range: it faults with BUF_RANGE, faults with BUF_UNINIT, or goes on with the bytes. -/
theorem withBytes_cases (s : State) (a n : Nat) (k : List Byte → Result) :
    (s.params.bufSize < a + n ∧ withBytes s a n k = raiseFault .bufRange s) ∨
      (a + n ≤ s.params.bufSize ∧ (∃ j, j < n ∧ memByte s.mem (a + j) = none) ∧
        withBytes s a n k = raiseFault .bufUninit s) ∨
      (∃ bs, bufRead s a n = .ok bs ∧ bs.length = n ∧ withBytes s a n k = k bs) := by
  by_cases h : a + n ≤ s.params.bufSize
  · right
    cases hm : memRead s.mem a n with
    | none =>
      left
      obtain ⟨j, hj, hb⟩ := (memRead_eq_none_iff ..).mp hm
      exact ⟨h, ⟨j, hj, hb⟩, by simp [withBytes, bufRead_uninit h hj hb]⟩
    | some bs =>
      right
      obtain ⟨hl, hb⟩ := (memRead_eq_some_iff ..).mp hm
      have hr : bufRead s a n = .ok bs := (bufRead_eq_ok_iff ..).mpr ⟨h, hl, hb⟩
      exact ⟨bs, hr, hl, by simp [withBytes, hr]⟩
  · left
    have h' : s.params.bufSize < a + n := by omega
    exact ⟨h', by simp [withBytes, bufRead_range h']⟩

theorem withBytes_of_ok {s : State} {a n : Nat} {bs : List Byte} (h : bufRead s a n = .ok bs) (k : List Byte → Result) :
    withBytes s a n k = k bs := by
  simp [withBytes, h]

theorem withRoom_of_fits {s : State} {a n : Nat} (h : a + n ≤ s.params.bufSize) (k : Result) : withRoom s a n k = k := by
  simp [withRoom, rangeFits, h]

theorem withRoom_of_range {s : State} {a n : Nat} (h : s.params.bufSize < a + n) (k : Result) :
    withRoom s a n k = raiseFault .bufRange s := by
  have : rangeFits s a n = false := by simp [rangeFits]; omega
  simp [withRoom, this]

/-- What a command behind `check_write` can answer. -/
theorem withRoom_cases (s : State) (a n : Nat) (k : Result) (t : State) :
    withRoom s a n k = .next t ↔
      (s.params.bufSize < a + n ∧ t = { s with fault := some .bufRange, faultInfo := s.cmd }) ∨
        (a + n ≤ s.params.bufSize ∧ k = .next t) := by
  by_cases h : a + n ≤ s.params.bufSize
  · simp [withRoom_of_fits h, h, Nat.not_lt.mpr h]
  · have h' : s.params.bufSize < a + n := by omega
    simp [withRoom_of_range h', h, h']

/-- Copying a byte string out: the range fault, or the bytes written and the rest of the command. -/
theorem copyOut_cases (a : Nat) (bs : List Byte) (k : State → Result) (s t : State) :
    copyOut a bs k s = .next t ↔
      (s.params.bufSize < a + bs.length ∧ t = { s with fault := some .bufRange, faultInfo := s.cmd }) ∨
        (a + bs.length ≤ s.params.bufSize ∧ k (bufWrite s a bs) = .next t) :=
  withRoom_cases s a bs.length (k (bufWrite s a bs)) t

/-- What a command behind the capacity check can answer. -/
theorem withCapacity_cases (s : State) (k : Result) (t : State) :
    withCapacity s k = .next t ↔
      (s.opts.length = s.params.optCapacity ∧ t = { s with fault := some .optCapacity, faultInfo := s.cmd }) ∨
        (s.opts.length ≠ s.params.optCapacity ∧ k = .next t) := by
  by_cases h : s.opts.length = s.params.optCapacity <;> simp [withCapacity, h]

/-- Appending a record: the capacity fault, or the record at the end of the list. -/
theorem appendOpt_cases (o : OptRec) (s t : State) :
    appendOpt o s = .next t ↔
      (s.opts.length = s.params.optCapacity ∧ t = { s with fault := some .optCapacity, faultInfo := s.cmd }) ∨
        (s.opts.length ≠ s.params.optCapacity ∧ t = { s with opts := s.opts ++ [o], err := .noError }) := by
  rw [appendOpt, withCapacity_cases]; simp

/-- What a typed getter can answer. -/
theorem readTyped_cases (tag : Byte) (good : Nat → Bool) (absent : Result) (k : List Byte → Result) (s t : State) :
    readTyped tag good absent k s = .next t ↔
      (s.valid = false ∧ t = { s with fault := some .noSegment, faultInfo := s.cmd }) ∨
        (s.valid = true ∧
          ((firstOpt s.opts tag = none ∧ absent = .next t) ∨
            (∃ o, firstOpt s.opts tag = some o ∧
              ((good o.payload.length = false ∧ t = { s with fault := some .typedBadLength, faultInfo := s.cmd }) ∨
                (good o.payload.length = true ∧ k o.payload = .next t))))) := by
  rw [readTyped, withSegment_cases]
  cases hf : firstOpt s.opts tag with
  | none => simp
  | some o => cases hg : good o.payload.length <;> simp [hg]

/-! ## Results -/

/-- A natural number that fits is held as it is. -/
theorem toNat_resultOfNat {n : Nat} (h : n < 2 ^ 32) : (resultOfNat n).toNat = n := by
  rw [resultOfNat, if_pos h, BitVec.toNat_ofNat, Nat.mod_eq_of_lt h]

end Sys2Proof.Machine
end

