-- ==== Sys2Proof/Laws/Fields.lean ====
section
/-! SUPPORT. The shared shapes of the field getters and setters (spec/40_lifecycle_header.md R160), and the operand fields
as natural numbers. -/

namespace Sys2Proof.Machine

/-- What a field getter can answer. -/
theorem readField_cases {n : Nat} (v : BitVec n) (s t : State) :
    readField v s = .next t ↔
      (s.valid = false ∧ t = { s with fault := some .noSegment, faultInfo := s.cmd }) ∨
        (s.valid = true ∧ t = { s with result0 := zext32 v, err := .noError }) := by
  rw [readField, withSegment_cases, finishWith_eq_next]

/-- What a header setter can answer. -/
theorem writeHeader_cases (h : Header) (s t : State) :
    writeHeader h s = .next t ↔
      (s.valid = false ∧ t = { s with fault := some .noSegment, faultInfo := s.cmd }) ∨
        (s.valid = true ∧ t = { s with hdr := h, err := .noError }) := by
  rw [writeHeader, withSegment_cases, finishOk_eq_next]

/-- Zero extension keeps the value of a field of at most 32 bits. -/
theorem toNat_zext32 {n : Nat} (hn : n ≤ 32) (v : BitVec n) : (zext32 v).toNat = v.toNat := by
  have h := v.isLt
  have : 2 ^ n ≤ 2 ^ 32 := Nat.pow_le_pow_right (by decide) hn
  simp only [zext32, BitVec.toNat_setWidth]
  exact Nat.mod_eq_of_lt (by omega)

@[simp] theorem toNat_low16 (w : Word) : (low16 w).toNat = w.toNat % 2 ^ 16 := by simp [low16]

@[simp] theorem toNat_low8 (w : Word) : (low8 w).toNat = w.toNat % 2 ^ 8 := by simp [low8]

@[simp] theorem toNat_low4 (w : Word) : (low4 w).toNat = w.toNat % 2 ^ 4 := by simp [low4]

@[simp] theorem toNat_low12 (w : Word) : (low12 w).toNat = w.toNat % 2 ^ 12 := by simp [low12]

theorem bit0_eq (w : Word) : bit0 w = decide (w.toNat % 2 = 1) := by
  simp [bit0, BitVec.getLsbD, Nat.testBit_zero]

theorem spoofEnable_eq (w : Word) : spoofEnable w = decide (w.toNat / 256 % 2 = 1) := by
  simp [spoofEnable, BitVec.getLsbD, Nat.testBit_eq_decide_div_mod_eq]

/-- A flag of HDR is the bit of the value of byte 13. -/
theorem hdrFlag_eq (h : Header) (f : BitVec 3) : hdrFlag h f = decide (h[13].toNat / 2 ^ f.toNat % 2 = 1) := by
  simp [hdrFlag, BitVec.getLsbD, Nat.testBit_eq_decide_div_mod_eq]

@[simp] theorem toNat_hdrFlags12 (h : Header) : (hdrFlags12 h).toNat = h[12].toNat % 16 * 256 + h[13].toNat := by
  rw [hdrFlags12, toNat_append_byte, toNat_lowNibble]

/-- A bit written in a byte reads back, and the other bits are kept. -/
theorem getLsbD_putBit (b : Byte) (f g : BitVec 3) (v : Bool) :
    (putBit b f v).getLsbD g.toNat = if g = f then v else b.getLsbD g.toNat := by
  have hg : g.toNat < 8 := g.isLt
  have hm : (1#8 <<< f.toNat).getLsbD g.toNat = decide (g = f) := by revert f g; decide
  cases v
  · simp only [putBit, Bool.false_eq_true, if_false, BitVec.getLsbD_and, BitVec.getLsbD_not, hm, hg]
    by_cases h : g = f <;> simp [h]
  · simp only [putBit, if_true, BitVec.getLsbD_or, hm]
    by_cases h : g = f <;> simp [h]

end Sys2Proof.Machine
end

