-- ==== Sys2Proof/Laws/OptionList.lean ====
section
/-! SUPPORT. The option list: what the lookup and the removal find, and how the sizes follow the list. -/

namespace Sys2Proof.Machine

/-! ## Lookup and removal -/

theorem firstOpt_eq_none_iff (opts : List OptRec) (t : Byte) : firstOpt opts t = none ↔ ∀ o ∈ opts, o.tag ≠ t := by
  simp [firstOpt]

/-- The lookup answers `o` exactly when `o` has the tag and no record before it does. -/
theorem firstOpt_eq_some_iff (opts : List OptRec) (t : Byte) (o : OptRec) :
    firstOpt opts t = some o ↔ ∃ pre post, opts = pre ++ o :: post ∧ (∀ x ∈ pre, x.tag ≠ t) ∧ o.tag = t := by
  simp only [firstOpt, List.find?_eq_some_iff_append, beq_iff_eq, Bool.not_eq_true', beq_eq_false_iff_ne]
  constructor
  · rintro ⟨ht, pre, post, rfl, hp⟩
    exact ⟨pre, post, rfl, hp, ht⟩
  · rintro ⟨pre, post, rfl, hp, ht⟩
    exact ⟨ht, pre, post, rfl, hp⟩

/-- A record that is found is in the list and has the tag. -/
theorem mem_of_firstOpt {opts : List OptRec} {t : Byte} {o : OptRec} (h : firstOpt opts t = some o) :
    o ∈ opts ∧ o.tag = t := by
  obtain ⟨pre, post, rfl, -, ht⟩ := (firstOpt_eq_some_iff ..).mp h
  exact ⟨by simp, ht⟩

/-- The first match stays the first match when records are added at the end. -/
theorem firstOpt_append (opts more : List OptRec) (t : Byte) :
    firstOpt (opts ++ more) t = (firstOpt opts t).or (firstOpt more t) := by
  simp [firstOpt, List.find?_append]

/-- Removal takes out the first match and keeps everything else in order. -/
theorem removeFirst_append {pre post : List OptRec} {o : OptRec} {t : Byte} (hp : ∀ x ∈ pre, x.tag ≠ t)
    (ho : o.tag = t) : removeFirst (pre ++ o :: post) t = pre ++ post := by
  rw [removeFirst, List.eraseP_append_right _ (by simpa using hp), List.eraseP_cons_of_pos (by simpa using ho)]

theorem mem_removeFirst {opts : List OptRec} {t : Byte} {o : OptRec} (h : o ∈ removeFirst opts t) : o ∈ opts :=
  List.mem_of_mem_eraseP h

theorem length_removeFirst_le (opts : List OptRec) (t : Byte) : (removeFirst opts t).length ≤ opts.length :=
  List.length_eraseP_le

/-! ## Sizes -/

@[simp] theorem rawSize_nil : rawSize [] = 0 := rfl

@[simp] theorem rawSize_cons (o : OptRec) (os : List OptRec) : rawSize (o :: os) = optCost o + rawSize os := by
  simp [rawSize]

@[simp] theorem rawSize_append (os ps : List OptRec) : rawSize (os ++ ps) = rawSize os + rawSize ps := by
  simp [rawSize]

/-- The cost in the form of the source's size property (spec/41_option_list.md R223). -/
theorem optCost_eq (o : OptRec) :
    optCost o = if o.payload ≠ [] ∨ o.tag = Config.tagSackOk then 2 + o.payload.length else 1 := by
  simp only [optCost, List.length_pos_iff]
  split <;> omega

theorem optCost_pos (o : OptRec) : 0 < optCost o := by
  simp only [optCost]; omega

theorem roundUp4_bounds (n : Nat) : roundUp4 n % 4 = 0 ∧ n ≤ roundUp4 n ∧ roundUp4 n < n + 4 := by
  simp only [roundUp4]; omega

/-- The aligned size is the least multiple of 4 that is not below the raw size. -/
theorem alignedSize_bounds (os : List OptRec) :
    alignedSize os % 4 = 0 ∧ rawSize os ≤ alignedSize os ∧ alignedSize os < rawSize os + 4 :=
  roundUp4_bounds _

/-- A bound that is a multiple of 4 bounds the aligned size when it bounds the raw size. -/
theorem alignedSize_le {os : List OptRec} {n : Nat} (h : rawSize os ≤ n) (hn : n % 4 = 0) : alignedSize os ≤ n := by
  have := alignedSize_bounds os
  omega

/-! ## The shared operations of the list commands -/

/-- What a command that returns a record can answer. -/
theorem returnOption_cases (o : OptRec) (s t : State) :
    returnOption o s = .next t ↔
      (s.params.bufSize < natOf s.arg0 + o.payload.length ∧
          t = { s with fault := some .bufRange, faultInfo := s.cmd }) ∨
        (natOf s.arg0 + o.payload.length ≤ s.params.bufSize ∧
          t = { bufWrite s (natOf s.arg0) o.payload with
            result0 := optionWord o
            result1 := resultOfNat o.payload.length
            err := .noError }) := by
  rw [returnOption, copyOut_cases]
  simp

/-- What a typed setter can answer. -/
theorem addTyped_cases (tag : Byte) (p : List Byte) (s t : State) :
    addTyped tag p s = .next t ↔
      (s.valid = false ∧ t = { s with fault := some .noSegment, faultInfo := s.cmd }) ∨
        (s.valid = true ∧
          ((s.opts.length = s.params.optCapacity ∧ t = { s with fault := some .optCapacity, faultInfo := s.cmd }) ∨
            (s.opts.length ≠ s.params.optCapacity ∧
              t = { s with opts := s.opts ++ [⟨tag, p, BitVec.ofNat 8 p.length⟩], err := .noError }))) := by
  rw [addTyped, withSegment_cases, appendOpt_cases]

end Sys2Proof.Machine
end

