-- ==== Sys2Proof/Laws/Parser.lean ====
section
/-! SUPPORT. The option loop of PARSE: that its fuel suffices, one round of it, and that it reads exactly the encodings of
records of the parsed shape. -/

namespace Sys2Proof.Machine

/-- The shape of every record the option loop makes (spec/43_parser.md R305, R308). -/
def ParsedShape (o : OptRec) : Prop :=
  ((o.tag = Config.tagEol ∨ o.tag = Config.tagNop) ∧ o.payload = [] ∧ o.lenfield = 0#8) ∨
    (¬(o.tag = Config.tagEol ∨ o.tag = Config.tagNop) ∧ o.payload.length ≤ 253 ∧ o.lenfield.toNat = o.payload.length)

/-- At or past the header end the loop ends. -/
theorem parseOpts_end (b : List Byte) {hend c : Nat} (h : hend ≤ c) (fuel : Nat) : parseOpts b hend fuel c = some [] := by
  cases fuel <;> simp [parseOpts, Nat.not_lt.mpr h]

/-- A round on a single-byte option (R305). -/
theorem parseOpts_single {b : List Byte} {hend c : Nat} (hc : c < hend) {t : Byte} (ht : b[c]? = some t)
    (h1 : t = Config.tagEol ∨ t = Config.tagNop) (fuel : Nat) :
    parseOpts b hend (fuel + 1) c = (parseOpts b hend fuel (c + 1)).map (⟨t, [], 0#8⟩ :: ·) := by
  simp only [parseOpts, hc, if_true, ht, h1]

/-- A round on an option whose length byte cannot be read, is below 2 or passes the header end (R306, R307). -/
theorem parseOpts_bad {b : List Byte} {hend c : Nat} (hc : c < hend) {t : Byte} (ht : b[c]? = some t)
    (h1 : ¬(t = Config.tagEol ∨ t = Config.tagNop))
    (hl : b[c + 1]? = none ∨ ∃ l, b[c + 1]? = some l ∧ (l.toNat < 2 ∨ hend < c + l.toNat)) (fuel : Nat) :
    parseOpts b hend (fuel + 1) c = none := by
  rcases hl with hl | ⟨l, hl, h2⟩
  · simp only [parseOpts, hc, if_true, ht, h1, if_false, hl]
  · simp only [parseOpts, hc, if_true, ht, h1, if_false, hl]
    split_ifs <;> first | rfl | omega

/-- A round on an option with a length byte (R306 to R308). -/
theorem parseOpts_long {b : List Byte} {hend c : Nat} (hc : c < hend) {t l : Byte} (ht : b[c]? = some t)
    (h1 : ¬(t = Config.tagEol ∨ t = Config.tagNop)) (hl : b[c + 1]? = some l) (h2 : 2 ≤ l.toNat)
    (h3 : c + l.toNat ≤ hend) (fuel : Nat) :
    parseOpts b hend (fuel + 1) c =
      (parseOpts b hend fuel (c + l.toNat)).map (⟨t, slice b (c + 2) (l.toNat - 2), l - 2#8⟩ :: ·) := by
  have e : c + 2 + (l.toNat - 2) = c + l.toNat := by omega
  simp only [parseOpts, hc, if_true, ht, h1, if_false, hl, Nat.not_lt.mpr h2, e, Nat.not_lt.mpr h3]

/-- A record of the parsed shape encodes to its wire form: the tag alone, or the tag, the payload length plus 2 and the
payload (spec/30_encoding.md R121, R122). -/
theorem encOpt_of_parsedShape {o : OptRec} (h : ParsedShape o) :
    encOpt o =
      if o.tag = Config.tagEol ∨ o.tag = Config.tagNop then [o.tag]
      else o.tag :: BitVec.ofNat 8 (o.payload.length + 2) :: o.payload := by
  rcases h with ⟨h1, -, -⟩ | ⟨h1, -, hl⟩
  · simp only [encOpt, h1, if_true]
  · have e : o.lenfield + 2#8 = BitVec.ofNat 8 (o.payload.length + 2) := by
      apply BitVec.eq_of_toNat_eq
      simp [BitVec.toNat_add, hl]
    simp only [encOpt, h1, if_false, lengthByte, hl, if_true, e]

@[simp] theorem encOpts_nil : encOpts [] = [] := rfl

@[simp] theorem encOpts_cons (o : OptRec) (os : List OptRec) : encOpts (o :: os) = encOpt o ++ encOpts os := rfl

@[simp] theorem encOpts_append (os ps : List OptRec) : encOpts (os ++ ps) = encOpts os ++ encOpts ps := by
  simp [encOpts]

/-- The encoding of a record is never empty. -/
theorem encOpt_length_pos (o : OptRec) : 0 < (encOpt o).length := by
  simp only [encOpt]; split <;> simp

theorem getElem?_of_drop {b xs : List Byte} {c k : Nat} (h : b.drop c = xs) : b[c + k]? = xs[k]? := by
  rw [← h, List.getElem?_drop]

/-- The loop reads the encodings of a list of records of the parsed shape, and goes on behind them. The fuel left is any
amount that covers the rest. -/
theorem parseOpts_encOpts (b : List Byte) (hend : Nat) (os : List OptRec) (hs : ∀ o ∈ os, ParsedShape o) :
    ∀ (c fuel : Nat) (rest : List Byte), b.drop c = encOpts os ++ rest → c + (encOpts os).length ≤ hend →
      hend - c ≤ fuel →
        ∃ fuel', hend - (c + (encOpts os).length) ≤ fuel' ∧
          parseOpts b hend fuel c = (parseOpts b hend fuel' (c + (encOpts os).length)).map (os ++ ·) := by
  induction os with
  | nil =>
    intro c fuel rest _ _ hf
    exact ⟨fuel, by simpa using hf, by simp⟩
  | cons o os ih =>
    intro c fuel rest hb hc hf
    have ho := hs o (by simp)
    have hpos := encOpt_length_pos o
    simp only [encOpts_cons, List.length_append] at hc
    obtain ⟨fuel, rfl⟩ : ∃ f, fuel = f + 1 := ⟨fuel - 1, by omega⟩
    have hd : b.drop (c + (encOpt o).length) = encOpts os ++ rest := by
      rw [← List.drop_drop, hb]; simp
    obtain ⟨f', hf', h'⟩ := ih (fun x hx => hs x (by simp [hx])) (c + (encOpt o).length) fuel rest hd (by omega) (by omega)
    refine ⟨f', by simp only [encOpts_cons, List.length_append]; omega, ?_⟩
    have hlen : c + (encOpts (o :: os)).length = c + (encOpt o).length + (encOpts os).length := by
      simp only [encOpts_cons, List.length_append]; omega
    have key : parseOpts b hend (fuel + 1) c = (parseOpts b hend fuel (c + (encOpt o).length)).map (o :: ·) := by
      rw [encOpts_cons, encOpt_of_parsedShape ho] at hb
      have he := encOpt_of_parsedShape ho
      obtain ⟨t, p, l⟩ := o
      rcases ho with ⟨h1, h2, h3⟩ | ⟨h1, h2, h3⟩
      · simp only at h1 h2 h3
        simp only [h1, if_true] at hb he
        have ht : b[c]? = some t := by simpa using getElem?_of_drop (k := 0) hb
        rw [parseOpts_single (by omega) ht h1, he, h2, h3]; rfl
      · simp only at h1 h2 h3
        simp only [h1, if_false] at hb he
        have ht : b[c]? = some t := by simpa using getElem?_of_drop (k := 0) hb
        have hl : b[c + 1]? = some (BitVec.ofNat 8 (p.length + 2)) := by simpa using getElem?_of_drop (k := 1) hb
        have hn : (BitVec.ofNat 8 (p.length + 2)).toNat = p.length + 2 := by
          rw [BitVec.toNat_ofNat]; exact Nat.mod_eq_of_lt (by omega)
        have hcl : c + (encOpt ⟨t, p, l⟩).length = c + (p.length + 2) := by rw [he]; simp
        have hsl : slice b (c + 2) p.length = p := by
          rw [slice, ← List.drop_drop, hb]; simp
        have hlf : BitVec.ofNat 8 (p.length + 2) - 2#8 = l := by
          apply BitVec.eq_of_toNat_eq
          have := l.isLt
          rw [BitVec.toNat_sub, hn, h3]; simp; omega
        rw [hcl, parseOpts_long (by omega) ht h1 hl (by omega) (by omega), hn, show p.length + 2 - 2 = p.length by omega,
          hsl, hlf]
    rw [key, h', hlen]
    simp [Option.map_map, Function.comp_def]

/-- Whatever the loop accepts is the encoding of what it records, from the cursor to the header end, and every record has
the parsed shape. -/
theorem parseOpts_sound (b : List Byte) (hend : Nat) (hb : hend ≤ b.length) :
    ∀ (fuel c : Nat) (os : List OptRec), c ≤ hend → parseOpts b hend fuel c = some os →
      (∀ o ∈ os, ParsedShape o) ∧ b.drop c = encOpts os ++ b.drop hend ∧ c + (encOpts os).length = hend := by
  intro fuel
  induction fuel with
  | zero =>
    intro c os hc h
    simp only [parseOpts] at h
    split at h
    · simp at h
    · simp only [Option.some.injEq] at h; subst h
      have : c = hend := by omega
      subst this; simp
  | succ fuel ih =>
    intro c os hc h
    by_cases hlt : c < hend
    · have hcb : c < b.length := by omega
      have ht : b[c]? = some b[c] := by simp [hcb]
      have hdrop : b.drop c = b[c] :: b.drop (c + 1) := by simp
      by_cases h1 : b[c] = Config.tagEol ∨ b[c] = Config.tagNop
      · rw [parseOpts_single hlt ht h1, Option.map_eq_some_iff] at h
        obtain ⟨os', ho, rfl⟩ := h
        obtain ⟨i1, i2, i3⟩ := ih (c + 1) os' (by omega) ho
        have hp : ParsedShape ⟨b[c], [], 0#8⟩ := .inl ⟨h1, rfl, rfl⟩
        have he : encOpt ⟨b[c], [], 0#8⟩ = [b[c]] := by rw [encOpt_of_parsedShape hp]; simp only [h1, if_true]
        refine ⟨?_, ?_, ?_⟩
        · intro o ho'
          rcases List.mem_cons.mp ho' with rfl | ho'
          · exact hp
          · exact i1 o ho'
        · rw [hdrop, i2, encOpts_cons, he]; rfl
        · rw [encOpts_cons, he]; simp; omega
      · rcases hl : b[c + 1]? with _ | l
        · rw [parseOpts_bad hlt ht h1 (.inl hl)] at h; simp at h
        · by_cases hbad : l.toNat < 2 ∨ hend < c + l.toNat
          · rw [parseOpts_bad hlt ht h1 (.inr ⟨l, hl, hbad⟩)] at h; simp at h
          · rw [not_or, Nat.not_lt, Nat.not_lt] at hbad
            rw [parseOpts_long hlt ht h1 hl hbad.1 hbad.2, Option.map_eq_some_iff] at h
            obtain ⟨os', ho, rfl⟩ := h
            obtain ⟨i1, i2, i3⟩ := ih (c + l.toNat) os' hbad.2 ho
            have hlt' := l.isLt
            have hpl : (slice b (c + 2) (l.toNat - 2)).length = l.toNat - 2 := by
              simp only [slice, List.length_take, List.length_drop]; omega
            have hlf : (l - 2#8).toNat = l.toNat - 2 := by
              rw [BitVec.toNat_sub]; simp; omega
            have hp : ParsedShape ⟨b[c], slice b (c + 2) (l.toNat - 2), l - 2#8⟩ :=
              .inr ⟨h1, by simp only [hpl]; omega, by simp only [hpl, hlf]⟩
            have he : encOpt ⟨b[c], slice b (c + 2) (l.toNat - 2), l - 2#8⟩
                = b[c] :: l :: slice b (c + 2) (l.toNat - 2) := by
              rw [encOpt_of_parsedShape hp]
              simp only [h1, if_false, hpl, Nat.sub_add_cancel hbad.1, BitVec.ofNat_toNat, BitVec.setWidth_eq]
            have hcl : c + 1 < b.length := by
              by_contra hx
              rw [List.getElem?_eq_none (by omega)] at hl; simp at hl
            have hl' : b[c + 1] = l := by
              rw [List.getElem?_eq_getElem hcl] at hl; simpa using hl
            have hsplit : b.drop (c + 2) = slice b (c + 2) (l.toNat - 2) ++ b.drop (c + l.toNat) := by
              have e := List.take_append_drop (l.toNat - 2) (b.drop (c + 2))
              rw [List.drop_drop, show c + 2 + (l.toNat - 2) = c + l.toNat by omega] at e
              exact e.symm
            refine ⟨?_, ?_, ?_⟩
            · intro o ho'
              rcases List.mem_cons.mp ho' with rfl | ho'
              · exact hp
              · exact i1 o ho'
            · rw [hdrop, List.drop_eq_getElem_cons hcl, hl', hsplit, i2, encOpts_cons, he]; simp
            · rw [encOpts_cons, he]
              simp only [List.length_append, List.length_cons, hpl]; omega
    · rw [parseOpts_end b (by omega)] at h
      simp only [Option.some.injEq] at h; subst h
      have : c = hend := by omega
      subst this; simp

/-- A record of the parsed shape costs at most its wire bytes, and has at least one. -/
theorem optCost_le_of_parsedShape {o : OptRec} (h : ParsedShape o) : optCost o ≤ (encOpt o).length := by
  rw [encOpt_of_parsedShape h, optCost_eq]
  rcases h with ⟨h1, h2, -⟩ | ⟨h1, -, -⟩
  · have : o.tag ≠ Config.tagSackOk := by rcases h1 with h1 | h1 <;> rw [h1] <;> decide
    simp [h1, h2, this]
  · simp only [h1, if_false, List.length_cons]
    split <;> omega

theorem rawSize_le_of_parsedShape {os : List OptRec} (h : ∀ o ∈ os, ParsedShape o) :
    rawSize os ≤ (encOpts os).length := by
  induction os with
  | nil => simp
  | cons o os ih =>
    have h1 := optCost_le_of_parsedShape (h o (by simp))
    have h2 := ih fun x hx => h x (by simp [hx])
    simp only [rawSize_cons, encOpts_cons, List.length_append]; omega

theorem length_le_encOpts (os : List OptRec) : os.length ≤ (encOpts os).length := by
  induction os with
  | nil => simp
  | cons o os ih =>
    have := encOpt_length_pos o
    simp only [encOpts_cons, List.length_append, List.length_cons]; omega

/-- The header end is at most 60. -/
theorem headerEnd_le (b : Byte) : headerEnd b ≤ 60 := by
  have := (highNibble b).isLt
  simp only [headerEnd]; omega

/-- What a successful parse of a buffer says of the buffer and of the segment. -/
theorem parseSegment_sound {b : List Byte} {p : Parsed} (h : parseSegment b = some p) :
    20 ≤ b.length ∧ 20 ≤ headerEnd (byteAt b 12) ∧ headerEnd (byteAt b 12) ≤ b.length ∧
      p.hdr = headerOfBytes b ∧ p.inner = trailing b (headerEnd (byteAt b 12)) ∧ (∀ o ∈ p.opts, ParsedShape o) ∧
      b.drop 20 = encOpts p.opts ++ b.drop (headerEnd (byteAt b 12)) ∧
      20 + (encOpts p.opts).length = headerEnd (byteAt b 12) := by
  have hf : Config.fixedHdr = 20 := rfl
  unfold parseSegment at h
  rw [hf] at h
  by_cases h0 : b.length < 20
  · rw [if_pos h0] at h; simp at h
  by_cases h1 : headerEnd (byteAt b 12) < 20 ∨ b.length < headerEnd (byteAt b 12)
  · simp only [h0, h1, if_true, if_false] at h; simp at h
  simp only [h0, h1, if_false] at h
  rcases ho : parseOpts b (headerEnd (byteAt b 12)) (headerEnd (byteAt b 12) - 20) 20 with _ | os
  · rw [ho] at h; simp at h
  rw [ho] at h
  simp only [Option.some.injEq] at h; subst h
  obtain ⟨i1, i2, i3⟩ := parseOpts_sound b _ (by omega) _ 20 os (by omega) ho
  exact ⟨by omega, by omega, by omega, rfl, rfl, i1, i2, i3⟩

/-- The bytes of a header followed by anything give the header back. -/
theorem headerOfBytes_append (h : Header) (rest : List Byte) : headerOfBytes (h.toList ++ rest) = h := by
  apply Vector.ext
  intro j hj
  rw [getElem_headerOfBytes, byteAt, List.getD_eq_getElem?_getD, List.getElem?_append_left (by simpa using hj)]
  simp [hj]

theorem byteAt_append (h : Header) (rest : List Byte) (j : Nat) (hj : j < 20) : byteAt (h.toList ++ rest) j = h[j] := by
  rw [byteAt, List.getD_eq_getElem?_getD, List.getElem?_append_left (by simpa using hj)]
  simp [hj]

/-- The parse of a header, the encodings its data offset spans, and any trailing bytes. -/
theorem parseSegment_encOpts (h : Header) (os : List OptRec) (tail : List Byte) (hs : ∀ o ∈ os, ParsedShape o)
    (he : headerEnd h[12] = 20 + (encOpts os).length) :
    parseSegment (h.toList ++ encOpts os ++ tail)
      = some ⟨h, os, if tail = [] then none else some ⟨.raw, tail⟩⟩ := by
  have hl : (h.toList ++ encOpts os ++ tail).length = 20 + (encOpts os).length + tail.length := by
    simp only [List.length_append, Vector.length_toList]
  have h12 : byteAt (h.toList ++ encOpts os ++ tail) 12 = h[12] := by
    rw [List.append_assoc]; exact byteAt_append h _ 12 (by decide)
  have hd : (h.toList ++ encOpts os ++ tail).drop 20 = encOpts os ++ tail := by
    rw [List.append_assoc]; exact List.drop_left' (by simp)
  obtain ⟨f', -, hp⟩ := parseOpts_encOpts _ (20 + (encOpts os).length) os hs 20 (20 + (encOpts os).length - 20) tail
    hd (le_refl _) (le_refl _)
  rw [parseOpts_end _ (le_refl (20 + (encOpts os).length)) f'] at hp
  have hf : Config.fixedHdr = 20 := rfl
  have ht : (h.toList ++ encOpts os ++ tail).drop (20 + (encOpts os).length) = tail :=
    List.drop_left' (by simp only [List.length_append, Vector.length_toList])
  unfold parseSegment
  simp only [hf, h12, hl, he]
  rw [if_neg (by omega), if_neg (by omega), hp]
  simp only [Option.map_some, List.append_nil, List.append_assoc, headerOfBytes_append, trailing]
  rw [← List.append_assoc, ht, hl]
  by_cases h0 : tail = []
  · simp [h0]
  · have := List.length_pos_iff.mpr h0
    rw [if_pos (by omega), if_neg h0]

end Sys2Proof.Machine
end

