-- ==== Sys2Proof/Laws/Serializer.lean ====
section
/-! SUPPORT. The checksum arithmetic (spec/00_scope.md R23) and the shape of the bytes SERIALIZE writes. -/

namespace Sys2Proof.Machine

/-! ## WordSum and Fold -/

theorem foldRounds_small {x : Nat} (h : x < 65536) (fuel : Nat) : foldRounds fuel x = x := by
  cases fuel <;> simp [foldRounds, h]

theorem foldRounds_step {x : Nat} (h : ¬x < 65536) (fuel : Nat) :
    foldRounds (fuel + 1) x = foldRounds fuel (x % 65536 + x / 65536) := by
  simp only [foldRounds, h, if_false]

/-- With enough fuel the rounds end below 65536, keep the value modulo 65535, and end in 0 only from 0. -/
theorem foldRounds_spec (fuel : Nat) :
    ∀ x, x ≤ fuel → foldRounds fuel x < 65536 ∧ foldRounds fuel x % 65535 = x % 65535 ∧ (foldRounds fuel x = 0 ↔ x = 0) := by
  induction fuel with
  | zero =>
    intro x hx
    obtain rfl : x = 0 := Nat.le_zero.mp hx
    simp [foldRounds]
  | succ fuel ih =>
    intro x hx
    by_cases h : x < 65536
    · rw [foldRounds_small h]; exact ⟨h, rfl, Iff.rfl⟩
    · rw [foldRounds_step h]
      obtain ⟨h1, h2, h3⟩ := ih (x % 65536 + x / 65536) (by omega)
      exact ⟨h1, by rw [h2]; omega, by rw [h3]; omega⟩

/-- What `Fold` gives, in one lemma. -/
theorem fold_spec (x : Nat) : fold x < 65536 ∧ fold x % 65535 = x % 65535 ∧ (fold x = 0 ↔ x = 0) :=
  foldRounds_spec x x (le_refl x)

/-- `WordSum` of a byte string of even length followed by another. -/
theorem wordSum_append (n : Nat) :
    ∀ xs ys : List Byte, xs.length = 2 * n → wordSum (xs ++ ys) = wordSum xs + wordSum ys := by
  induction n with
  | zero => intro xs ys h; obtain rfl := List.length_eq_zero_iff.mp h; simp [wordSum]
  | succ n ih =>
    intro xs ys h
    match xs, h with
    | x :: y :: rest, h =>
      simp only [List.length_cons] at h
      simp only [List.cons_append, wordSum, ih rest ys (by omega)]; omega

/-! ## The bytes of the segment -/

/-- The padded option region has the aligned size, when the encodings fit it (spec/44_serializer.md R343). -/
theorem length_optRegion {os : List OptRec} (h : (encOpts os).length ≤ alignedSize os) :
    (optRegion os).length = alignedSize os := by
  simp only [optRegion, List.length_append, List.length_replicate]; omega

/-- The bytes written are as many as the total (spec/44_serializer.md R348). -/
theorem length_serializedBytes (ph : Option Nat) {s : State} (h : (encOpts s.opts).length ≤ alignedSize s.opts) :
    (serializedBytes ph s).length = totalSize s := by
  simp only [serializedBytes, bodyBytes, List.length_append, Vector.length_toList, length_optRegion h, totalSize, headerSize,
    Config.fixedHdr]
  omega

/-- The header the sum is taken over: the data offset recomputed, the checksum field 0, every other byte of HDR kept. -/
theorem getElem_clearedHeader (s : State) (j : Nat) (hj : j < 20) :
    (clearedHeader s)[j] =
      if j = 16 ∨ j = 17 then 0#8
      else if j = 12 then nibbles (BitVec.ofNat 4 (headerSize s.opts / 4)) (lowNibble s.hdr[12]) else s.hdr[j] := by
  rw [clearedHeader, getElem_hdrPut16, getElem_hdrPutDoff]
  have e1 : (0#16).extractLsb' 8 8 = 0#8 := by decide
  have e2 : (0#16).extractLsb' 0 8 = 0#8 := by decide
  rw [e1, e2]
  split_ifs <;> first | rfl | omega

/-- The header written: the cleared header with the checksum filled in. -/
theorem getElem_serializedHeader (ph : Option Nat) (s : State) (j : Nat) (hj : j < 20) :
    (serializedHeader ph s)[j] =
      if j = 16 then (segmentChecksum ph s).extractLsb' 8 8
      else if j = 17 then (segmentChecksum ph s).extractLsb' 0 8
      else if j = 12 then nibbles (BitVec.ofNat 4 (headerSize s.opts / 4)) (lowNibble s.hdr[12]) else s.hdr[j] := by
  rw [serializedHeader, getElem_hdrPut16, getElem_clearedHeader]
  split_ifs <;> first | rfl | omega

/-- The data offset nibble of the header written spans the header and the option region (spec/44_serializer.md R344). -/
theorem headerEnd_serializedHeader (ph : Option Nat) {s : State} (h : alignedSize s.opts ≤ 40) :
    headerEnd (serializedHeader ph s)[12] = headerSize s.opts := by
  have hb := alignedSize_bounds s.opts
  rw [getElem_serializedHeader]
  simp only [headerEnd, Nat.reduceEqDiff, if_false, if_true, highNibble_nibbles, BitVec.toNat_ofNat, headerSize,
    Config.fixedHdr]
  omega

/-- What SERIALIZE can answer behind its segment check (spec/44_serializer.md R340, R350). -/
theorem execSerialize_cases (s t : State) :
    execSerialize s = .next t ↔
      (s.valid = false ∧ t = { s with fault := some .noSegment, faultInfo := s.cmd }) ∨
        (s.valid = true ∧
          ((s.params.bufSize < natOf s.arg0 + natOf s.arg1 ∧
              t = { s with fault := some .bufRange, faultInfo := s.cmd }) ∨
            (natOf s.arg0 + natOf s.arg1 ≤ s.params.bufSize ∧
              ((40 < alignedSize s.opts ∧ t = { s with fault := some .optionsOverflow, faultInfo := s.cmd }) ∨
                (alignedSize s.opts ≤ 40 ∧ alignedSize s.opts < (encOpts s.opts).length ∧
                  t = { s with fault := some .optionRegionOverrun, faultInfo := s.cmd }) ∨
                (alignedSize s.opts ≤ 40 ∧ (encOpts s.opts).length ≤ alignedSize s.opts ∧ natOf s.arg1 < totalSize s ∧
                  t = { s with fault := some .outbufTooSmall, faultInfo := s.cmd }) ∨
                (alignedSize s.opts ≤ 40 ∧ (encOpts s.opts).length ≤ alignedSize s.opts ∧ totalSize s ≤ natOf s.arg1 ∧
                  serializeWith (parentSum s (totalSize s)) s = .next t))))) := by
  rw [execSerialize, withSegment_cases, withRoom_cases]
  simp only [Config.optMaxBytes]
  by_cases h1 : 40 < alignedSize s.opts
  · simp only [h1, if_true, raiseFault_eq_next, Nat.not_le.mpr h1, false_and, or_false, true_and]
  · by_cases h2 : alignedSize s.opts < (encOpts s.opts).length
    · simp only [h1, h2, if_true, if_false, raiseFault_eq_next, Nat.not_lt.mp h1, Nat.not_le.mpr h2, false_and, or_false,
        false_or, true_and]
    · by_cases h3 : natOf s.arg1 < totalSize s
      · simp only [h1, h2, h3, if_true, if_false, raiseFault_eq_next, Nat.not_lt.mp h1, Nat.not_lt.mp h2,
          Nat.not_le.mpr h3, false_and, or_false, false_or, true_and]
      · simp only [h1, h2, h3, if_false, Nat.not_lt.mp h1, Nat.not_lt.mp h2, Nat.not_lt.mp h3, false_and, false_or,
          true_and]

/-- The state after a SERIALIZE that passed its checks. -/
theorem serializeWith_eq_next (ph : Option Nat) (s t : State) :
    serializeWith ph s = .next t ↔
      t = { bufWrite s (natOf s.arg0) (serializedBytes ph s) with
        hdr := serializedHeader ph s
        result0 := resultOfNat (totalSize s)
        result1 := zext32 (segmentChecksum ph s)
        err := .noError } := by
  simp [serializeWith]

end Sys2Proof.Machine
end

