-- ==== Sys2Proof/Laws/Exec.lean ====
section
/-! SUPPORT. What any command can do: fault, report an error, or end `ok` with writes to the segment, BUF, the results and
STATUS alone (spec/00_scope.md R22). -/

namespace Sys2Proof.Machine

/-- What an `ok` end can do to the option list (spec/41_option_list.md R225, R226; spec/43_parser.md R311): nothing, empty
it, remove a first match, append one record of at most 255 payload bytes while there is room, or replace it by a parsed list. -/
inductive OptsEffect (s : State) : List OptRec → Prop
  | same : OptsEffect s s.opts
  | empty : OptsEffect s []
  | remove (t : Byte) : OptsEffect s (removeFirst s.opts t)
  | append (o : OptRec) : o.payload.length ≤ 255 → s.opts.length ≠ s.params.optCapacity → OptsEffect s (s.opts ++ [o])
  | parsed (os : List OptRec) : os.length ≤ 40 → (∀ o ∈ os, ParsedShape o) → OptsEffect s os

/-- What an `ok` end can do to the inner layer: nothing, remove it, or replace it by bytes no longer than BUF. -/
inductive InnerEffect (s : State) : Option Inner → Prop
  | same : InnerEffect s s.inner
  | detach : InnerEffect s none
  | attach (i : Inner) : i.bytes.length ≤ s.params.bufSize → InnerEffect s (some i)

/-- What an `ok` end can do to BUF: nothing, or store bytes from ARG0 on inside BUF (spec/20_memory.md R86). -/
inductive MemEffect (s : State) : Memory → Prop
  | same : MemEffect s s.mem
  | store (bs : List Byte) : natOf s.arg0 + bs.length ≤ s.params.bufSize → MemEffect s (memWrite s.mem (natOf s.arg0) bs)

/-- A command ends in fault entry, in an error, or `ok`; in the last case only the fields named can differ, and only so. -/
def CommandEnds (s t : State) : Prop :=
  (∃ c, t = { s with fault := some c, faultInfo := s.cmd }) ∨
    (∃ e, e ≠ .noError ∧ t = { s with err := e }) ∨
    ∃ (v : Bool) (h : Header) (os : List OptRec) (i : Option Inner) (m : Memory) (r0 r1 : Word),
      t = { s with
          valid := v, hdr := h, opts := os, inner := i, mem := m, result0 := r0, result1 := r1, err := .noError } ∧
        (s.valid = true → v = true) ∧ OptsEffect s os ∧ InnerEffect s i ∧ MemEffect s m

theorem commandEnds_fault (c : FaultCause) (s : State) : CommandEnds s { s with fault := some c, faultInfo := s.cmd } :=
  .inl ⟨c, rfl⟩

theorem commandEnds_error {e : ErrCode} (h : e ≠ .noError) (s : State) : CommandEnds s { s with err := e } :=
  .inr (.inl ⟨e, h, rfl⟩)

theorem commandEnds_ok {s : State} {v : Bool} {os : List OptRec} {i : Option Inner} {m : Memory} (h : Header)
    (r0 r1 : Word) (hv : s.valid = true → v = true) (ho : OptsEffect s os) (hi : InnerEffect s i) (hm : MemEffect s m) :
    CommandEnds s { s with
      valid := v, hdr := h, opts := os, inner := i, mem := m, result0 := r0, result1 := r1, err := .noError } :=
  .inr (.inr ⟨v, h, os, i, m, r0, r1, rfl, hv, ho, hi, hm⟩)

/-- The end of a command that writes only HDR and the results. -/
theorem commandEnds_regs (s : State) (h : Header) (r0 r1 : Word) :
    CommandEnds s { s with hdr := h, result0 := r0, result1 := r1, err := .noError } :=
  commandEnds_ok h r0 r1 id .same .same .same

/-- The end of a command that changes the option list. -/
theorem commandEnds_opts {s : State} {os : List OptRec} (ho : OptsEffect s os) (r0 : Word) :
    CommandEnds s { s with opts := os, result0 := r0, err := .noError } :=
  commandEnds_ok s.hdr r0 s.result1 id ho .same .same

/-- The end of a command that stores bytes in BUF. -/
theorem commandEnds_store {s : State} {bs : List Byte} (hb : natOf s.arg0 + bs.length ≤ s.params.bufSize) (h : Header)
    (r0 r1 : Word) :
    CommandEnds s { bufWrite s (natOf s.arg0) bs with hdr := h, result0 := r0, result1 := r1, err := .noError } :=
  commandEnds_ok h r0 r1 id .same .same (.store bs hb)

theorem ends_withBytes {s t : State} {a n : Nat} {k : List Byte → Result} (h : withBytes s a n k = .next t)
    (hk : ∀ bs, bs.length ≤ s.params.bufSize → bs.length = n → k bs = .next t → CommandEnds s t) : CommandEnds s t := by
  rcases withBytes_cases s a n k with ⟨-, e⟩ | ⟨-, -, e⟩ | ⟨bs, hb, hl, e⟩
  · rw [e, raiseFault_eq_next] at h; subst h; exact commandEnds_fault _ _
  · rw [e, raiseFault_eq_next] at h; subst h; exact commandEnds_fault _ _
  · rw [e] at h
    have := ((bufRead_eq_ok_iff ..).mp hb).1
    exact hk bs (by omega) hl h

theorem ends_readField {n : Nat} {v : BitVec n} {s t : State} (h : readField v s = .next t) : CommandEnds s t := by
  rcases (readField_cases ..).mp h with ⟨-, rfl⟩ | ⟨-, rfl⟩
  · exact commandEnds_fault _ _
  · exact commandEnds_regs s _ _ _

theorem ends_writeHeader {v : Header} {s t : State} (h : writeHeader v s = .next t) : CommandEnds s t := by
  rcases (writeHeader_cases ..).mp h with ⟨-, rfl⟩ | ⟨-, rfl⟩
  · exact commandEnds_fault _ _
  · exact commandEnds_regs s _ _ _

theorem ends_addTyped {v : Byte} {p : List Byte} (hp : p.length ≤ 255) {s t : State} (h : addTyped v p s = .next t) :
    CommandEnds s t := by
  rcases (addTyped_cases ..).mp h with ⟨-, rfl⟩ | ⟨-, ⟨-, rfl⟩ | ⟨hc, rfl⟩⟩
  · exact commandEnds_fault _ _
  · exact commandEnds_fault _ _
  · exact commandEnds_opts (.append ⟨v, p, _⟩ hp hc) s.result0

theorem ends_returnOption {o : OptRec} {s t : State} (h : returnOption o s = .next t) : CommandEnds s t := by
  rcases (returnOption_cases ..).mp h with ⟨-, rfl⟩ | ⟨hb, rfl⟩
  · exact commandEnds_fault _ _
  · exact commandEnds_store hb s.hdr _ _

theorem ends_appendOpt {o : OptRec} (hp : o.payload.length ≤ 255) {s t : State} (h : appendOpt o s = .next t) :
    CommandEnds s t := by
  rcases (appendOpt_cases ..).mp h with ⟨-, rfl⟩ | ⟨hc, rfl⟩
  · exact commandEnds_fault _ _
  · exact commandEnds_opts (.append o hp hc) s.result0

theorem ends_withSegment {s t : State} {k : Result} (h : withSegment s k = .next t)
    (hk : k = .next t → CommandEnds s t) : CommandEnds s t := by
  rcases (withSegment_cases ..).mp h with ⟨-, rfl⟩ | ⟨-, h⟩
  · exact commandEnds_fault _ _
  · exact hk h

theorem ends_finishWith {v : Word} {s t : State} (h : finishWith v s = .next t) : CommandEnds s t := by
  rw [finishWith_eq_next] at h; subst h; exact commandEnds_regs s _ _ _

theorem ends_finishWith2 {v w : Word} {s t : State} (h : finishWith2 v w s = .next t) : CommandEnds s t := by
  rw [finishWith2_eq_next] at h; subst h; exact commandEnds_regs s _ _ _

theorem ends_readTyped {tag : Byte} {good : Nat → Bool} {absent : Result}
    {k : List Byte → Result} {s t : State} (h : readTyped tag good absent k s = .next t)
    (ha : absent = .next t → CommandEnds s t) (hk : ∀ p, k p = .next t → CommandEnds s t) : CommandEnds s t := by
  rcases (readTyped_cases ..).mp h with ⟨-, rfl⟩ | ⟨-, ⟨-, h⟩ | ⟨o, -, ⟨-, rfl⟩ | ⟨-, h⟩⟩⟩
  · exact commandEnds_fault _ _
  · exact ha h
  · exact commandEnds_fault _ _
  · exact hk _ h

theorem ends_copyOut {a : Nat} {bs : List Byte} {k : State → Result} {s t : State} (h : copyOut a bs k s = .next t)
    (hk : a + bs.length ≤ s.params.bufSize → k (bufWrite s a bs) = .next t → CommandEnds s t) : CommandEnds s t := by
  rcases (copyOut_cases ..).mp h with ⟨-, rfl⟩ | ⟨hb, h⟩
  · exact commandEnds_fault _ _
  · exact hk hb h

/-- A parsed list has at most 40 records (spec/43_parser.md R311). -/
theorem length_parsed_le {b : List Byte} {p : Parsed} (h : parseSegment b = some p) : p.opts.length ≤ 40 := by
  obtain ⟨-, -, -, -, -, -, -, he⟩ := parseSegment_sound h
  have h1 := length_le_encOpts p.opts
  have h2 := headerEnd_le (byteAt b 12)
  omega

/-- The inner layer of a parsed segment is no longer than the buffer. -/
theorem inner_parsed {s : State} {b : List Byte} (hb : b.length ≤ s.params.bufSize) {p : Parsed}
    (h : parseSegment b = some p) : InnerEffect s p.inner := by
  obtain ⟨-, -, -, -, hi, -, -, -⟩ := parseSegment_sound h
  rw [hi, trailing]
  split
  · exact .attach _ (by simp only [List.length_drop]; omega)
  · exact .detach

/-- What any command can do. -/
theorem exec_ends {i : Instr} {s t : State} (h : exec i s = .next t) : CommandEnds s t := by
  cases i with
  | init =>
    unfold exec execInit at h
    rw [finishOk_eq_next] at h; subst h
    exact commandEnds_ok _ s.result0 s.result1 (fun _ => rfl) .empty .detach .same
  | parse =>
    refine ends_withBytes h fun bs hb _ h => ?_
    split at h
    · rw [raiseError_eq_next] at h; subst h; exact commandEnds_error (by decide) s
    · next p hp =>
      rw [finishOk_eq_next] at h; subst h
      obtain ⟨-, -, -, -, -, ho, -, -⟩ := parseSegment_sound hp
      exact commandEnds_ok _ s.result0 s.result1 (fun _ => rfl) (.parsed p.opts (length_parsed_le hp) ho)
        (inner_parsed hb hp) .same
  | serialize =>
    rcases (execSerialize_cases s t).mp h with
      ⟨-, rfl⟩ | ⟨-, ⟨-, rfl⟩ | ⟨hr, ⟨-, rfl⟩ | ⟨-, -, rfl⟩ | ⟨-, -, -, rfl⟩ | ⟨-, he, ht, h⟩⟩⟩
    iterate 5 exact commandEnds_fault _ _
    rw [serializeWith_eq_next] at h; subst h
    exact commandEnds_store (by rw [length_serializedBytes _ he]; omega) _ _ _
  | hdrSize | optCount | hasSackOk => exact ends_withSegment h ends_finishWith
  | optSizes => exact ends_withSegment h ends_finishWith2
  | getSport | getDport | getSeq | getAck | getDoff | getWindow | getChecksum | getUrgptr | getFlag _ | getFlags =>
    exact ends_readField h
  | setSport | setDport | setSeq | setAck | setDoff | setWindow | setChecksum | setUrgptr | setFlag _ | setFlags =>
    exact ends_writeHeader h
  | addOption tag =>
    refine ends_withSegment h fun h => ?_
    split at h
    · rw [raiseFault_eq_next] at h; subst h; exact commandEnds_fault _ _
    · exact ends_withBytes h fun bs _ hl h => ends_appendOpt (by show bs.length ≤ 255; omega) h
  | removeOption tag =>
    refine ends_withSegment h fun h => ?_
    split at h
    · exact ends_finishWith h
    · rw [finishWith_eq_next] at h; subst h; exact commandEnds_opts (.remove tag) _
  | getOption tag =>
    refine ends_withSegment h fun h => ?_
    split at h
    · exact ends_finishWith2 h
    · exact ends_returnOption h
  | getOptionAt =>
    refine ends_withSegment h fun h => ?_
    split at h
    · exact ends_finishWith2 h
    · exact ends_returnOption h
  | setMss | setWscale | setSackOk | setTimestamp | setAltchk => exact ends_addTyped (by simp [toBE16, toBE32]) h
  | setSack =>
    refine ends_withSegment h fun h => ?_
    split at h
    · rw [raiseFault_eq_next] at h; subst h; exact commandEnds_fault _ _
    · exact ends_withBytes h fun bs _ hl h => ends_appendOpt (by show bs.length ≤ 255; omega) h
  | getMss => unfold exec execGetMss at h; exact ends_readTyped h ends_finishWith fun p => ends_finishWith
  | getWscale => unfold exec execGetWscale at h; exact ends_readTyped h ends_finishWith fun p => ends_finishWith
  | getAltchk => unfold exec execGetAltchk at h; exact ends_readTyped h ends_finishWith fun p => ends_finishWith
  | getSack =>
    unfold exec execGetSack at h
    refine ends_readTyped h (fun h => ?_) fun p h => ends_copyOut h fun hb h => ?_
    · rw [raiseError_eq_next] at h; subst h; exact commandEnds_error (by decide) s
    · rw [finishWith_eq_next] at h; subst h; exact commandEnds_store hb s.hdr _ s.result1
  | getTimestamp =>
    unfold exec execGetTimestamp at h
    refine ends_readTyped h (fun h => ?_) fun p => ends_finishWith2
    rw [raiseError_eq_next] at h; subst h; exact commandEnds_error (by decide) s
  | attachInner =>
    refine ends_withSegment h fun h => ends_withBytes h fun bs hb _ h => ?_
    rw [finishOk_eq_next] at h; subst h
    exact commandEnds_ok s.hdr s.result0 s.result1 id .same (.attach ⟨.host, bs⟩ hb) .same
  | detachInner =>
    refine ends_withSegment h fun h => ?_
    rw [finishOk_eq_next] at h; subst h
    exact commandEnds_ok s.hdr s.result0 s.result1 id .same .detach .same
  | innerRead =>
    refine ends_withSegment h fun h => ?_
    split at h
    · exact ends_finishWith2 h
    · refine ends_copyOut h fun hb h => ?_
      rw [finishWith2_eq_next] at h; subst h; exact commandEnds_store hb s.hdr _ _
  | matchResponse => exact ends_withSegment h fun h => ends_withBytes h fun bs _ _ h => ends_finishWith h

end Sys2Proof.Machine
end

