-- ==== Sys2Proof/Laws/HostPort.lean ====
section
/-! SUPPORT. What the host port and one step can do. -/

namespace Sys2Proof.Machine

/-- The accesses the register window answers (spec/20_memory.md R82). -/
theorem registerAccess_iff (width : Width) (addr : Word) :
    registerAccess width addr = true ↔ addr.toNat < 0x1000 ∧ width = .w32 ∧ addr.toNat % 4 = 0 := by
  unfold registerAccess
  rw [Bool.and_eq_true, Bool.and_eq_true, decide_eq_true_iff, beq_iff_eq, beq_iff_eq, and_assoc]
  rfl

/-- The accesses the buffer window answers (spec/20_memory.md R83). -/
theorem bufferAccess_iff (s : State) (width : Width) (addr : Word) :
    bufferAccess s width addr = true ↔
      0x1000 ≤ addr.toNat ∧ addr.toNat < 0x1000 + s.params.bufSize ∧ width = .w8 := by
  unfold bufferAccess
  rw [Bool.and_eq_true, Bool.and_eq_true, decide_eq_true_iff, decide_eq_true_iff, beq_iff_eq, and_assoc]
  rfl

/-- The two windows do not overlap. -/
theorem registerAccess_of_bufferAccess {s : State} {width : Width} {addr : Word}
    (h : bufferAccess s width addr = true) : registerAccess width addr = false := by
  rw [bufferAccess_iff] at h
  rw [← Bool.not_eq_true, registerAccess_iff]; omega

/-! ## One step -/

theorem step_idle {s : State} (h : s.pending = []) : step s = .next s := by simp [step, nextAccess, h]

theorem step_cons {s : State} {e : HostEvent} {es : List HostEvent} (h : s.pending = e :: es) :
    step s = perform e { s with pending := es } := by
  simp [step, nextAccess, h]

/-! ## Register accesses -/

theorem writeCmd_faulted {s : State} (h : s.fault ≠ none) (w : Word) : writeCmd w s = .next s := by
  simp [writeCmd, Option.isSome_iff_ne_none, h]

theorem writeCmd_ok {s : State} (h : s.fault = none) {w : Word} {i : Instr} (hd : decode w = .ok i) :
    writeCmd w s = exec i { s with cmd := w } := by
  simp [writeCmd, h, hd]

theorem writeCmd_illegal {s : State} (h : s.fault = none) {w : Word} (hd : ∀ i, decode w ≠ .ok i) :
    writeCmd w s = .next { s with cmd := w, fault := some .illegalCommand, faultInfo := w } := by
  rcases he : decode w with e | i
  · simp [writeCmd, h, he, raiseFault]
  · exact absurd he (hd i)

theorem hostWrite_register {width : Width} {addr : Word} (h : registerAccess width addr = true) (v : Word) (s : State) :
    hostWrite width addr v s = writeRegister addr.toNat v s := by
  simp [hostWrite, h]

theorem hostWrite_buffer {s : State} {width : Width} {addr : Word} (h : bufferAccess s width addr = true) (v : Word) :
    hostWrite width addr v s = .next (bufWrite s (addr.toNat - 0x1000) [low8 v]) := by
  simp [hostWrite, h, registerAccess_of_bufferAccess h, bufBase]

theorem hostWrite_ignored {s : State} {width : Width} {addr : Word} (h1 : registerAccess width addr = false)
    (h2 : bufferAccess s width addr = false) (v : Word) : hostWrite width addr v s = .next s := by
  simp [hostWrite, h1, h2]

theorem hostRead_register {width : Width} {addr : Word} (h : registerAccess width addr = true) (s : State) :
    hostRead width addr s = .next (reply (readRegister addr.toNat s) s) := by
  simp [hostRead, h]

theorem hostRead_buffer {s : State} {width : Width} {addr : Word} (h : bufferAccess s width addr = true) :
    hostRead width addr s = .next (readBuffer (addr.toNat - 0x1000) s) := by
  simp [hostRead, h, registerAccess_of_bufferAccess h, bufBase]

theorem hostRead_ignored {s : State} {width : Width} {addr : Word} (h1 : registerAccess width addr = false)
    (h2 : bufferAccess s width addr = false) : hostRead width addr s = .next (reply 0#32 s) := by
  simp [hostRead, h1, h2]

/-- A write to a register other than CMD changes at most one argument or parent register (spec/20_memory.md R81). -/
theorem writeRegister_cases (addr : Nat) (v : Word) (s : State) :
    (addr = 0x000 ∧ writeRegister addr v s = writeCmd v s) ∨
      ∃ (a0 a1 a2 pk s0 s1 s2 s3 d0 d1 d2 d3 : Word),
        writeRegister addr v s = .next { s with
          arg0 := a0, arg1 := a1, arg2 := a2, parentKind := pk, psrc0 := s0, psrc1 := s1, psrc2 := s2, psrc3 := s3
          pdst0 := d0, pdst1 := d1, pdst2 := d2, pdst3 := d3 } := by
  unfold writeRegister
  split
  · exact .inl ⟨rfl, rfl⟩
  all_goals exact .inr ⟨_, _, _, _, _, _, _, _, _, _, _, _, rfl⟩

/-- What a host read does to the state: a reply, and a fresh byte drawn where the byte was unwritten. -/
theorem hostRead_cases (width : Width) (addr : Word) (s : State) :
    ∃ (v : Word) (d : Nat), hostRead width addr s = .next { s with replies := s.replies ++ [v], draws := d } := by
  unfold hostRead
  split
  · exact ⟨_, s.draws, rfl⟩
  · split
    · unfold readBuffer
      split
      · exact ⟨_, s.draws, rfl⟩
      · exact ⟨_, _, rfl⟩
    · exact ⟨_, s.draws, rfl⟩

/-- What a step that is no reset can do: run a command, fault on an illegal word, store one byte of BUF, or change only host
registers and the host's own record. -/
theorem step_cases {s t : State} {e : HostEvent} {es : List HostEvent} (hp : s.pending = e :: es) (he : e ≠ .reset)
    (h : step s = .next t) :
    (∃ i w, s.fault = none ∧ exec i { s with pending := es, cmd := w } = .next t) ∨
    (∃ w, s.fault = none ∧ t = { s with pending := es, cmd := w, fault := some .illegalCommand, faultInfo := w }) ∨
    (∃ a b, e = .write .w8 a b ∧ bufferAccess s .w8 a = true ∧
      t = bufWrite { s with pending := es } (a.toNat - 0x1000) [low8 b]) ∨
    ∃ (a0 a1 a2 pk s0 s1 s2 s3 d0 d1 d2 d3 : Word) (d : Nat) (r : List Word),
        t = { s with
          pending := es, arg0 := a0, arg1 := a1, arg2 := a2, parentKind := pk, psrc0 := s0, psrc1 := s1, psrc2 := s2, psrc3 := s3
          pdst0 := d0, pdst1 := d1, pdst2 := d2, pdst3 := d3, draws := d, replies := r } := by
  rw [step_cons hp] at h
  cases e with
  | reset => simp at he
  | read width addr =>
    obtain ⟨v, d, e⟩ := hostRead_cases width addr { s with pending := es }
    rw [perform, e] at h
    cases h; right; right; right
    exact ⟨_, _, _, _, _, _, _, _, _, _, _, _, _, _, rfl⟩
  | write width addr v =>
    simp only [perform] at h
    by_cases hr : registerAccess width addr = true
    · rw [hostWrite_register hr] at h
      rcases writeRegister_cases addr.toNat v { s with pending := es } with ⟨-, e⟩ | ⟨_, _, _, _, _, _, _, _, _, _, _, _, e⟩
      · rw [e] at h
        by_cases hf : s.fault = none
        · by_cases hd : ∃ i, decode v = .ok i
          · obtain ⟨i, hd⟩ := hd
            rw [writeCmd_ok (by exact hf) hd] at h
            exact .inl ⟨_, _, hf, h⟩
          · rw [writeCmd_illegal (by exact hf) (fun i hi => hd ⟨i, hi⟩)] at h
            cases h
            exact .inr (.inl ⟨_, hf, rfl⟩)
        · rw [writeCmd_faulted (by exact hf)] at h
          cases h; right; right; right
          exact ⟨_, _, _, _, _, _, _, _, _, _, _, _, _, _, rfl⟩
      · rw [e] at h
        cases h; right; right; right
        exact ⟨_, _, _, _, _, _, _, _, _, _, _, _, _, _, rfl⟩
    · by_cases hb : bufferAccess s width addr = true
      · have hb' : bufferAccess { s with pending := es } width addr = true := hb
        rw [hostWrite_buffer hb'] at h
        cases h
        obtain ⟨-, -, rfl⟩ := (bufferAccess_iff ..).mp hb
        exact .inr (.inr (.inl ⟨_, _, rfl, hb, rfl⟩))
      · have hb' : bufferAccess { s with pending := es } width addr = false := (Bool.not_eq_true _).mp hb
        rw [hostWrite_ignored (by simpa using hr) hb'] at h
        cases h; right; right; right
        exact ⟨_, _, _, _, _, _, _, _, _, _, _, _, _, _, rfl⟩

end Sys2Proof.Machine
end

