-- ==== Sys2Proof/Laws/Invariant.lean ====
section
/-! SUPPORT. The invariant of the state in parts, and what each effect of a command does to it. -/

namespace Sys2Proof.Machine

/-- The invariant, part by part. -/
theorem inv_iff (s : State) :
    s.Inv = true ↔
      s.params.wf = true ∧ s.mem.wf = true ∧ s.mem.inside s.params.bufSize = true ∧
        s.opts.length ≤ s.params.optCapacity ∧ (∀ o ∈ s.opts, o.payload.length ≤ 255) ∧
        innerFits s.params.bufSize s.inner = true := by
  simp only [State.Inv, Bool.and_eq_true, decide_eq_true_eq, List.all_eq_true, OptRec.wf, and_assoc]

/-- The bounds of the parameters (spec/00_scope.md R16). -/
theorem params_wf_iff (p : Params) :
    p.wf = true ↔ 1 ≤ p.bufSize ∧ p.bufSize ≤ 2 ^ 32 - 4096 ∧ 40 ≤ p.optCapacity := by
  simp only [Params.wf, Bool.and_eq_true, decide_eq_true_eq, and_assoc]

/-- A record of the parsed shape has at most 255 payload bytes. -/
theorem payload_le_of_parsedShape {o : OptRec} (h : ParsedShape o) : o.payload.length ≤ 255 := by
  rcases h with ⟨-, h, -⟩ | ⟨-, h, -⟩
  · simp [h]
  · omega

/-- The effects on the option list keep the store within its capacity. -/
theorem OptsEffect_length {s : State} {os : List OptRec} (h : OptsEffect s os) (hc : 40 ≤ s.params.optCapacity)
    (hs : s.opts.length ≤ s.params.optCapacity) : os.length ≤ s.params.optCapacity := by
  cases h with
  | same => exact hs
  | empty => simp
  | remove t => exact le_trans (length_removeFirst_le _ _) hs
  | append o ho hn => simp only [List.length_append, List.length_singleton]; omega
  | parsed os hl hp => omega

/-- The effects on the option list keep every payload within 255 bytes. -/
theorem OptsEffect_payload {s : State} {os : List OptRec} (h : OptsEffect s os)
    (hs : ∀ o ∈ s.opts, o.payload.length ≤ 255) : ∀ o ∈ os, o.payload.length ≤ 255 := by
  cases h with
  | same => exact hs
  | empty => simp
  | remove t => exact fun o ho => hs o (mem_removeFirst ho)
  | append o ho hn =>
    intro x hx
    rcases List.mem_append.mp hx with hx | hx
    · exact hs x hx
    · rw [List.mem_singleton.mp hx]; exact ho
  | parsed os hl hp => exact fun o ho => payload_le_of_parsedShape (hp o ho)

/-- The effects on the inner layer keep its length bound. -/
theorem InnerEffect_fits {s : State} {i : Option Inner} (h : InnerEffect s i)
    (hs : innerFits s.params.bufSize s.inner = true) : innerFits s.params.bufSize i = true := by
  cases h with
  | same => exact hs
  | detach => rfl
  | attach i hi => simpa [innerFits] using hi

/-- The effects on BUF keep the canonical form and the bound. -/
theorem MemEffect_wf {s : State} {m : Memory} (h : MemEffect s m) (hw : s.mem.wf = true)
    (hs : s.mem.inside s.params.bufSize = true) : m.wf = true ∧ m.inside s.params.bufSize = true := by
  cases h with
  | same => exact ⟨hw, hs⟩
  | store bs hb => exact ⟨memWrite_wf bs hw _, memWrite_inside bs hs hb⟩

/-- Every end of a command keeps the invariant. -/
theorem inv_of_ends {s t : State} (h : CommandEnds s t) (hs : s.Inv = true) : t.Inv = true := by
  obtain ⟨h1, h2, h3, h4, h5, h6⟩ := (inv_iff s).mp hs
  rcases h with ⟨c, rfl⟩ | ⟨c, -, rfl⟩ | ⟨v, hd, os, i, m, r0, r1, rfl, -, ho, hi, hm⟩
  · exact hs
  · exact hs
  · have h7 := MemEffect_wf hm h2 h3
    have h8 := OptsEffect_length ho ((params_wf_iff _).mp h1).2.2 h4
    have h9 := OptsEffect_payload ho h5
    have h10 := InnerEffect_fits hi h6
    exact (inv_iff _).mpr ⟨h1, h7.1, h7.2, h8, h9, h10⟩

end Sys2Proof.Machine
end

