-- ==== Sys2Proof/Laws/PerInstr.lean ====
section
/-! SUPPORT. The per-instruction family WordLegal: the word of every instruction passes the legality check of
spec/30_encoding.md R116, which does not go through the decoder. -/

namespace Sys2Proof.Laws.WordLegal

/-- The instruction's command word is legal. -/
def Statement (i : Instr) : Prop := wordWellFormed (encode i) = true

/-- The fields of a built command word, as the legality check reads them. -/
theorem wordWellFormed_commandWord (opc sub : Byte) :
    wordWellFormed (commandWord opc sub) =
      match opClass opc.toNat with
      | none => false
      | some c => subInClass c sub.toNat := by
  have hs := sub.isLt
  have ho := opc.isLt
  have e1 : (sub.toNat * 256 + opc.toNat) % 256 = opc.toNat := by omega
  have e2 : (sub.toNat * 256 + opc.toNat) / 65536 = 0 := by omega
  have e3 : (sub.toNat * 256 + opc.toNat) / 256 % 256 = sub.toNat := by omega
  simp only [wordWellFormed, toNat_commandWord, e1, e2, e3]
  cases opClass opc.toNat <;> simp

theorem init : Statement .init := (by decide : wordWellFormed _ = true)
theorem parse : Statement .parse := (by decide : wordWellFormed _ = true)
theorem serialize : Statement .serialize := (by decide : wordWellFormed _ = true)
theorem hdrSize : Statement .hdrSize := (by decide : wordWellFormed _ = true)
theorem optSizes : Statement .optSizes := (by decide : wordWellFormed _ = true)
theorem getSport : Statement .getSport := (by decide : wordWellFormed _ = true)
theorem getDport : Statement .getDport := (by decide : wordWellFormed _ = true)
theorem getSeq : Statement .getSeq := (by decide : wordWellFormed _ = true)
theorem getAck : Statement .getAck := (by decide : wordWellFormed _ = true)
theorem getDoff : Statement .getDoff := (by decide : wordWellFormed _ = true)
theorem getWindow : Statement .getWindow := (by decide : wordWellFormed _ = true)
theorem getChecksum : Statement .getChecksum := (by decide : wordWellFormed _ = true)
theorem getUrgptr : Statement .getUrgptr := (by decide : wordWellFormed _ = true)
theorem setSport : Statement .setSport := (by decide : wordWellFormed _ = true)
theorem setDport : Statement .setDport := (by decide : wordWellFormed _ = true)
theorem setSeq : Statement .setSeq := (by decide : wordWellFormed _ = true)
theorem setAck : Statement .setAck := (by decide : wordWellFormed _ = true)
theorem setDoff : Statement .setDoff := (by decide : wordWellFormed _ = true)
theorem setWindow : Statement .setWindow := (by decide : wordWellFormed _ = true)
theorem setChecksum : Statement .setChecksum := (by decide : wordWellFormed _ = true)
theorem setUrgptr : Statement .setUrgptr := (by decide : wordWellFormed _ = true)
theorem getFlag (f : BitVec 3) : Statement (.getFlag f) := by
  have h := f.isLt
  simp [Statement, encode, wordWellFormed_commandWord, opClass, subInClass, toNat_flagSub, h]
theorem setFlag (f : BitVec 3) : Statement (.setFlag f) := by
  have h := f.isLt
  simp [Statement, encode, wordWellFormed_commandWord, opClass, subInClass, toNat_flagSub, h]
theorem getFlags : Statement .getFlags := (by decide : wordWellFormed _ = true)
theorem setFlags : Statement .setFlags := (by decide : wordWellFormed _ = true)
theorem addOption (tag : Byte) : Statement (.addOption tag) := by
  simp [Statement, encode, wordWellFormed_commandWord, opClass, subInClass]
theorem removeOption (tag : Byte) : Statement (.removeOption tag) := by
  simp [Statement, encode, wordWellFormed_commandWord, opClass, subInClass]
theorem getOption (tag : Byte) : Statement (.getOption tag) := by
  simp [Statement, encode, wordWellFormed_commandWord, opClass, subInClass]
theorem optCount : Statement .optCount := (by decide : wordWellFormed _ = true)
theorem getOptionAt : Statement .getOptionAt := (by decide : wordWellFormed _ = true)
theorem setMss : Statement .setMss := (by decide : wordWellFormed _ = true)
theorem setWscale : Statement .setWscale := (by decide : wordWellFormed _ = true)
theorem setSackOk : Statement .setSackOk := (by decide : wordWellFormed _ = true)
theorem setSack : Statement .setSack := (by decide : wordWellFormed _ = true)
theorem setTimestamp : Statement .setTimestamp := (by decide : wordWellFormed _ = true)
theorem setAltchk : Statement .setAltchk := (by decide : wordWellFormed _ = true)
theorem getMss : Statement .getMss := (by decide : wordWellFormed _ = true)
theorem getWscale : Statement .getWscale := (by decide : wordWellFormed _ = true)
theorem hasSackOk : Statement .hasSackOk := (by decide : wordWellFormed _ = true)
theorem getSack : Statement .getSack := (by decide : wordWellFormed _ = true)
theorem getTimestamp : Statement .getTimestamp := (by decide : wordWellFormed _ = true)
theorem getAltchk : Statement .getAltchk := (by decide : wordWellFormed _ = true)
theorem attachInner : Statement .attachInner := (by decide : wordWellFormed _ = true)
theorem detachInner : Statement .detachInner := (by decide : wordWellFormed _ = true)
theorem innerRead : Statement .innerRead := (by decide : wordWellFormed _ = true)
theorem matchResponse : Statement .matchResponse := (by decide : wordWellFormed _ = true)

end Sys2Proof.Laws.WordLegal
end

