-- ==== Sys2Proof/Machine/ReferencePh.lean ====
section
/-! DEFINITION. The reference pseudo-header function of spec/44_serializer.md R352. It is not normative: the model's PH is
the parameter `Config.ph`. The checksum functions take the pseudo-header sum as an argument, so the vectors of
spec/95_test_vectors.md that use this reference can be computed with it. -/

namespace Sys2Proof.Machine

/-- The sum of the 16-bit words of a 128-bit address. -/
def addressSum (a : BitVec 128) : Nat :=
  ((List.range 8).map fun k => (a.extractLsb' (16 * k) 16).toNat).sum

/-- The reference PH (R352). For IPv4 the address is bits 127:96 of the 128-bit value. -/
def referencePh (kind : IpKind) (src dst : BitVec 128) (seglen : Nat) (proto : Byte) : Nat :=
  match kind with
  | .ipv4 =>
    (src.extractLsb' 112 16).toNat + (src.extractLsb' 96 16).toNat + (dst.extractLsb' 112 16).toNat
      + (dst.extractLsb' 96 16).toNat + proto.toNat + seglen % 65536
  | .ipv6 =>
    addressSum src + addressSum dst + seglen % 2 ^ 32 / 65536 + seglen % 65536 + proto.toNat

/-- The pseudo-header sum the reference gives for the parent registers (R346 with R352). -/
def referenceParentSum (s : State) (seglen : Nat) : Option Nat :=
  (parentIp s.parentKind).map fun k => referencePh k (psrc s) (pdst s) seglen Config.protoTcp

end Sys2Proof.Machine
end

