-- ==== Sys2Proof/Tests/Slice0.lean ====
section
/-! SUPPORT. Tests: expected values are those of spec/95_test_vectors.md or of the rules' own examples, named in each
test's comment. Then a witness for every statement that has hypotheses: a concrete state and operands that meet them. -/

namespace Sys2Proof.Tests

open Sys2Proof.Machine Sys2Proof.Claims

/-! ## Small states -/

/-- A block holding the segment of INIT 1234, 80 (V-H1). -/
def held : State :=
  { State.reset with
    valid := true
    hdr := #v[0x04, 0xd2, 0x00, 0x50, 0, 0, 0, 0, 0, 0, 0, 0, 0x50, 0x00, 0x7f, 0xa6, 0, 0, 0, 0] }

/-- `held` with values in ARG0, ARG1, ARG2. -/
def args (a0 a1 a2 : Word) : State := { held with arg0 := a0, arg1 := a1, arg2 := a2 }

/-- A state whose host's next access is `e`. -/
def next (e : HostEvent) (s : State) : State := { s with pending := [e] }

/-- The state a command leaves. -/
def after (i : Instr) (s : State) : State :=
  match exec i s with
  | .next t => t
  | .fault _ => s
  | .refused _ => s

/-- The state one step leaves. -/
def stepped (s : State) : State :=
  match step s with
  | .next t => t
  | .fault _ => s
  | .refused _ => s

def mss : OptRec := ⟨2, [0x05, 0xb4], 2⟩
def mss2 : OptRec := ⟨2, [0x02, 0x18], 2⟩
def wscale : OptRec := ⟨3, [0x07], 1⟩
def stamp : OptRec := ⟨8, [0x11, 0x22, 0x33, 0x44, 0x55, 0x66, 0x77, 0x88], 8⟩
def sack : OptRec := ⟨5, [0, 0, 3, 0xe8, 0, 0, 7, 0xd0], 8⟩
def bad (tag : Byte) : OptRec := ⟨tag, [1, 2, 3], 3⟩

/-- BUF with the bytes `bs` written from offset `a` on. -/
def buf (a : Nat) (bs : List Byte) : Memory := memWrite [] a bs

/-- The 31-byte segment of spec/43_parser.md R300. -/
def segment : List Byte :=
  [0x00, 0x50, 0x04, 0xd2, 0, 0, 0, 1, 0, 0, 0, 0, 0x70, 0x12, 0xff, 0xff, 0x12, 0x34, 0, 0]
    ++ [2, 4, 5, 0xb4, 1, 1, 4, 2] ++ [0xaa, 0xbb, 0xcc]

/-- The inbound header Q of spec/95_test_vectors.md section 2.7. -/
def inbound : List Byte := [0x00, 0x50, 0x04, 0xd2, 0, 0, 0, 9, 0, 0, 0, 1, 0x50, 0x12, 0xff, 0xff, 0, 0, 0, 0]

/-- A header with the given byte 12 (section 2.5 of the vectors). -/
def plain (b12 : Byte) : List Byte := [0, 1, 0, 2, 0, 0, 0, 0, 0, 0, 0, 0, b12, 0, 0, 0, 0, 0, 0, 0]

/-- A state that parses the bytes `bs` at offset 0. -/
def parsing (bs : List Byte) : State := { State.reset with mem := buf 0 bs, arg1 := BitVec.ofNat 32 bs.length }

/-! ## Well-formedness: an ill-formed term for each check -/

/-- Unknown opcode (V-E1, V-E3), RSV (V-E4), SUB of class N (V-E2) and of class F (V-E5); V-E6 is legal. -/
theorem test_wordWellFormed :
    wordWellFormed 0x00000000 = false ∧ wordWellFormed 0x00000006 = false ∧ wordWellFormed 0x00010001 = false ∧
      wordWellFormed 0x00000110 = false ∧ wordWellFormed 0x00000820 = false ∧ wordWellFormed 0x0000FF30 = true := by
  decide

/-- The bounds of R16, each broken once. -/
theorem test_params_wf :
    Params.wf ⟨0, 40⟩ = false ∧ Params.wf ⟨2 ^ 32 - 4095, 40⟩ = false ∧ Params.wf ⟨4096, 39⟩ = false ∧
      Params.wf ⟨4096, 40⟩ = true := by decide +kernel

/-- A payload of more than 255 bytes (R47). -/
theorem test_optRec_wf (bs : List Byte) (h : 255 < bs.length) : OptRec.wf ⟨2, bs, 0⟩ = false := by
  simpa [OptRec.wf] using h

/-- Memory out of order, and with a repeated offset. -/
theorem test_memory_wf :
    Memory.wf [(3, 0), (2, 0)] = false ∧ Memory.wf [(3, 0), (3, 0)] = false ∧ Memory.wf [(2, 0), (3, 0)] = true := by
  decide

/-- Each part of the invariant, broken once. -/
theorem test_inv :
    State.Inv { held with params := ⟨0, 40⟩ } = false ∧ State.Inv { held with mem := [(3, 0), (2, 0)] } = false ∧
      State.Inv { held with mem := [(4096, 0)] } = false ∧
      State.Inv { held with opts := List.replicate 41 wscale } = false ∧
      State.Inv { held with params := ⟨1, 40⟩, inner := some ⟨.raw, [0, 0]⟩ } = false ∧ held.Inv = true :=
  ⟨rfl, rfl, rfl, rfl, rfl, rfl⟩

/-! ## Decoding: the command words of spec/30_encoding.md R115 -/

theorem test_decode_lifecycle :
    decode 0x00000001 = .ok .init ∧ decode 0x00000002 = .ok .parse ∧ decode 0x00000003 = .ok .serialize ∧
      decode 0x00000004 = .ok .hdrSize ∧ decode 0x00000005 = .ok .optSizes := by decide

theorem test_decode_getters :
    decode 0x00000010 = .ok .getSport ∧ decode 0x00000011 = .ok .getDport ∧ decode 0x00000012 = .ok .getSeq ∧
      decode 0x00000013 = .ok .getAck ∧ decode 0x00000014 = .ok .getDoff ∧ decode 0x00000015 = .ok .getWindow ∧
      decode 0x00000016 = .ok .getChecksum ∧ decode 0x00000017 = .ok .getUrgptr := by decide

theorem test_decode_setters :
    decode 0x00000018 = .ok .setSport ∧ decode 0x00000019 = .ok .setDport ∧ decode 0x0000001A = .ok .setSeq ∧
      decode 0x0000001B = .ok .setAck ∧ decode 0x0000001C = .ok .setDoff ∧ decode 0x0000001D = .ok .setWindow ∧
      decode 0x0000001E = .ok .setChecksum ∧ decode 0x0000001F = .ok .setUrgptr := by decide

theorem test_decode_flags :
    decode 0x00000720 = .ok (.getFlag 7) ∧ decode 0x00000121 = .ok (.setFlag 1) ∧ decode 0x00000022 = .ok .getFlags ∧
      decode 0x00000023 = .ok .setFlags ∧ decode 0x00000820 = .error .subOutsideClass := by decide

theorem test_decode_options :
    decode 0x00000230 = .ok (.addOption 2) ∧ decode 0x00000431 = .ok (.removeOption 4) ∧
      decode 0x0000FF32 = .ok (.getOption 255) ∧ decode 0x00000033 = .ok .optCount ∧
      decode 0x00000034 = .ok .getOptionAt := by decide

theorem test_decode_typed :
    decode 0x00000040 = .ok .setMss ∧ decode 0x00000041 = .ok .setWscale ∧ decode 0x00000042 = .ok .setSackOk ∧
      decode 0x00000043 = .ok .setSack ∧ decode 0x00000044 = .ok .setTimestamp ∧ decode 0x00000045 = .ok .setAltchk ∧
      decode 0x00000048 = .ok .getMss ∧ decode 0x00000049 = .ok .getWscale ∧ decode 0x0000004A = .ok .hasSackOk ∧
      decode 0x0000004B = .ok .getSack ∧ decode 0x0000004C = .ok .getTimestamp ∧ decode 0x0000004D = .ok .getAltchk := by
  decide

theorem test_decode_inner :
    decode 0x00000050 = .ok .attachInner ∧ decode 0x00000051 = .ok .detachInner ∧ decode 0x00000052 = .ok .innerRead ∧
      decode 0x00000060 = .ok .matchResponse := by decide

/-- The rows of spec/opcode_table.json are words of 32 bits. -/
theorem test_decodeTableWord :
    decodeTableWord 32 0x230 = some (.addOption 2) ∧ decodeTableWord 32 0x10001 = none := by decide

/-! ## The host port -/

/-- V-H1 through one step from reset: INIT is the first command. -/
theorem test_step_init :
    (stepped (State.withFetchWord { State.reset with arg0 := 1234, arg1 := 80 } 32 1)).hdr = held.hdr := by decide

/-- V-E1: word 0 is illegal. -/
theorem test_step_illegal :
    (stepped (State.reset.withFetchWord 32 0)).fault = some .illegalCommand ∧
      statusWord (stepped (State.reset.withFetchWord 32 0)) = 0x00010100 := by decide

/-- V-X1: NO_SEGMENT recorded with the word, and a later CMD write ignored. -/
theorem test_step_no_segment :
    let s := stepped (State.reset.withFetchWord 32 0x10)
    statusWord s = 0x00020100 ∧ s.faultInfo = 0x10 ∧ (stepped (s.withFetchWord 32 1)).valid = false := by decide

/-- V-X7: RESULT0, STATUS and FAULT_INFO are read-only. -/
theorem test_read_only :
    (stepped (next (.write .w32 0x014 0xFFFFFFFF) held)).result0 = 0 ∧
      (stepped (next (.write .w32 0x01C 0xFFFFFFFF) held)).faultInfo = 0 ∧
      (stepped (next (.read .w32 0x010) held)).replies = [0x80000000] := by decide

/-- V-X8: a byte written, then unwritten by reset. -/
theorem test_reset_unwrites :
    let s := stepped (next (.write .w8 0x1005 0x7E) State.reset)
    memByte s.mem 5 = some 0x7E ∧ memByte (stepped (next .reset s)).mem 5 = none := by decide

/-- R83: the two ends of the buffer window, and the first address behind it. -/
theorem test_buffer_window :
    memByte (stepped (next (.write .w8 0x1FFF 0xAB) held)).mem 4095 = some 0xAB ∧
      (stepped (next (.write .w8 0x2000 0xAB) held)).mem = [] ∧
      (stepped (next (.write .w32 0x1000 0xAB) held)).mem = [] := by decide

/-- V-E7: the bus listing of `SETF SYN` and of `ADD_OPTION 2, 0, 2`. -/
theorem test_assembler :
    setfLine 1 = [.write .w32 0x004 1, .write .w32 0x000 0x121] ∧
      addOptionLine 2 0 2
        = [.write .w32 0x004 0, .write .w32 0x008 2, .write .w32 0x00C 0, .write .w32 0x000 0x230] := by decide

/-! ## Lifecycle and header -/

/-- V-H2: only ARG0[15:0] and ARG1[15:0] are read. -/
theorem test_init :
    (after .init (args 0x12345678 0xFFFF0050 0)).hdr.toList.take 4 = [0x56, 0x78, 0x00, 0x50] ∧
      (after .init { held with opts := [mss], inner := some ⟨.host, [1]⟩ }).opts = [] := by decide

/-- S1: 20 with no options; S2: 28 with MSS and window scale, whatever data offset is stored. -/
theorem test_hdrSize :
    (after .hdrSize held).result0 = 20 ∧ (after .hdrSize { held with opts := [mss, wscale] }).result0 = 28 := by decide

/-- S2: raw size 7, aligned size 8. -/
theorem test_optSizes :
    (after .optSizes { held with opts := [mss, wscale] }).result0 = 7 ∧
      (after .optSizes { held with opts := [mss, wscale] }).result1 = 8 := by decide

/-- The header of V-H3. -/
def h3 : State :=
  { held with
    hdr := #v[0x00, 0x01, 0x00, 0x02, 1, 2, 3, 4, 0xde, 0xad, 0xbe, 0xef, 0xf0, 0x00, 0xff, 0xff, 0x12, 0x34, 0x00, 0x07] }

/-- V-H4. -/
theorem test_getSport : (after .getSport h3).result0 = 1 := by decide
theorem test_getDport : (after .getDport h3).result0 = 2 := by decide
theorem test_getSeq : (after .getSeq h3).result0 = 0x01020304 := by decide
theorem test_getAck : (after .getAck h3).result0 = 0xDEADBEEF := by decide
theorem test_getDoff : (after .getDoff h3).result0 = 15 := by decide
theorem test_getWindow : (after .getWindow h3).result0 = 0xFFFF := by decide
theorem test_getChecksum : (after .getChecksum h3).result0 = 0x1234 := by decide
theorem test_getUrgptr : (after .getUrgptr h3).result0 = 7 := by decide

/-- The examples of R172 to R179. -/
theorem test_setSport : (after .setSport (args 0x0001ABCD 0 0)).hdr.toList.take 3 = [0xab, 0xcd, 0x00] := by decide
theorem test_setDport : (after .setDport (args 443 0 0)).hdr.toList.take 5 = [0x04, 0xd2, 0x01, 0xbb, 0] := by decide
theorem test_setSeq : ((after .setSeq (args 0x01020304 0 0)).hdr.toList.drop 4).take 5 = [1, 2, 3, 4, 0] := by decide
theorem test_setAck :
    ((after .setAck (args 0xDEADBEEF 0 0)).hdr.toList.drop 8).take 5 = [0xde, 0xad, 0xbe, 0xef, 0x50] := by decide
theorem test_setDoff :
    (after .setDoff { h3 with arg0 := 0x1F, hdr := h3.hdr.set 12 0x53 }).hdr[12] = 0xF3 := by decide
theorem test_setWindow : ((after .setWindow (args 0x1FFFF 0 0)).hdr.toList.drop 13).take 4 = [0, 0xff, 0xff, 0] := by
  decide
theorem test_setChecksum :
    ((after .setChecksum (args 0x1234 0 0)).hdr.toList.drop 15).take 4 = [0xa6, 0x12, 0x34, 0] := by decide
theorem test_setUrgptr : ((after .setUrgptr (args 7 0 0)).hdr.toList.drop 17) = [0, 0, 7] := by decide

/-- The example of R180: HDR[13] = 0x12. -/
theorem test_getFlag :
    (after (.getFlag 1) { held with hdr := held.hdr.set 13 0x12 }).result0 = 1 ∧
      (after (.getFlag 0) { held with hdr := held.hdr.set 13 0x12 }).result0 = 0 := by decide
/-- V-H8 and V-H9: only ARG0[0] is read. -/
theorem test_setFlag :
    (after (.setFlag 1) (args 2 0 0)).hdr[13] = 0x00 ∧ (after (.setFlag 1) (args 3 0 0)).hdr[13] = 0x02 := by decide
/-- The example of R182. -/
theorem test_getFlags :
    (after .getFlags { held with hdr := (held.hdr.set 12 0x5A).set 13 0x18 }).result0 = 0xA18 := by decide
/-- V-H6: HDR[12] = 0x5F, HDR[13] = 0x12. -/
theorem test_setFlags :
    (after .setFlags (args 0xF12 0 0)).hdr[12] = 0x5F ∧ (after .setFlags (args 0xF12 0 0)).hdr[13] = 0x12 := by decide

/-! ## The option list -/

/-- V-L2 and V-L1: the spoofed and the true length field. -/
theorem test_addOption :
    (after (.addOption 2) { args 0 2 0x109 with mem := buf 0 [0x05, 0xb4] }).opts = [⟨2, [0x05, 0xb4], 9⟩] ∧
      (after (.addOption 2) { args 0 2 0x009 with mem := buf 0 [0x05, 0xb4] }).opts = [mss] := by decide
/-- V-L16, V-L17, V-L20: the faults of ADD_OPTION. -/
theorem test_addOption_faults :
    (after (.addOption 2) (args 0 256 0)).fault = some .operandRange ∧
      (after (.addOption 2) (args 0 2 0)).fault = some .bufUninit ∧
      (after (.addOption 9) (args 4097 0 0)).fault = some .bufRange := by decide
/-- V-L5. -/
theorem test_removeOption :
    (after (.removeOption 2) { held with opts := [mss, wscale, mss2] }).opts = [wscale, mss2] ∧
      (after (.removeOption 2) { held with opts := [mss, wscale, mss2] }).result0 = 1 := by decide
/-- V-L9: the option word holds the length field, RESULT1 the payload length; V-L7: the payload copied out. -/
theorem test_getOption :
    (after (.getOption 2) { held with opts := [⟨2, [0x05, 0xb4], 0x99⟩] }).result0 = 0x00990201 ∧
      (after (.getOption 2) { held with opts := [⟨2, [0x05, 0xb4], 0x99⟩] }).result1 = 2 ∧
      (after (.getOption 2) { args 16 0 0 with opts := [mss, mss2] }).mem = [(16, 0x05), (17, 0xb4)] := by decide
/-- V-L12. -/
theorem test_optCount : (after .optCount { held with opts := [⟨4, [], 0⟩, ⟨4, [], 0⟩] }).result0 = 2 := by decide
/-- The example of R229; V-L11: an index past the end. -/
theorem test_getOptionAt :
    (after .getOptionAt { args 0 1 0 with opts := [⟨1, [], 0⟩, ⟨4, [], 0⟩] }).result0 = 0x00000401 ∧
      (after .getOptionAt { args 0 2 0 with opts := [⟨1, [], 0⟩, ⟨4, [], 0⟩], result0 := 7 }).result0 = 0 := by decide

/-! ## The typed codec -/

/-- V-C1, V-C2, and the examples of R263 to R266. -/
theorem test_setMss : (after .setMss (args 0x105b4 0 0)).opts = [mss] := by decide
theorem test_setWscale : (after .setWscale (args 0x107 0 0)).opts = [wscale] := by decide
theorem test_setSackOk : (after .setSackOk held).opts = [⟨4, [], 0⟩] := by decide
theorem test_setTimestamp : (after .setTimestamp (args 0x11223344 0x55667788 0)).opts = [stamp] := by decide
theorem test_setAltchk : (after .setAltchk (args 0x102 0 0)).opts = [⟨14, [0x02], 1⟩] := by decide
/-- V-C6 with two values; V-C8: the operand check comes first. -/
theorem test_setSack :
    (after .setSack { args 0 2 0 with mem := buf 0 [0, 0, 3, 0xe8, 0, 0, 7, 0xd0] }).opts = [sack] ∧
      (after .setSack (args 0 64 0)).fault = some .operandRange := by decide
/-- V-L21: the 41st record. -/
theorem test_setSackOk_full :
    (after .setSackOk { held with opts := List.replicate 40 ⟨4, [], 0⟩ }).fault = some .optCapacity := by decide
/-- V-C18: the first match; V-C17: a payload of 3 bytes. -/
theorem test_getMss :
    (after .getMss { held with opts := [mss, mss2] }).result0 = 1460 ∧
      (after .getMss { held with opts := [bad 2] }).fault = some .typedBadLength := by decide
theorem test_getWscale :
    (after .getWscale { held with opts := [wscale] }).result0 = 7 ∧
      (after .getWscale { held with result0 := 9 }).result0 = 0 := by decide
/-- V-C5: presence only. -/
theorem test_hasSackOk :
    (after .hasSackOk { held with opts := [⟨4, [0x11], 1⟩] }).result0 = 1 ∧ (after .hasSackOk held).result0 = 0 := by decide
/-- The example of R270; V-C9: absence is an error, checked before the range. -/
theorem test_getSack :
    (after .getSack { args 32 0 0 with opts := [sack] }).result0 = 2 ∧
      memByte (after .getSack { args 32 0 0 with opts := [sack] }).mem 39 = some 0xd0 ∧
      statusWord (after .getSack (args 5000 0 0)) = 0x80000002 := by decide
/-- V-C12; V-C15: a payload of 4 bytes would be a bad length, as 3 are. -/
theorem test_getTimestamp :
    (after .getTimestamp { held with opts := [stamp] }).result0 = 0x11223344 ∧
      (after .getTimestamp { held with opts := [stamp] }).result1 = 0x55667788 ∧
      (after .getTimestamp { held with opts := [bad 8] }).fault = some .typedBadLength := by decide
theorem test_getAltchk :
    (after .getAltchk { held with opts := [⟨14, [0x02], 1⟩] }).result0 = 2 := by decide

/-! ## Parser, serializer, matcher, inner layer -/

/-- V-P1. -/
theorem test_parse :
    let t := after .parse (parsing segment)
    t.opts = [mss, ⟨1, [], 0⟩, ⟨1, [], 0⟩, ⟨4, [], 0⟩] ∧ t.inner = some ⟨.raw, [0xaa, 0xbb, 0xcc]⟩ ∧ t.valid = true ∧
      t.hdr.toList = segment.take 20 := by decide
/-- V-P4, V-P9, V-P12 are malformed; V-P10 is accepted; V-P19 is unwritten. -/
theorem test_parse_ends :
    (after .parse (parsing (plain 0x40))).err = .malformedInput ∧
      (after .parse (parsing (plain 0x60 ++ [2, 5, 0, 0]))).err = .malformedInput ∧
      (after .parse (parsing (plain 0x60 ++ [1, 1, 1, 2]))).err = .malformedInput ∧
      (after .parse (parsing (plain 0x60 ++ [2, 4, 0, 0]))).opts = [⟨2, [0, 0], 2⟩] ∧
      (after .parse { parsing (plain 0x50) with arg1 := 21 }).fault = some .bufUninit := by decide

/-- S2: the serialized bytes of MSS and window scale with no parent. -/
theorem test_serialize :
    memRead (after .serialize { args 0 28 0 with opts := [mss, wscale] }).mem 0 28
      = some ([0x04, 0xd2, 0x00, 0x50, 0, 0, 0, 0, 0, 0, 0, 0, 0x70, 0x00, 0x7f, 0xa6, 0, 0, 0, 0]
          ++ [2, 4, 0x05, 0xb4, 3, 3, 7, 1]) := by decide
/-- V-L15, V-S7, V-S10: the faults of SERIALIZE. -/
theorem test_serialize_faults :
    (after .serialize { args 16 64 0 with opts := [wscale, ⟨9, [], 0⟩] }).fault = some .optionRegionOverrun ∧
      (after .serialize { args 0 22 0 with inner := some ⟨.host, [0x68, 0x69, 0x21]⟩ }).fault = some .outbufTooSmall ∧
      (after .serialize { args 0 100 0 with opts := List.replicate 21 ⟨4, [], 0⟩ }).fault = some .optionsOverflow := by
  decide

/-- V-S1's segment and parent. -/
def syn : State :=
  { args 0 20 0 with
    hdr := held.hdr.set 13 0x02, parentKind := 1, psrc0 := 0xC0A80001, pdst0 := 0xC0A80002 }

/-- V-S1 and V-S6, with the reference pseudo-header function of R352: 0xA9C6, and 0x8D95 for an odd total. -/
theorem test_checksum :
    segmentChecksum (referenceParentSum syn 20) syn = 0xA9C6 ∧
      (let s := { syn with
          hdr := held.hdr.set 13 0x18, psrc0 := 0x0A000001, pdst0 := 0x0A000002, inner := some ⟨.host, [0x68, 0x69, 0x21]⟩ }
       segmentChecksum (referenceParentSum s 23) s = 0x8D95) := by decide
/-- V-S3: an IPv6 parent. -/
theorem test_checksum_ipv6 :
    let s := { syn with
      parentKind := 2, psrc0 := 0x20010db8, psrc3 := 1, pdst0 := 0x20010db8, pdst1 := 0, pdst2 := 0, pdst3 := 2 }
    segmentChecksum (referenceParentSum s 20) s = 0xCFA5 := by decide

/-- V-M1 and V-M2. -/
theorem test_matchResponse :
    (after .matchResponse { args 300 20 0 with mem := buf 300 inbound }).result0 = 1 ∧
      (after .matchResponse { args 300 20 0 with mem := buf 300 (inbound.set 3 0xd3), result0 := 1 }).result0 = 0 := by
  decide
/-- V-M4 and V-M5: a short buffer does not match, an unwritten byte faults. -/
theorem test_matchResponse_short :
    (after .matchResponse { args 300 19 0 with mem := buf 300 inbound, result0 := 1 }).result0 = 0 ∧
      (after .matchResponse { args 300 21 0 with mem := buf 300 inbound }).fault = some .bufUninit := by decide
/-- V-M11; V-M16. -/
theorem test_attachInner :
    (after .attachInner { args 100 4 0 with mem := buf 100 [0xde, 0xad, 0xbe, 0xef] }).inner
        = some ⟨.host, [0xde, 0xad, 0xbe, 0xef]⟩ ∧
      (after .attachInner (args 0 2 0)).fault = some .bufUninit := by decide
/-- V-M13. -/
theorem test_detachInner : (after .detachInner { held with inner := some ⟨.host, [0x11]⟩ }).inner = none := by decide
/-- V-M10; V-M15: no range is checked without an inner layer. -/
theorem test_innerRead :
    (let t := after .innerRead { args 400 0 0 with inner := some ⟨.raw, [0xaa, 0xbb]⟩ }
     t.result0 = 1 ∧ t.result1 = 2 ∧ t.mem = [(400, 0xaa), (401, 0xbb)]) ∧
      statusWord (after .innerRead (args 99999 0 0)) = 0x80000000 := by decide

/-! ## Witnesses: states and operands that meet a statement's hypotheses, clause by clause -/

/-- EncodeDecodeRoundTrip. -/
theorem witness_encodeDecode : decode 0x0000FF30 = .ok (.addOption 255) := by decide

/-- CommandWriteRunsDecodedInstruction: a write that runs, a write that is ignored, a read. -/
theorem witness_commandWrite :
    ((next (.write .w32 0 0x230) held).pending = [.write .w32 0 0x230] ∧ held.fault = none ∧
        decode 0x230 = .ok (.addOption 2)) ∧
      ({ held with fault := some .bufRange } : State).fault ≠ none ∧
      (next (.read .w32 0) held).pending = [.read .w32 0] := by decide

/-- IllegalCommandWordFaults, at the last word and at an opcode beside an assigned one. -/
theorem witness_illegal : held.fault = none ∧ wordWellFormed 0xFFFFFFFF = false ∧ wordWellFormed 0x61 = false := by decide

/-- RegisterWindowReadsAndWrites: the two ends of the reserved addresses, and a CMD write. -/
theorem witness_registerWindow :
    (0x044 ≤ (0x044#32).toNat ∧ (0x044#32).toNat % 4 = 0) ∧ ((0xFFC#32).toNat < 0x1000 ∧ (0xFFC#32).toNat % 4 = 0) ∧
      held.fault = none ∧ (next (.write .w32 0 (encode .getSeq)) held).pending = [.write .w32 0 (encode .getSeq)] ∧
      (next (.read .w32 0x010) held).pending = [.read .w32 0x010] := by decide

/-- OddRegisterAccessIsIgnored: a narrow access at the last address, a misaligned one at the first. -/
theorem witness_oddAccess :
    ((0xFFF#32).toNat < 0x1000 ∧ ¬(Width.w8 = .w32 ∧ (0xFFF#32).toNat % 4 = 0)) ∧
      ((0x001#32).toNat < 0x1000 ∧ ¬(Width.w32 = .w32 ∧ (0x001#32).toNat % 4 = 0)) := by decide

/-- BufferWindowAccess: the last byte written and read, an unwritten first byte, the first address behind BUF, a wide
access. -/
theorem witness_bufferWindow :
    (0x1000 ≤ (0x1FFF#32).toNat ∧ (0x1FFF#32).toNat < 0x1000 + held.params.bufSize ∧
        memByte (buf 4095 [7]) ((0x1FFF#32).toNat - 0x1000) = some 7) ∧
      ((0x1000#32).toNat < 0x1000 + held.params.bufSize ∧ memByte held.mem ((0x1000#32).toNat - 0x1000) = none) ∧
      0x1000 + held.params.bufSize ≤ (0x2000#32).toNat ∧ Width.w16 ≠ .w8 := by decide

/-- HostReadsChangeNothing. -/
theorem witness_hostRead :
    (next (.read .w8 0x1000) held).pending = [.read .w8 0x1000] ∧
      step (next (.read .w32 0x010) held) = .next (stepped (next (.read .w32 0x010) held)) := ⟨rfl, rfl⟩

/-- OnlyResetClearsFaultValidAndBuffer and FaultedBlockRunsNoCommand: a reset; a faulted block with a segment and a written
byte, and an access that is no reset. -/
theorem witness_onlyReset :
    (next .reset held).pending = [.reset] ∧
      (let s : State := next (.write .w32 0 1) { held with fault := some .bufRange, mem := buf 3 [9] }
       s.pending = [.write .w32 0 1] ∧ HostEvent.write .w32 0 1 ≠ .reset ∧ s.fault = some .bufRange ∧ s.valid = true ∧
         memByte s.mem 3 ≠ none) := by decide

/-- CommandLineWritesArgsThenRuns: three arguments and none. -/
theorem witness_commandLine :
    held.fault = none ∧ [0#32, 2, 0].length = argCount (.addOption 2) ∧ ([] : List Word).length = argCount .getSeq := by
  decide

/-- ValidBitRules: a successful PARSE without a segment, a command without a segment. -/
theorem witness_validBit :
    (let t := after .parse (parsing segment)
     t.fault = none ∧ t.err = .noError ∧ t.valid = true ∧ (parsing segment).valid = false) ∧
      State.reset.valid = false ∧ held.valid = true := by decide

/-- FaultEntryIsPrecise, ErrorsWriteOnlyTheErrorCode and ResultRegistersChangeOnlyByTheirCommands: a fault, an error, and
commands that write no result. -/
theorem witness_faultAndError :
    (held.fault = none ∧ (after .setSack (args 0 64 0)).fault ≠ none) ∧
      ((after .getTimestamp held).fault = none ∧ (after .getTimestamp held).err ≠ .noError) ∧
      writesResult0 .setSeq = false ∧ writesResult1 .getSeq = false := by decide

/-- FaultEntryIsPrecise: the step of an illegal word. -/
theorem witness_faultStep :
    let s : State := next (.write .w32 0 0) held
    s.fault = none ∧ s.pending = [.write .w32 0 0] ∧ step s = .next (stepped s) ∧ (stepped s).fault = some .illegalCommand :=
  ⟨rfl, rfl, rfl, rfl⟩

/-- FaultCausesComeFromListedCommands and ErrorsComeFromListedCommands: a listed and an unlisted pair. -/
theorem witness_listed :
    raisedBy .optCapacity .setMss = true ∧ raisedBy .bufRange .getSeq = false ∧
      (after .parse (parsing (plain 0x40))).err = .malformedInput := by decide

/-- CommandsStoreOnlyInTheirRange: the bytes beside the two stored at 16. -/
theorem witness_storeRange :
    let s : State := { args 16 0 0 with opts := [mss] }
    storedLength (.getOption 2) s = 2 ∧ 15 < s.arg0.toNat ∧ s.arg0.toNat + storedLength (.getOption 2) s ≤ 18 := by decide

/-- StepKeepsTheInvariant and ResetMeetsTheInvariant: a state with everything in it, the least parameters, the greatest
BUF. -/
theorem witness_inv :
    State.Inv { held with opts := [mss, wscale], mem := buf 4095 [1], inner := some ⟨.raw, [1]⟩ } = true ∧
      Params.wf ⟨1, 40⟩ = true ∧ Params.wf ⟨2 ^ 32 - 4096, 41⟩ = true := by decide

/-- The statements whose only hypothesis is a segment, and the size bounds of SizeQueriesReturnTheSizes. -/
theorem witness_valid :
    held.valid = true ∧ 20 + alignedSize [mss, wscale] < 2 ^ 32 ∧ rawSize [mss, wscale] < 2 ^ 32 := by decide

/-- AddOptionAppendsTheRecord: each check failing at its boundary, the longest payload length, a full and a free store. -/
theorem witness_addOption :
    (255 < (args 0 256 0).arg1.toNat) ∧
      ((args 4095 2 0).arg1.toNat ≤ 255 ∧ held.params.bufSize < (args 4095 2 0).arg0.toNat + (args 4095 2 0).arg1.toNat) ∧
      ((args 3841 255 0).arg0.toNat + (args 3841 255 0).arg1.toNat ≤ held.params.bufSize ∧
        memByte (args 3841 255 0).mem (3841 + 254) = none) ∧
      (let s : State := { args 4094 2 0x109 with mem := buf 4094 [5, 0xb4] }
       [5, 0xb4].length = s.arg1.toNat ∧ s.arg0.toNat + s.arg1.toNat ≤ s.params.bufSize ∧
         memByte s.mem 4094 = some 5 ∧ memByte s.mem 4095 = some 0xb4 ∧ s.opts.length ≠ s.params.optCapacity) ∧
      (List.replicate 40 wscale).length = held.params.optCapacity := by decide

/-- HoldsAt is met: the two bytes of the witness above. -/
theorem witness_holdsAt : HoldsAt (buf 4094 [5, 0xb4]) 4094 [5, 0xb4] :=
  fun k hk => memByte_memWrite_inside _ _ _ k hk

/-- RemoveOptionRemovesTheFirstMatch, GetOptionReturnsTheFirstMatch and SizesChangeByTheRecordsCost: a tag that is absent, and
one that stands behind another record. -/
theorem witness_firstMatch :
    Absent [wscale] 2 ∧ FirstIs [wscale, mss, mss2] 2 mss ∧
      (after (.removeOption 2) { held with opts := [wscale, mss] }).result0 = 1 ∧
      (after (.removeOption 2) held).result0 = 0 ∧
      (after (.addOption 2) { args 0 2 0 with mem := buf 0 [5, 0xb4] }).fault = none := by
  refine ⟨by unfold Absent; decide, ⟨[wscale], [mss2], rfl, by unfold Absent; decide, rfl⟩, by decide, by decide, by decide⟩

/-- ReturnsRecord, in GetOptionReturnsTheFirstMatch and OptionListIsObservable: a range that passes the end by one, one that
ends at it, an index in range and the first index behind it. -/
theorem witness_returnsRecord :
    held.params.bufSize < (args 4095 0 0).arg0.toNat + mss.payload.length ∧
      (args 4094 0 0).arg0.toNat + mss.payload.length ≤ held.params.bufSize ∧ mss.payload.length < 2 ^ 32 ∧
      (args 0 1 0).arg1.toNat < [wscale, mss].length ∧ [wscale, mss].length ≤ (args 0 2 0).arg1.toNat := by decide

/-- TypedSettersAppend, and TypedSetThenGet in part: a full store, a free store, an absent kind and a present one. -/
theorem witness_typedSetters :
    ({ held with opts := List.replicate 40 wscale } : State).opts.length = held.params.optCapacity ∧
      held.opts.length ≠ held.params.optCapacity ∧ Absent held.opts 8 ∧ FirstIs [mss] 2 mss := by
  refine ⟨by decide, by decide, by unfold Absent; decide, ⟨[], [], rfl, by unfold Absent; decide, rfl⟩⟩

/-- TypedSetThenGet: an earlier timestamp record; values to set from BUF with no SACK record there, room for them and for an
earlier record's bytes at the end of BUF, and such a record. -/
theorem witness_typedSetThenGet :
    (let ts : OptRec := ⟨8, [1, 2, 3, 4, 5, 6, 7, 8], 8⟩
     FirstIs [ts] 8 ts ∧ ts.payload = [1, 2, 3, 4, 5, 6, 7, 8]) ∧
      (let s : State := { args 4092 1 0 with mem := buf 4092 [1, 2, 3, 4] }
       s.valid = true ∧ s.opts.length ≠ s.params.optCapacity ∧ [1, 2, 3, 4].length = 4 * s.arg1.toNat ∧
         s.arg0.toNat + [1, 2, 3, 4].length ≤ s.params.bufSize ∧ HoldsAt s.mem s.arg0.toNat [1, 2, 3, 4] ∧
         Absent s.opts 5 ∧ (4092#32).toNat + [1, 2, 3, 4].length ≤ s.params.bufSize) ∧
      (let o : OptRec := ⟨5, [9, 9, 9, 9], 4⟩
       FirstIs [o] 5 o ∧ o.payload.length % 4 = 0 ∧ o.payload.length / 4 < 2 ^ 32) := by
  refine ⟨⟨⟨[], [], rfl, by unfold Absent; decide, rfl⟩, rfl⟩, ⟨rfl, by decide, rfl, by decide, ?_, by unfold Absent; decide,
    by decide⟩, ⟨[], [], rfl, by unfold Absent; decide, rfl⟩, rfl, by decide⟩
  exact ((memRead_eq_some_iff _ _ 4 _).mp (by decide)).2

/-- SetSackAppendsTheValues: 64 values are too many, 63 are not; a range past the end, an unwritten one, a written one. -/
theorem witness_setSack :
    255 < 4 * (args 0 64 0).arg1.toNat ∧ 4 * (args 0 63 0).arg1.toNat ≤ 255 ∧
      held.params.bufSize < (args 4093 1 0).arg0.toNat + 4 * (args 4093 1 0).arg1.toNat ∧
      (args 4092 1 0).arg0.toNat + 4 * (args 4092 1 0).arg1.toNat ≤ held.params.bufSize ∧
      memByte (args 4092 1 0).mem 4095 = none ∧ [1, 2, 3, 4].length = 4 * (args 4092 1 0).arg1.toNat ∧
      memRead (buf 4092 [1, 2, 3, 4]) 4092 4 = some [1, 2, 3, 4] := by decide

/-- TypedGettersDecodeTheFirstRecord, GetSackCopiesTheValues and GetTimestampReturnsBothHalves: a record of each kind, a
payload of a length its kind cannot decode, and a SACK record at the end of BUF and past it. -/
theorem witness_typedGetters :
    FirstIs [bad 2] 2 (bad 2) ∧ (bad 2).payload.length ≠ 2 ∧ mss.payload = [0x05, 0xb4] ∧ wscale.payload = [0x07] ∧
      (bad 3).payload.length ≠ 1 ∧ (bad 5).payload.length % 4 ≠ 0 ∧ sack.payload.length % 4 = 0 ∧
      (args 4088 0 0).arg0.toNat + sack.payload.length ≤ held.params.bufSize ∧
      held.params.bufSize < (args 4089 0 0).arg0.toNat + sack.payload.length ∧ (bad 8).payload.length ≠ 8 ∧
      stamp.payload = [0x11, 0x22, 0x33, 0x44, 0x55, 0x66, 0x77, 0x88] :=
  ⟨⟨[], [], rfl, by unfold Absent; decide, rfl⟩, by decide, rfl, rfl, by decide, by decide, by decide, by decide, by decide,
    by decide, rfl⟩

/-- ParseDecodesEveryWellFormedSegment: the segment of V-P1, with its three trailing bytes and without. -/
theorem witness_parseDecodes :
    let h : Header := headerOfBytes segment
    let os := [mss, ⟨1, [], 0⟩, ⟨1, [], 0⟩, ⟨4, [], 0⟩]
    (∀ o ∈ os, WireRecord o) ∧ declaredEnd h[12] = 20 + (wireOpts os).length ∧
      segment = h.toList ++ wireOpts os ++ [0xaa, 0xbb, 0xcc] ∧ (parsing segment).arg1.toNat = segment.length ∧
      (parsing segment).arg0.toNat + (parsing segment).arg1.toNat ≤ (parsing segment).params.bufSize ∧
      memRead (parsing segment).mem 0 31 = some segment ∧
      segment.take 28 = h.toList ++ wireOpts os ++ [] := by
  unfold WireRecord
  decide

/-- ParseAcceptsOnlyWellFormedSegments and ParsedSizesFitTheHeader: a PARSE that ends `ok`. -/
theorem witness_parseOk :
    let s := parsing segment
    s.fault = none ∧ exec .parse s = .next (after .parse s) ∧ (after .parse s).fault = none ∧
      (after .parse s).err = .noError := ⟨rfl, rfl, rfl, rfl⟩

/-- ParseRejectsMalformedBuffers: a range past the end (V-P20), an unwritten byte, 19 bytes, a data offset of 4 and of 6
in 20 bytes, and an option without length byte, with length byte 1 and with a payload one past the header end. -/
theorem witness_parseRejects :
    (held.params.bufSize < (args 4090 10 0).arg0.toNat + (args 4090 10 0).arg1.toNat) ∧
      (memByte (args 0 1 0).mem 0 = none) ∧ ((plain 0x50).take 19).length < 20 ∧ declaredEnd 0x40 < 20 ∧
      (plain 0x60).length < declaredEnd 0x60 ∧
      (let os : List OptRec := [⟨1, [], 0⟩, ⟨1, [], 0⟩, ⟨1, [], 0⟩]
       (∀ o ∈ os, WireRecord o) ∧ (plain 0x60 ++ [1, 1, 1, 2]).drop 20 = wireOpts os ++ 2 :: [] ∧
         20 + (wireOpts os).length < declaredEnd 0x60 ∧ declaredEnd 0x60 ≤ (plain 0x60 ++ [1, 1, 1, 2]).length) ∧
      ((plain 0x60 ++ [2, 1, 0, 0]).drop 20 = wireOpts [] ++ 2 :: 1 :: [0, 0] ∧ (1#8).toNat < 2) ∧
      declaredEnd 0x60 < 20 + (wireOpts []).length + (5#8).toNat := by
  unfold WireRecord
  decide

/-- SerializeFaultsInOrder: each check failing where those before it pass. -/
theorem witness_serializeFaults :
    held.params.bufSize < (args 4090 20 0).arg0.toNat + (args 4090 20 0).arg1.toNat ∧
      40 < alignedSize (List.replicate 21 ⟨4, [], 0⟩) ∧ alignedSize (List.replicate 20 ⟨4, [], 0⟩) ≤ 40 ∧
      (alignedSize [wscale, ⟨9, [], 0⟩] ≤ 40 ∧
        alignedSize [wscale, ⟨9, [], 0⟩] < (encOpts [wscale, ⟨9, [], 0⟩]).length) ∧
      ((encOpts []).length ≤ alignedSize [] ∧ (args 0 19 0).arg1.toNat < 20 + alignedSize [] + (innerBytes none).length) := by
  decide

/-- OptionsEncodeAsStated: a single-byte option, a true length (the last one, 255), a spoofed one. -/
theorem witness_optionsEncode :
    ((1#8) = 0#8 ∨ (1#8) = 1#8) ∧ ¬(mss.tag = 0#8 ∨ mss.tag = 1#8) ∧ mss.lenfield.toNat = mss.payload.length ∧
      (255#8).toNat = (List.replicate 255 (0#8)).length ∧
      (9#8).toNat ≠ mss.payload.length := by decide +kernel

/-- SerializeWritesTheSegment: capacity exactly the total, with an IPv4, an IPv6, no and another parent. -/
theorem witness_serializeWrites :
    (let s : State := { syn with opts := [mss, wscale], arg1 := 28 }
     s.valid = true ∧ s.arg0.toNat + s.arg1.toNat ≤ s.params.bufSize ∧ alignedSize s.opts ≤ 40 ∧
       (encOpts s.opts).length ≤ alignedSize s.opts ∧
       20 + alignedSize s.opts + (innerBytes s.inner).length ≤ s.arg1.toNat ∧ s.parentKind.toNat % 4 = 1) ∧
      (2#32).toNat % 4 = 2 ∧ held.parentKind.toNat % 4 = 0 ∧ (7#32).toNat % 4 = 3 := by decide

/-- A SERIALIZE that passes its four checks ends `ok`, and its bytes stand in BUF. -/
theorem serialize_ok (s : State) (hf : s.fault = none) (hv : s.valid = true)
    (hr : natOf s.arg0 + natOf s.arg1 ≤ s.params.bufSize) (h40 : alignedSize s.opts ≤ 40)
    (henc : (encOpts s.opts).length ≤ alignedSize s.opts) (hcap : totalSize s ≤ natOf s.arg1) :
    ∃ (t : State) (bs : List Byte), exec .serialize s = .next t ∧ t.fault = none ∧ bs.length = t.result0.toNat ∧
      HoldsAt t.mem s.arg0.toNat bs := by
  refine ⟨_, serializedBytes (parentSum s (totalSize s)) s,
    (execSerialize_cases s _).mpr (.inr ⟨hv, .inr ⟨hr, .inr (.inr (.inr ⟨h40, henc, hcap,
      (serializeWith_eq_next ..).mpr rfl⟩))⟩⟩), hf, ?_, fun k hk => memByte_memWrite_inside _ _ _ k hk⟩
  rw [length_serializedBytes _ henc]
  exact (toNat_resultOfNat (by have := s.arg1.isLt; unfold natOf at hcap; omega)).symm

/-- SerializedChecksumVerifies: V-S1's segment serialized for its IPv4 parent, whatever PH is. -/
theorem witness_checksumVerifies :
    ∃ (t : State) (bs : List Byte), syn.fault = none ∧ exec .serialize syn = .next t ∧ t.fault = none ∧
      parentIp syn.parentKind = some .ipv4 ∧ bs.length = t.result0.toNat ∧ HoldsAt t.mem syn.arg0.toNat bs :=
  have ⟨t, bs, run, ok, len, holds⟩ :=
    serialize_ok syn rfl rfl (by decide) (by decide) (by decide) (by decide)
  ⟨t, bs, rfl, run, ok, rfl, len, holds⟩

/-- The segment of the next witness: padding, and a record of each shape the round trip admits. -/
def padded : State :=
  { args 0 40 0 with opts := [mss, wscale, ⟨4, [], 0⟩, ⟨1, [], 0⟩, wscale], inner := some ⟨.host, [0x68]⟩ }

/-- SerializeTwiceGivesTheSameBytes and ParseOfSerializeIsTheSegment: a segment that is serialized and round-trips. -/
theorem witness_serializeOk :
    ∃ t : State, padded.fault = none ∧ exec .serialize padded = .next t ∧ t.fault = none ∧
      ∀ o ∈ padded.opts, RoundTripRecord o := by
  have ⟨t, _, run, ok, _⟩ := serialize_ok padded rfl rfl (by decide) (by decide) (by decide) (by decide)
  refine ⟨t, rfl, run, ok, ?_⟩
  unfold RoundTripRecord
  decide

/-- MatchResponseTestsPortsAndInner: a range past the end, an unwritten byte, 19 bytes, and 20 bytes with swapped and with
equal ports. -/
theorem witness_match :
    held.params.bufSize < (args 4090 20 0).arg0.toNat + (args 4090 20 0).arg1.toNat ∧
      memByte (args 0 20 0).mem 19 = none ∧ (inbound.take 19).length < 20 ∧
      (20 ≤ inbound.length ∧ inbound[0] = held.hdr[2] ∧ inbound[1] = held.hdr[3] ∧ inbound[2] = held.hdr[0] ∧
        inbound[3] = held.hdr[1] ∧ held.inner = none) ∧ inbound[0] ≠ (held.hdr.set 2 0x01)[2] := by decide

/-- InnerLayerAttachDetachRead: a range past the end, an unwritten byte, a written range, no inner layer, and one that ends
at the end of BUF or passes it by one. -/
theorem witness_inner :
    held.params.bufSize < (args 4096 1 0).arg0.toNat + (args 4096 1 0).arg1.toNat ∧
      ((args 4095 1 0).arg0.toNat + (args 4095 1 0).arg1.toNat ≤ held.params.bufSize ∧
        memByte (args 4095 1 0).mem 4095 = none) ∧
      memRead (buf 4095 [7]) 4095 1 = some [7] ∧ held.inner = none ∧
      (args 4095 0 0).arg0.toNat + [7#8].length ≤ held.params.bufSize ∧
      held.params.bufSize < (args 4096 0 0).arg0.toNat + [7#8].length ∧ [7#8].length < 2 ^ 32 := by decide

end Sys2Proof.Tests
end

section
/-! SUPPORT. Which commands ask for a segment, what the VALID bit does, and which result registers a command can write
(spec/10_state.md R31, R35). -/

namespace Sys2Proof.Machine

open Sys2Proof.Claims

/-! ## The segment check and VALID -/

/-- Every command but INIT and PARSE starts with `require_segment()` (spec/40_lifecycle_header.md R160). -/
theorem exec_eq_withSegment {i : Instr} (hi : i ≠ .init) (hp : i ≠ .parse) (s : State) :
    ∃ k, exec i s = withSegment s k := by
  cases i with
  | init => exact absurd rfl hi
  | parse => exact absurd rfl hp
  | _ => exact ⟨_, rfl⟩

/-- Without a segment, every command but INIT and PARSE faults with NO_SEGMENT. -/
theorem exec_of_invalid {i : Instr} (hi : i ≠ .init) (hp : i ≠ .parse) {s : State} (h : s.valid = false) :
    exec i s = .next (faulted .noSegment s) := by
  obtain ⟨k, hk⟩ := exec_eq_withSegment hi hp s
  rw [hk, withSegment_of_invalid h]
  rfl

/-- What PARSE can answer: a fault, MALFORMED_INPUT, or the parsed segment (spec/43_parser.md R300, R310). -/
theorem execParse_cases {s t : State} (h : exec .parse s = .next t) :
    (∃ c, t = faulted c s) ∨ t = { s with err := .malformedInput } ∨
      ∃ p : Parsed, t = { s with hdr := p.hdr, opts := p.opts, inner := p.inner, valid := true, err := .noError } := by
  change withBytes s _ _ _ = _ at h
  rcases withBytes_cases s _ _ _ with ⟨-, e⟩ | ⟨-, -, e⟩ | ⟨bs, -, -, e⟩ <;> rw [e] at h
  · exact .inl ⟨_, (raiseFault_eq_next ..).mp h⟩
  · exact .inl ⟨_, (raiseFault_eq_next ..).mp h⟩
  · split at h
    · exact .inr (.inl ((raiseError_eq_next ..).mp h))
    · exact .inr (.inr ⟨_, (finishOk_eq_next ..).mp h⟩)

theorem execInit_valid {s t : State} (h : exec .init s = .next t) : t.valid = true := by
  rw [(finishOk_eq_next ..).mp h]

theorem execParse_valid_of_ok {s t : State} (h : exec .parse s = .next t) (hf : t.fault = none)
    (he : t.err = .noError) : t.valid = true := by
  rcases execParse_cases h with ⟨c, rfl⟩ | rfl | ⟨p, rfl⟩
  · simp [faulted] at hf
  · simp at he
  · rfl

/-- No command clears VALID. -/
theorem exec_keeps_valid {i : Instr} {s t : State} (h : exec i s = .next t) (hv : s.valid = true) : t.valid = true := by
  rcases exec_ends h with ⟨c, rfl⟩ | ⟨e, -, rfl⟩ | ⟨v, _, _, _, _, _, _, rfl, hkeep, -⟩
  · exact hv
  · exact hv
  · exact hkeep hv

/-- Only INIT and PARSE can set VALID. -/
theorem init_or_parse_of_valid {i : Instr} {s t : State} (h : exec i s = .next t) (hs : s.valid = false)
    (ht : t.valid = true) : i = .init ∨ i = .parse := by
  by_contra hn
  obtain ⟨hi, hp⟩ := not_or.mp hn
  rw [exec_of_invalid hi hp hs] at h
  cases h
  simp [faulted, hs] at ht

/-- No step but reset clears VALID. -/
theorem step_keeps_valid {s t : State} {e : HostEvent} {es : List HostEvent} (hp : s.pending = e :: es)
    (he : e ≠ .reset) (h : step s = .next t) (hv : s.valid = true) : t.valid = true := by
  rcases step_cases hp he h with ⟨i, w, -, hx⟩ | ⟨w, -, rfl⟩ | ⟨a, b, -, -, rfl⟩ |
    ⟨_, _, _, _, _, _, _, _, _, _, _, _, _, _, rfl⟩
  · exact exec_keeps_valid hx hv
  all_goals exact hv

/-! ## The result registers -/

/-- The answer `r` of a command run in `s` changes RESULT0 only if `b0`, and RESULT1 only if `b1`. -/
def ChangesResults (b0 b1 : Bool) (s : State) (r : Result) : Prop :=
  ∀ t, r = .next t → (b0 = false → t.result0 = s.result0) ∧ (b1 = false → t.result1 = s.result1)

section
variable {b0 b1 : Bool} {s : State}

/-- An answer that keeps both registers meets every bound. -/
theorem ChangesResults.of_kept {u : State} (h0 : u.result0 = s.result0) (h1 : u.result1 = s.result1) :
    ChangesResults b0 b1 s (.next u) := by
  intro t ht
  cases ht
  exact ⟨fun _ => h0, fun _ => h1⟩

theorem changesResults_raiseFault (c : FaultCause) : ChangesResults b0 b1 s (raiseFault c s) := .of_kept rfl rfl

theorem changesResults_raiseError (e : ErrCode) : ChangesResults b0 b1 s (raiseError e s) := .of_kept rfl rfl

theorem changesResults_finishOk {u : State} (h0 : u.result0 = s.result0) (h1 : u.result1 = s.result1) :
    ChangesResults b0 b1 s (finishOk u) := .of_kept h0 h1

theorem changesResults_finishWith {u : State} (v : Word) (h1 : u.result1 = s.result1) :
    ChangesResults true b1 s (finishWith v u) := by
  intro t ht
  rw [(finishWith_eq_next ..).mp ht]
  exact ⟨nofun, fun _ => h1⟩

theorem changesResults_finishWith2 (v w : Word) (u : State) : ChangesResults true true s (finishWith2 v w u) :=
  fun _ _ => ⟨nofun, nofun⟩

theorem changesResults_ite {p : Prop} [Decidable p] {x y : Result} (hx : ChangesResults b0 b1 s x)
    (hy : ChangesResults b0 b1 s y) : ChangesResults b0 b1 s (if p then x else y) := by
  split
  · exact hx
  · exact hy

theorem changesResults_withSegment {k : Result} (hk : ChangesResults b0 b1 s k) :
    ChangesResults b0 b1 s (withSegment s k) :=
  changesResults_ite hk (changesResults_raiseFault _)

theorem changesResults_withRoom {a n : Nat} {k : Result} (hk : ChangesResults b0 b1 s k) :
    ChangesResults b0 b1 s (withRoom s a n k) :=
  changesResults_ite hk (changesResults_raiseFault _)

theorem changesResults_withBytes {a n : Nat} {k : List Byte → Result} (hk : ∀ bs, ChangesResults b0 b1 s (k bs)) :
    ChangesResults b0 b1 s (withBytes s a n k) := by
  rcases withBytes_cases s a n k with ⟨-, e⟩ | ⟨-, -, e⟩ | ⟨bs, -, -, e⟩ <;> rw [e]
  · exact changesResults_raiseFault _
  · exact changesResults_raiseFault _
  · exact hk bs

theorem changesResults_appendOpt (o : OptRec) : ChangesResults b0 b1 s (appendOpt o s) :=
  changesResults_ite (changesResults_raiseFault _) (changesResults_finishOk rfl rfl)

theorem changesResults_addTyped (tag : Byte) (p : List Byte) : ChangesResults b0 b1 s (addTyped tag p s) :=
  changesResults_withSegment (changesResults_appendOpt _)

theorem changesResults_writeHeader (h : Header) : ChangesResults b0 b1 s (writeHeader h s) :=
  changesResults_withSegment (changesResults_finishOk rfl rfl)

theorem changesResults_readField {n : Nat} (v : BitVec n) : ChangesResults true b1 s (readField v s) :=
  changesResults_withSegment (changesResults_finishWith _ rfl)

theorem changesResults_returnOption (o : OptRec) : ChangesResults true true s (returnOption o s) :=
  changesResults_withRoom (changesResults_finishWith2 _ _ _)

theorem changesResults_readTyped {tag : Byte} {good : Nat → Bool} {absent : Result} {k : List Byte → Result}
    (ha : ChangesResults b0 b1 s absent) (hk : ∀ p, ChangesResults b0 b1 s (k p)) :
    ChangesResults b0 b1 s (readTyped tag good absent k s) := by
  refine changesResults_withSegment ?_
  split
  · exact ha
  · exact changesResults_ite (hk _) (changesResults_raiseFault _)

end

/-- A command writes a result register only if the results column of spec/30_encoding.md R115 names it. -/
theorem exec_changesResults (i : Instr) (s : State) :
    ChangesResults (writesResult0 i) (writesResult1 i) s (exec i s) := by
  cases i with
  | init => exact changesResults_finishOk rfl rfl
  | parse =>
    refine changesResults_withBytes fun bs => ?_
    split
    · exact changesResults_raiseError _
    · exact changesResults_finishOk rfl rfl
  | serialize =>
    refine changesResults_withSegment (changesResults_withRoom ?_)
    refine changesResults_ite (changesResults_raiseFault _) (changesResults_ite (changesResults_raiseFault _) ?_)
    exact changesResults_ite (changesResults_raiseFault _) (changesResults_finishWith2 _ _ _)
  | hdrSize | optCount | hasSackOk => exact changesResults_withSegment (changesResults_finishWith _ rfl)
  | optSizes => exact changesResults_withSegment (changesResults_finishWith2 _ _ _)
  | getSport | getDport | getSeq | getAck | getDoff | getWindow | getChecksum | getUrgptr | getFlag _ | getFlags =>
    exact changesResults_readField _
  | setSport | setDport | setSeq | setAck | setDoff | setWindow | setChecksum | setUrgptr | setFlag _ | setFlags =>
    exact changesResults_writeHeader _
  | addOption _ | setSack =>
    exact changesResults_withSegment (changesResults_ite (changesResults_raiseFault _)
      (changesResults_withBytes fun _ => changesResults_appendOpt _))
  | removeOption _ =>
    refine changesResults_withSegment ?_
    split <;> exact changesResults_finishWith _ rfl
  | getOption _ | getOptionAt =>
    refine changesResults_withSegment ?_
    split
    · exact changesResults_finishWith2 _ _ _
    · exact changesResults_returnOption _
  | setMss | setWscale | setSackOk | setTimestamp | setAltchk => exact changesResults_addTyped _ _
  | getMss =>
    unfold exec execGetMss
    exact changesResults_readTyped (changesResults_finishWith _ rfl) fun _ => changesResults_finishWith _ rfl
  | getWscale =>
    unfold exec execGetWscale
    exact changesResults_readTyped (changesResults_finishWith _ rfl) fun _ => changesResults_finishWith _ rfl
  | getAltchk =>
    unfold exec execGetAltchk
    exact changesResults_readTyped (changesResults_finishWith _ rfl) fun _ => changesResults_finishWith _ rfl
  | getSack =>
    unfold exec execGetSack
    exact changesResults_readTyped (changesResults_raiseError _) fun _ =>
      changesResults_withRoom (changesResults_finishWith _ rfl)
  | getTimestamp =>
    unfold exec execGetTimestamp
    exact changesResults_readTyped (changesResults_raiseError _) fun _ => changesResults_finishWith2 _ _ _
  | attachInner =>
    exact changesResults_withSegment (changesResults_withBytes fun _ => changesResults_finishOk rfl rfl)
  | detachInner => exact changesResults_withSegment (changesResults_finishOk rfl rfl)
  | innerRead =>
    refine changesResults_withSegment ?_
    split
    · exact changesResults_finishWith2 _ _ _
    · exact changesResults_withRoom (changesResults_finishWith2 _ _ _)
  | matchResponse =>
    exact changesResults_withSegment (changesResults_withBytes fun _ => changesResults_finishWith _ rfl)

/-- A command that ends in a fault or an error leaves both result registers. -/
theorem results_kept_of_not_ok {i : Instr} {s t : State} (h : exec i s = .next t) (hs : s.fault = none)
    (ht : t.fault ≠ none ∨ t.err ≠ .noError) : t.result0 = s.result0 ∧ t.result1 = s.result1 := by
  rcases exec_ends h with ⟨c, rfl⟩ | ⟨e, -, rfl⟩ | ⟨_, _, _, _, _, _, _, rfl, -⟩
  · exact ⟨rfl, rfl⟩
  · exact ⟨rfl, rfl⟩
  · exact absurd ht (by simp [hs])

/-! ## Register accesses as steps -/

/-- A step at a 32-bit write of the register window (spec/20_memory.md R81). -/
theorem step_writeRegister {s : State} {addr v : Word} {es : List HostEvent}
    (ha : registerAccess .w32 addr = true) (h : s.pending = .write .w32 addr v :: es) :
    step s = writeRegister addr.toNat v { s with pending := es } := by
  rw [step_cons h, perform, hostWrite_register ha]

/-- A step at a 32-bit read of the register window (spec/20_memory.md R81). -/
theorem step_readRegister {s : State} {addr : Word} {es : List HostEvent}
    (ha : registerAccess .w32 addr = true) (h : s.pending = .read .w32 addr :: es) :
    step s = .next { s with
      pending := es, replies := s.replies ++ [readRegister addr.toNat { s with pending := es }] } := by
  rw [step_cons h, perform, hostRead_register ha]
  rfl

/-- A step at a CMD write (spec/10_state.md R36). -/
theorem step_writeCmd {s : State} {w : Word} {es : List HostEvent} (h : s.pending = .write .w32 0x000#32 w :: es) :
    step s = writeCmd w { s with pending := es } :=
  step_writeRegister (by decide) h

/-- STATUS reads 0 after reset (spec/10_state.md R53). -/
@[simp] theorem statusWord_resetWith (p : Params) : statusWord (State.resetWith p) = 0#32 := by
  simp [statusWord, errCode]

end Sys2Proof.Machine
end

section
open Sys2Proof Sys2Proof.Machine Sys2Proof.Claims

/-- Settles O17: every command but INIT and PARSE is behind the segment check, and `CommandEnds` and `step_cases` keep
VALID. -/
theorem validBitRules : Obligations.ValidBitRules :=
  ⟨resetWith_valid, fun _ _ => execInit_valid, fun _ _ => execParse_valid_of_ok, fun _ _ _ => exec_keeps_valid,
    fun _ _ _ => init_or_parse_of_valid, fun _ _ _ _ => step_keeps_valid, fun _ _ hi hp => exec_of_invalid hi hp⟩

/-- Settles O23: the two host writes reach no register, the results column bounds what a command writes, and a fault or an
error keeps both registers. -/
theorem resultRegistersChangeOnlyByTheirCommands : Obligations.ResultRegistersChangeOnlyByTheirCommands := by
  refine ⟨fun s es v h => step_writeRegister (by decide) h, fun s es v h => step_writeRegister (by decide) h, ?_⟩
  intro i s t h
  obtain ⟨h0, h1⟩ := exec_changesResults i s t h
  exact ⟨h0, h1, results_kept_of_not_ok h⟩

/-- Settles O5: a CMD write is `writeCmd`, a CMD read answers CMD. -/
theorem commandWriteRunsDecodedInstruction : Obligations.CommandWriteRunsDecodedInstruction := by
  intro s es w
  refine ⟨fun h hf i hd => ?_, fun h hf => ?_, fun h => ?_⟩
  · rw [step_writeCmd h, writeCmd_ok (by exact hf) hd]
  · rw [step_writeCmd h, writeCmd_faulted (by exact hf)]
  · exact step_readRegister (by decide) h

/-- Settles O12, from the values of each field of the reset state. -/
theorem resetGivesTheListedValues : Obligations.ResetGivesTheListedValues := by
  intro p
  simp [ResetValues]

end

section
/-! SUPPORT. The decoder on encoded words (spec/30_encoding.md R118), and one step at each kind of host access: a register
(spec/20_memory.md R81), a buffer byte (R83), an access neither window answers (R82, R83). -/

namespace Sys2Proof.Machine

open Sys2Proof.Claims

/-! ## Decoding an encoded instruction -/

/-- The decoder on a built word: only the row's SUB check is left. -/
theorem decode_commandWord {opc : Byte} {row : OpRow} (h : opcodeRow opc = some row) (sub : Byte) :
    decode (commandWord opc sub) = decodeSub row sub := by
  simp [decode, h]

theorem decodeSub_flagSub (mk : BitVec 3 → Instr) (f : BitVec 3) : decodeSub (.f mk) (flagSub f) = .ok (mk f) := by
  have high : (flagSub f).extractLsb' 3 5 = 0#5 := BitVec.extractLsb'_append_eq_left
  have low : (flagSub f).extractLsb' 0 3 = f := BitVec.extractLsb'_append_eq_right
  rw [decodeSub, if_pos high, low]

theorem decode_encode (i : Instr) : decode (encode i) = .ok i := by
  cases i with
  | getFlag f | setFlag f => rw [encode, decode_commandWord (by rfl), decodeSub_flagSub]
  | _ =>
    rw [encode, decode_commandWord (by rfl)]
    rfl

/-! ## The register window (spec/20_memory.md R81) -/

/-- An aligned register read answers the addressed row of the map; the pending accesses do not show in it. -/
theorem readsAs_readRegister {addr : Word} (ha : registerAccess .w32 addr = true) :
    ReadsAs addr (readRegister addr.toNat) := fun _ _ h => step_readRegister ha h

/-- An aligned register write has the effect of the addressed row of the map. -/
theorem writesAs_of_writeRegister {addr : Word} {g : Word → State → State} (ha : registerAccess .w32 addr = true)
    (hg : ∀ v s, writeRegister addr.toNat v s = .next (g v s)) : WritesAs addr g := by
  intro s es v h
  rw [step_writeRegister ha h, hg]

theorem readRegister_reserved {addr : Nat} (h : 0x044 ≤ addr) (s : State) : readRegister addr s = 0#32 := by
  unfold readRegister
  split
  case h_18 => rfl
  all_goals exact absurd h (by decide)

theorem writeRegister_reserved {addr : Nat} (h : 0x044 ≤ addr) (v : Word) (s : State) :
    writeRegister addr v s = .next s := by
  unfold writeRegister
  split
  case h_14 => rfl
  all_goals exact absurd h (by decide)

/-! ## Accesses neither window answers (spec/20_memory.md R82, R83) -/

section
variable {s : State} {width : Width} {addr v : Word} {es : List HostEvent}

theorem step_ignoredWrite (hr : registerAccess width addr = false) (hb : bufferAccess s width addr = false)
    (h : s.pending = .write width addr v :: es) : step s = .next { s with pending := es } := by
  rw [step_cons h, perform, hostWrite_ignored hr (by exact hb)]

theorem step_ignoredRead (hr : registerAccess width addr = false) (hb : bufferAccess s width addr = false)
    (h : s.pending = .read width addr :: es) :
    step s = .next { s with pending := es, replies := s.replies ++ [0#32] } := by
  rw [step_cons h, perform, hostRead_ignored hr (by exact hb)]
  rfl

/-! ## Buffer bytes (spec/20_memory.md R83) -/

theorem step_writeBuffer (hb : bufferAccess s width addr = true) (h : s.pending = .write width addr v :: es) :
    step s = .next (bufWrite { s with pending := es } (addr.toNat - 0x1000) [low8 v]) := by
  rw [step_cons h, perform, hostWrite_buffer (by exact hb)]

theorem step_readBuffer (hb : bufferAccess s width addr = true) (h : s.pending = .read width addr :: es) :
    step s = .next (readBuffer (addr.toNat - 0x1000) { s with pending := es }) := by
  rw [step_cons h, perform, hostRead_buffer (by exact hb)]

end

theorem readBuffer_written {s : State} {a : Nat} {b : Byte} (h : memByte s.mem a = some b) :
    readBuffer a s = reply (BitVec.ofNat 32 b.toNat) s := by
  rw [readBuffer, h, BitVec.ofNat_toNat]
  rfl

theorem readBuffer_unwritten {s : State} {a : Nat} (h : memByte s.mem a = none) :
    readBuffer a s = reply (BitVec.ofNat 32 (Config.freeByte s.draws).toNat) { s with draws := s.draws + 1 } := by
  rw [readBuffer, h, BitVec.ofNat_toNat]
  rfl

/-- Writing a byte string stores it and keeps every byte beside it. -/
theorem storedAt_memWrite (m : Memory) (a : Nat) (bs : List Byte) : StoredAt m (memWrite m a bs) a bs :=
  ⟨fun k hk => memByte_memWrite_inside bs m a k hk, fun b hb => memByte_memWrite_outside bs m a b hb⟩

end Sys2Proof.Machine
end

section
open Sys2Proof Sys2Proof.Machine Sys2Proof.Claims

/-- Settles O7: a command's word decodes to the command, each row of the map is a row of `readRegister` and
`writeRegister`, and no row stands from 0x044 on. -/
theorem registerWindowReadsAndWrites : Obligations.RegisterWindowReadsAndWrites := by
  refine ⟨fun s es i hf h => (commandWriteRunsDecodedInstruction s es _).1 h hf i (decode_encode i), ?_⟩
  iterate 17 refine ⟨readsAs_readRegister rfl, ?_⟩
  iterate 16 refine ⟨writesAs_of_writeRegister rfl fun _ _ => rfl, ?_⟩
  intro addr hlow hhigh halign
  have ha : registerAccess .w32 addr = true := (registerAccess_iff ..).mpr ⟨hhigh, rfl, halign⟩
  refine ⟨?_, writesAs_of_writeRegister ha (writeRegister_reserved hlow)⟩
  rw [← funext (readRegister_reserved hlow)]
  exact readsAs_readRegister ha

/-- Settles O9: below 0x1000 the buffer window answers nothing, and the register window only the aligned 32-bit
accesses. -/
theorem oddRegisterAccessIsIgnored : Obligations.OddRegisterAccessIsIgnored := by
  intro s es width addr v hlow hodd
  have hr : registerAccess width addr = false := by
    rw [← Bool.not_eq_true, registerAccess_iff]
    exact fun h => hodd h.2
  have hb : bufferAccess s width addr = false := by
    rw [← Bool.not_eq_true, bufferAccess_iff]
    exact fun h => absurd h.1 (by omega)
  exact ⟨step_ignoredWrite hr hb, step_ignoredRead hr hb⟩

/-- Settles O10: the buffer window answers the 8-bit accesses inside BUF and no other access from 0x1000 on. -/
theorem bufferWindowAccess : Obligations.BufferWindowAccess := by
  intro s es addr hbase
  have inside (hin : addr.toNat < 0x1000 + s.params.bufSize) : bufferAccess s .w8 addr = true :=
    (bufferAccess_iff ..).mpr ⟨hbase, hin, rfl⟩
  refine ⟨fun v hin h => ⟨_, step_writeBuffer (inside hin) h, storedAt_memWrite ..⟩, fun b hin h hm => ?_,
    fun hin h hm => ?_, fun width v hout => ?_⟩
  · rw [step_readBuffer (inside hin) h, readBuffer_written (by exact hm)]
    rfl
  · rw [step_readBuffer (inside hin) h, readBuffer_unwritten (by exact hm)]
    rfl
  · have hr : registerAccess width addr = false := by
      rw [← Bool.not_eq_true, registerAccess_iff]
      omega
    have hb : bufferAccess s width addr = false := by
      rw [← Bool.not_eq_true, bufferAccess_iff]
      rintro ⟨-, hin, rfl⟩
      exact hout.elim (· rfl) (by omega)
    exact ⟨step_ignoredWrite hr hb, step_ignoredRead hr hb⟩

end

section
/-! SUPPORT. The decoder against the legality check of spec/30_encoding.md R116: the opcode map and the class ranges give
the same class, and the SUB checks agree class by class. -/

namespace Sys2Proof

/-- The SUB class a row of the opcode map decodes by (spec/30_encoding.md R112). -/
def OpRow.subClass : OpRow → OpClass
  | .n _ => .n
  | .t _ => .t
  | .f _ => .f

/-- The opcode map and the ranges of assigned opcodes agree on every opcode (spec/30_encoding.md R115). -/
theorem opClass_toNat (opc : Byte) : opClass opc.toNat = (opcodeRow opc).map OpRow.subClass := by
  revert opc
  decide

/-- A guarded instruction decodes exactly when its guard holds. -/
theorem ite_ok_iff {p : Prop} [Decidable p] (i : Instr) (e : DecodeError) :
    (∃ j, (if p then .ok i else .error e : Except DecodeError Instr) = .ok j) ↔ p := by
  by_cases h : p <;> simp [h]

/-- The decoder's SUB check is the one of the row's class (spec/30_encoding.md R112). -/
theorem decodeSub_ok_iff (row : OpRow) (sub : Byte) :
    (∃ i, decodeSub row sub = .ok i) ↔ subInClass row.subClass sub.toNat = true := by
  cases row with
  | n i =>
    have hzero : sub = 0x00#8 ↔ sub.toNat = 0 := BitVec.toNat_eq
    simp only [decodeSub, ite_ok_iff, OpRow.subClass, subInClass, beq_iff_eq, hzero]
  | t mk => simp [decodeSub, OpRow.subClass, subInClass]
  | f mk =>
    have hhigh : sub.extractLsb' 3 5 = 0#5 ↔ sub.toNat < 8 := by
      have := sub.isLt
      rw [BitVec.toNat_eq, BitVec.extractLsb'_toNat, Nat.shiftRight_eq_div_pow, BitVec.toNat_ofNat]
      omega
    simp only [decodeSub, ite_ok_iff, OpRow.subClass, subInClass, decide_eq_true_eq, hhigh]

/-- The decoder accepts a word exactly when the legality check does (spec/30_encoding.md R116, R118). -/
theorem decode_ok_iff (w : Word) : (∃ i, decode w = .ok i) ↔ wordWellFormed w = true := by
  have hrsv : rsvField w = 0#16 ↔ w.toNat / 65536 = 0 := by
    rw [← toNat_rsvField]
    exact BitVec.toNat_eq
  unfold decode wordWellFormed
  rw [← toNat_opcField, ← toNat_subField, opClass_toNat]
  cases opcodeRow (opcField w) with
  | none => simp
  | some row =>
    simp only [Option.map_some, Bool.and_eq_true, beq_iff_eq, ← hrsv, ← decodeSub_ok_iff]
    by_cases h : rsvField w = 0#16 <;> simp [h]

end Sys2Proof
end

section
open Sys2Proof Sys2Proof.Machine

/-- Settles O6: a word the legality check refuses decodes to no instruction, and the CMD write of such a word faults. -/
theorem illegalCommandWordFaults : Obligations.IllegalCommandWordFaults := by
  intro s es w h hf hw
  have hd : ∀ i, decode w ≠ .ok i := fun i hi => by simp [(decode_ok_iff w).mp ⟨i, hi⟩] at hw
  rw [step_writeCmd h, writeCmd_illegal (by exact hf) hd]

end

section
/-! SUPPORT. The rules of the lifecycle and header commands (spec/40_lifecycle_header.md): the word and the segment check
of a command, what a getter returns from its field, and which bytes a setter puts in HDR. -/

namespace Sys2Proof.Machine

open Sys2Proof.Claims

/-! ## The word of a command (spec/30_encoding.md R110) -/

/-- A command behind the segment check, at the word the encoder gives it. -/
theorem command_of_encode {i : Instr} {w : Word} (hw : encode i = w) (hi : i ≠ .init := by nofun)
    (hp : i ≠ .parse := by nofun) : Command i w :=
  ⟨hw ▸ decode_encode i, fun _ h => exec_of_invalid hi hp h⟩

theorem commandWord_eq_wordOf (opc sub : Byte) : commandWord opc sub = wordOf opc.toNat sub.toNat := by
  apply BitVec.eq_of_toNat_eq
  have := opc.isLt
  have := sub.isLt
  rw [toNat_commandWord, wordOf, BitVec.toNat_ofNat]
  omega

theorem commandWord_flagSub (opc : Byte) (f : BitVec 3) : commandWord opc (flagSub f) = wordOf opc.toNat f.toNat := by
  rw [commandWord_eq_wordOf, toNat_flagSub]

/-! ## Getters and setters with a segment held (spec/40_lifecycle_header.md R160) -/

section
variable {i : Instr} {s : State}

/-- A getter of a field of at most 32 bits returns the field's number. -/
theorem returns_of_readField (hs : s.valid = true) {n k : Nat} {v : BitVec n} (he : exec i s = readField v s)
    (hv : v.toNat = k) (hn : n ≤ 32 := by decide) : Returns i s k :=
  ⟨zext32 v, he.trans ((readField_cases v s _).mpr (.inr ⟨hs, rfl⟩)), (toNat_zext32 hn v).trans hv⟩

/-- A header setter completes with the header it was given. -/
theorem exec_of_writeHeader (hs : s.valid = true) {h : Header} (he : exec i s = writeHeader h s) :
    exec i s = .next { s with hdr := h, err := .noError } :=
  he.trans ((writeHeader_cases h s _).mpr (.inr ⟨hs, rfl⟩))

theorem putsHeader_of_writeHeader (hs : s.valid = true) {h : Header} {a : Nat} {vs : List Nat}
    (he : exec i s = writeHeader h s) (hp : HeaderPut s.hdr h a vs) : PutsHeader i s a vs :=
  ⟨h, exec_of_writeHeader hs he, hp⟩

end

/-! ## Fields of HDR and of ARG0 as numbers (spec/10_state.md R42; spec/30_encoding.md R114) -/

theorem toNat_hdrBE32 (h : Header) (i : Nat) (hi : i + 3 < 20) :
    (hdrBE32 h i hi).toNat =
      h[i].toNat * 2 ^ 24 + h[i + 1].toNat * 2 ^ 16 + h[i + 2].toNat * 2 ^ 8 + h[i + 3].toNat := by
  rw [hdrBE32, toNat_be32]
  omega

/-- A bit of a value is the value's binary digit at that place. -/
theorem toNat_getLsbD {n : Nat} (v : BitVec n) (g : Nat) : (v.getLsbD g).toNat = v.toNat / 2 ^ g % 2 :=
  Nat.toNat_testBit v.toNat g

theorem toNat_hdrFlag (h : Header) (f : BitVec 3) :
    (BitVec.ofBool (hdrFlag h f)).toNat = h[13].toNat / 2 ^ f.toNat % 2 := by
  rw [BitVec.toNat_ofBool, hdrFlag, toNat_getLsbD]

theorem toNat_low16_high (w : Word) : ((low16 w).extractLsb' 8 8).toNat = w.toNat / 256 % 256 := by
  rw [toNat_field, toNat_low16]
  omega

theorem toNat_low16_low (w : Word) : ((low16 w).extractLsb' 0 8).toNat = w.toNat % 256 := by
  rw [toNat_field, toNat_low16]
  omega

/-! ## The header a setter writes -/

section
variable {h h' : Header} {i k : Nat} {vs : List Nat} {w : Word}

theorem headerPut_nil : HeaderPut h h i [] := fun _ _ => (if_neg (by rw [List.length_nil]; omega)).symm

/-- Setting the byte just behind the bytes already put puts one byte more. -/
theorem headerPut_set (hp : HeaderPut h h' i vs) {b : Byte} {v : Nat} (hb : b.toNat = v) (hk : k < 20)
    (hend : k = i + vs.length) : HeaderPut h (h'.set k b hk) i (vs ++ [v]) := by
  intro j hj
  have hold := hp j hj
  rw [Vector.getElem_set, List.length_append, List.length_singleton]
  by_cases hkj : k = j
  · have hlen : j - i = vs.length := by omega
    rw [if_pos hkj, if_pos (by omega), hlen, hb, List.getD_append_right _ _ _ _ (le_refl _), Nat.sub_self,
      List.getD_cons_zero]
  by_cases hin : i ≤ j ∧ j < i + vs.length
  · rw [if_neg hkj, hold, if_pos hin, if_pos (by omega), List.getD_append _ _ _ _ (by omega)]
  · rw [if_neg hkj, hold, if_neg hin, if_neg (by omega)]

theorem headerPut_low16 {hi : i + 1 < 20} :
    HeaderPut h (hdrPut16 h i (low16 w) hi) i [w.toNat / 256 % 256, w.toNat % 256] :=
  headerPut_set (headerPut_set headerPut_nil (toNat_low16_high w) _ rfl) (toNat_low16_low w) _ rfl

theorem headerPut_hdrPut32 {hi : i + 3 < 20} :
    HeaderPut h (hdrPut32 h i w hi) i
      [w.toNat / 2 ^ 24, w.toNat / 2 ^ 16 % 256, w.toNat / 256 % 256, w.toNat % 256] := by
  have h3 : (w.extractLsb' 24 8).toNat = w.toNat / 2 ^ 24 := by
    have := w.isLt
    rw [toNat_field]
    omega
  have h0 : (w.extractLsb' 0 8).toNat = w.toNat % 256 := by
    rw [toNat_field]
    omega
  exact headerPut_set (headerPut_set (headerPut_set (headerPut_set headerPut_nil h3 _ rfl) (toNat_field w 16 8) _ rfl)
    (toNat_field w 8 8) _ rfl) h0 _ rfl

theorem headerPut_hdrPutDoff : HeaderPut h (hdrPutDoff h (low4 w)) 12 [w.toNat % 16 * 16 + h[12].toNat % 16] := by
  have hb : (nibbles (low4 w) (lowNibble h[12])).toNat = w.toNat % 16 * 16 + h[12].toNat % 16 := by
    rw [toNat_nibbles, toNat_low4, toNat_lowNibble]
    rfl
  exact headerPut_set headerPut_nil hb _ rfl

theorem headerPut_hdrPutFlags12 :
    HeaderPut h (hdrPutFlags12 h (low12 w)) 12 [h[12].toNat / 16 * 16 + w.toNat / 256 % 16, w.toNat % 256] := by
  have h12 : (nibbles (highNibble h[12]) ((low12 w).extractLsb' 8 4)).toNat =
      h[12].toNat / 16 * 16 + w.toNat / 256 % 16 := by
    rw [toNat_nibbles, toNat_highNibble, toNat_field, toNat_low12]
    omega
  have h13 : ((low12 w).extractLsb' 0 8).toNat = w.toNat % 256 := by
    rw [toNat_field, toNat_low12]
    omega
  exact headerPut_set (headerPut_set headerPut_nil h12 _ rfl) h13 _ rfl

end

/-- Each bit of header byte 13 after SET_FLAG. -/
theorem hdrPutFlag_bit (h : Header) (f g : BitVec 3) (w : Word) :
    (hdrPutFlag h f (bit0 w))[13].toNat / 2 ^ g.toNat % 2 =
      if g = f then w.toNat % 2 else h[13].toNat / 2 ^ g.toNat % 2 := by
  rw [getElem_hdrPutFlag, if_pos rfl, ← toNat_getLsbD, getLsbD_putBit, apply_ite Bool.toNat, bit0, toNat_getLsbD,
    toNat_getLsbD, pow_zero, Nat.div_one]

/-- The twenty bytes INIT writes (spec/40_lifecycle_header.md R161). -/
theorem toList_defaultHeader (p q : BitVec 16) :
    (defaultHeader p q).toList =
      [p.extractLsb' 8 8, p.extractLsb' 0 8, q.extractLsb' 8 8, q.extractLsb' 0 8,
        0, 0, 0, 0, 0, 0, 0, 0, 0x50, 0, 0x7F, 0xA6, 0, 0, 0, 0] := rfl

end Sys2Proof.Machine
end

section
open Sys2Proof Sys2Proof.Machine Sys2Proof.Claims

/-- Settles O27: INIT has no check to fail, and its header is the default one byte by byte. -/
theorem initCreatesTheDefaultSegment : Obligations.InitCreatesTheDefaultSegment := by
  refine ⟨decode_encode .init, fun s => ⟨_, (finishOk_eq_next ..).mpr rfl, ?_⟩⟩
  rw [toList_defaultHeader]
  simp only [List.map_cons, toNat_low16_high, toNat_low16_low]
  rfl

/-- Settles O28: both queries are one segment check before their results. -/
theorem sizeQueriesReturnTheSizes : Obligations.SizeQueriesReturnTheSizes := by
  refine ⟨command_of_encode rfl, command_of_encode rfl, fun s hs => ⟨⟨_, ?_, toNat_resultOfNat⟩, _, _, ?_,
    toNat_resultOfNat, toNat_resultOfNat⟩⟩
  · exact (withSegment_of_valid hs _).trans ((finishWith_eq_next ..).mpr rfl)
  · exact (withSegment_of_valid hs _).trans ((finishWith2_eq_next ..).mpr rfl)

/-- Settles O29: each getter is `readField` of its field, whose number is the big-endian one of its bytes. -/
theorem fieldGettersReadTheHeader : Obligations.FieldGettersReadTheHeader := by
  iterate 8 refine ⟨command_of_encode rfl, ?_⟩
  intro s hs
  exact ⟨returns_of_readField hs rfl (toNat_be16 ..), returns_of_readField hs rfl (toNat_be16 ..),
    returns_of_readField hs rfl (toNat_hdrBE32 ..), returns_of_readField hs rfl (toNat_hdrBE32 ..),
    returns_of_readField hs rfl (toNat_highNibble _), returns_of_readField hs rfl (toNat_be16 ..),
    returns_of_readField hs rfl (toNat_be16 ..), returns_of_readField hs rfl (toNat_be16 ..)⟩

/-- Settles O30: each setter is `writeHeader` of HDR with the bytes of its field put in place. -/
theorem fieldSettersWriteTheHeader : Obligations.FieldSettersWriteTheHeader := by
  iterate 8 refine ⟨command_of_encode rfl, ?_⟩
  intro s hs
  exact ⟨putsHeader_of_writeHeader hs rfl headerPut_low16, putsHeader_of_writeHeader hs rfl headerPut_low16,
    putsHeader_of_writeHeader hs rfl headerPut_hdrPut32, putsHeader_of_writeHeader hs rfl headerPut_hdrPut32,
    putsHeader_of_writeHeader hs rfl headerPut_hdrPutDoff, putsHeader_of_writeHeader hs rfl headerPut_low16,
    putsHeader_of_writeHeader hs rfl headerPut_low16, putsHeader_of_writeHeader hs rfl headerPut_low16⟩

/-- Settles O32: a flag is a bit of header byte 13, and putting it keeps the other bits and bytes. -/
theorem namedFlagsReadAndWrite : Obligations.NamedFlagsReadAndWrite := by
  refine ⟨fun f => ⟨command_of_encode (commandWord_flagSub _ f), command_of_encode (commandWord_flagSub _ f)⟩,
    fun s f hs => ⟨returns_of_readField hs rfl (toNat_hdrFlag ..), _, exec_of_writeHeader hs rfl,
      fun g => hdrPutFlag_bit .., fun j hj hne => ?_⟩⟩
  rw [getElem_hdrPutFlag, if_neg hne]

/-- Settles O33: the 12-bit value is the low nibble of byte 12 above byte 13, in both directions. -/
theorem combinedFlagsReadAndWrite : Obligations.CombinedFlagsReadAndWrite :=
  ⟨command_of_encode rfl, command_of_encode rfl, fun _ hs => ⟨returns_of_readField hs rfl (toNat_hdrFlags12 _),
    putsHeader_of_writeHeader hs rfl headerPut_hdrPutFlags12⟩⟩

end

section
/-! SUPPORT. The rules of the option list commands (spec/41_option_list.md): the checks of a command that reads a bounded
byte string from BUF, what a returned record leaves, and each command with a segment held. -/

namespace Sys2Proof.Machine

open Sys2Proof.Claims

/-! ## Operands and results as numbers -/

/-- The option word (spec/30_encoding.md R127): FOUND, the tag from bit 8, the length field from bit 16. -/
theorem toNat_optionWord (o : OptRec) : (optionWord o).toNat = 1 + o.tag.toNat * 256 + o.lenfield.toNat * 65536 := by
  simp only [optionWord, toNat_append_byte, BitVec.toNat_ofNat]
  omega

/-- The length field ADD_OPTION stores (spec/41_option_list.md R225). -/
theorem addLenfield_eq (w : Word) (n : Nat) :
    addLenfield w n = BitVec.ofNat 8 (if w.toNat / 256 % 2 = 1 then w.toNat % 256 else n) := by
  have hlow : BitVec.ofNat 8 (w.toNat % 256) = low8 w := BitVec.eq_of_toNat_eq (by simp)
  rw [apply_ite (BitVec.ofNat 8), hlow, addLenfield, spoofEnable_eq]
  simp only [decide_eq_true_eq]

/-! ## Commands that read a byte string of at most 255 bytes (spec/41_option_list.md R225; spec/42_option_codec.md R264) -/

section
variable {i : Instr} {s : State} {a n : Nat} {k : List Byte → Result}

theorem withBytes_of_range (h : s.params.bufSize < a + n) : withBytes s a n k = .next (faulted .bufRange s) := by
  rw [withBytes, bufRead_range h]
  rfl

theorem withBytes_of_uninit (hfit : a + n ≤ s.params.bufSize) (h : ∃ j, j < n ∧ memByte s.mem (a + j) = none) :
    withBytes s a n k = .next (faulted .bufUninit s) := by
  obtain ⟨j, hj, hm⟩ := h
  rw [withBytes, bufRead_uninit hfit hj hm]
  rfl

theorem withBytes_of_holdsAt {p : List Byte} (hlen : p.length = n) (hfit : a + n ≤ s.params.bufSize)
    (hp : HoldsAt s.mem a p) : withBytes s a n k = k p :=
  withBytes_of_ok ((bufRead_eq_ok_iff ..).mpr ⟨hfit, hlen, hp⟩) k

/-- A byte count over 255 is out of the operand's range, whatever BUF holds. -/
theorem exec_of_operandRange
    (he : exec i s = withSegment s (if 255 < n then raiseFault .operandRange s else withBytes s a n k))
    (hs : s.valid = true) (hn : 255 < n) : exec i s = .next (faulted .operandRange s) := by
  rw [he, withSegment_of_valid hs, if_pos hn]
  rfl

/-- With the operand in range, the buffer read decides what the command does. -/
theorem exec_of_operandFits
    (he : exec i s = withSegment s (if 255 < n then raiseFault .operandRange s else withBytes s a n k))
    (hs : s.valid = true) (hn : n ≤ 255) : exec i s = withBytes s a n k := by
  rw [he, withSegment_of_valid hs, if_neg (Nat.not_lt.mpr hn)]

end

/-! ## Commands that return a record (spec/41_option_list.md R227, R229) -/

/-- The two outcomes of `returnOption` are the two clauses of `ReturnsRecord`. -/
theorem returnsRecord_of_returnOption {i : Instr} {s : State} {o : OptRec} (he : exec i s = returnOption o s) :
    ReturnsRecord i s o := by
  refine ⟨fun h => ?_, fun h => ⟨memWrite s.mem s.arg0.toNat o.payload, optionWord o, resultOfNat o.payload.length, ?_,
    storedAt_memWrite .., toNat_optionWord o, toNat_resultOfNat⟩⟩
  · exact he.trans ((returnOption_cases ..).mpr (.inl ⟨h, rfl⟩))
  · exact he.trans ((returnOption_cases ..).mpr (.inr ⟨h, rfl⟩))

/-! ## Each command with a segment held -/

section
variable {s : State} {tag : Byte} {o : OptRec}

theorem exec_removeOption_of_absent (hs : s.valid = true) (h : Absent s.opts tag) :
    exec (.removeOption tag) s = .next { s with result0 := 0#32, err := .noError } := by
  have hnone : firstOpt s.opts tag = none := (firstOpt_eq_none_iff ..).mpr h
  exact (withSegment_of_valid hs _).trans (by rw [hnone]; rfl)

/-- Any first match decides the branch; which record goes is `removeFirst`'s law. -/
theorem exec_removeOption_of_firstIs (hs : s.valid = true) (h : FirstIs s.opts tag o) :
    exec (.removeOption tag) s =
      .next { s with opts := removeFirst s.opts tag, result0 := 1#32, err := .noError } := by
  have hsome : firstOpt s.opts tag = some o := (firstOpt_eq_some_iff ..).mpr h
  exact (withSegment_of_valid hs _).trans (by rw [hsome]; rfl)

theorem exec_getOption_of_absent (hs : s.valid = true) (h : Absent s.opts tag) :
    exec (.getOption tag) s = .next { s with result0 := 0#32, result1 := 0#32, err := .noError } := by
  have hnone : firstOpt s.opts tag = none := (firstOpt_eq_none_iff ..).mpr h
  exact (withSegment_of_valid hs _).trans (by rw [hnone]; rfl)

theorem exec_getOption_of_firstIs (hs : s.valid = true) (h : FirstIs s.opts tag o) :
    exec (.getOption tag) s = returnOption o s := by
  have hsome : firstOpt s.opts tag = some o := (firstOpt_eq_some_iff ..).mpr h
  exact (withSegment_of_valid hs _).trans (by rw [hsome])

theorem exec_getOptionAt_of_pastEnd (hs : s.valid = true) (h : s.opts.length ≤ s.arg1.toNat) :
    exec .getOptionAt s = .next { s with result0 := 0#32, result1 := 0#32, err := .noError } :=
  (withSegment_of_valid hs _).trans (by rw [List.getElem?_eq_none h]; rfl)

theorem exec_getOptionAt_of_lt (hs : s.valid = true) (h : s.arg1.toNat < s.opts.length) :
    exec .getOptionAt s = returnOption s.opts[s.arg1.toNat] s :=
  (withSegment_of_valid hs _).trans (by rw [List.getElem?_eq_getElem h])

end

end Sys2Proof.Machine
end

section
open Sys2Proof Sys2Proof.Machine Sys2Proof.Claims

/-- Settles O34: the cost, the sum and the rounding each by their own law. -/
theorem optionSizeBookkeeping : Obligations.OptionSizeBookkeeping :=
  ⟨optCost_eq, ⟨rawSize_nil, rawSize_cons⟩, alignedSize_bounds⟩

/-- Settles O35: past the operand check the command is a buffer read, whose three outcomes are the two buffer faults and
the bytes that are appended. -/
theorem addOptionAppendsTheRecord : Obligations.AddOptionAppendsTheRecord := by
  refine ⟨fun tag => command_of_encode (commandWord_eq_wordOf _ tag), fun tag s hs => ⟨fun hn => ?_, fun hn hr => ?_,
    fun hn hfit hu => ?_, fun p hlen hn hfit hp => ?_⟩⟩
  · exact exec_of_operandRange rfl hs hn
  · exact (exec_of_operandFits rfl hs hn).trans (withBytes_of_range hr)
  · exact (exec_of_operandFits rfl hs hn).trans (withBytes_of_uninit hfit hu)
  · have he : exec (.addOption tag) s = appendOpt ⟨tag, p, addLenfield s.arg2 s.arg1.toNat⟩ s :=
      (exec_of_operandFits rfl hs hn).trans (withBytes_of_holdsAt hlen hfit hp)
    rw [addLenfield_eq] at he
    exact ⟨fun hfull => he.trans ((appendOpt_cases ..).mpr (.inl ⟨hfull, rfl⟩)),
      fun hroom => he.trans ((appendOpt_cases ..).mpr (.inr ⟨hroom, rfl⟩))⟩

/-- Settles O36: the lookup decides the branch, and removing the first match leaves the records on both sides of it. -/
theorem removeOptionRemovesTheFirstMatch : Obligations.RemoveOptionRemovesTheFirstMatch := by
  refine ⟨fun tag => command_of_encode (commandWord_eq_wordOf _ tag), fun tag s hs =>
    ⟨exec_removeOption_of_absent hs, fun pre post o hopts hpre ho => ?_⟩⟩
  rw [exec_removeOption_of_firstIs hs ⟨pre, post, hopts, hpre, ho⟩, hopts, removeFirst_append hpre ho]

/-- Settles O37: the lookup decides the branch, and a found record is returned. -/
theorem getOptionReturnsTheFirstMatch : Obligations.GetOptionReturnsTheFirstMatch :=
  ⟨fun tag => command_of_encode (commandWord_eq_wordOf _ tag), fun _ _ hs => ⟨exec_getOption_of_absent hs,
    fun _ ho => returnsRecord_of_returnOption (exec_getOption_of_firstIs hs ho)⟩⟩

/-- Settles O38: the count is the length of the list, and an index inside it returns its record. -/
theorem optionListIsObservable : Obligations.OptionListIsObservable :=
  ⟨command_of_encode rfl, command_of_encode rfl, fun s hs =>
    ⟨⟨resultOfNat s.opts.length, (withSegment_of_valid hs _).trans ((finishWith_eq_next ..).mpr rfl),
        toNat_resultOfNat⟩,
      exec_getOptionAt_of_pastEnd hs, fun h => returnsRecord_of_returnOption (exec_getOptionAt_of_lt hs h)⟩⟩

end

section
/-! SUPPORT. The rules of the typed option codec (spec/42_option_codec.md): the payload bytes and the cost of a record a
setter appends, and the branches of a getter, each for the command that is written from the shared shape. -/

namespace Sys2Proof.Machine

open Sys2Proof.Claims

/-! ## Payload bytes as numbers (spec/30_encoding.md R124) -/

theorem map_ofNat_map_toNat (bs : List Byte) : (bs.map BitVec.toNat).map (BitVec.ofNat 8) = bs := by
  simp [Function.comp_def]

theorem map_toNat_toBE16_low16 (w : Word) :
    (toBE16 (low16 w)).map BitVec.toNat = [w.toNat / 256 % 256, w.toNat % 256] := by
  simp only [toBE16, List.map_cons, List.map_nil, toNat_low16_high, toNat_low16_low]

theorem map_toNat_toBE32 (w : Word) :
    (toBE32 w).map BitVec.toNat =
      [w.toNat / 2 ^ 24, w.toNat / 2 ^ 16 % 256, w.toNat / 256 % 256, w.toNat % 256] := by
  have htop : w.toNat / 2 ^ 24 % 2 ^ 8 = w.toNat / 2 ^ 24 := Nat.mod_eq_of_lt (by omega)
  simp only [toBE32, List.map_cons, List.map_nil, toNat_field, htop, pow_zero, Nat.div_one]
  rfl

theorem toNat_listBE32 (p : List Byte) (i : Nat) :
    (listBE32 p i).toNat = (byteAt p i).toNat * 2 ^ 24 + (byteAt p (i + 1)).toNat * 2 ^ 16 +
      (byteAt p (i + 2)).toNat * 2 ^ 8 + (byteAt p (i + 3)).toNat := by
  rw [listBE32, toNat_be32]
  omega

/-! ## The record a setter appends (spec/42_option_codec.md R260, R264) -/

theorem rawSize_append_singleton (os : List OptRec) (o : OptRec) : rawSize (os ++ [o]) = rawSize os + optCost o := by
  rw [rawSize_append, rawSize_cons, rawSize_nil, Nat.add_zero]

/-- Only a TAG_SACK_OK record is charged a length byte without a payload (spec/41_option_list.md R220). -/
theorem optCost_of_tag_ne {o : OptRec} (h : o.tag ≠ Config.tagSackOk) :
    optCost o = if o.payload.length = 0 then 1 else 2 + o.payload.length := by
  simp only [optCost_eq, h, or_false, ne_eq, ite_not, List.length_eq_zero_iff]

section
variable {i : Instr} {s : State} {tag : Byte}

/-- The two outcomes of `addTyped` are the two clauses of `AppendsTyped`. -/
theorem appendsTyped_of_addTyped (hs : s.valid = true) {p : List Byte} {vs : List Nat} {r : Nat}
    (he : exec i s = addTyped tag p s) (hp : p.map BitVec.toNat = vs)
    (hr : optCost ⟨tag, p, BitVec.ofNat 8 p.length⟩ = r) : AppendsTyped i s tag vs r := by
  subst hp
  rw [AppendsTyped, map_ofNat_map_toNat, List.length_map, rawSize_append_singleton, hr]
  exact ⟨fun hfull => he.trans ((addTyped_cases ..).mpr (.inr ⟨hs, .inl ⟨hfull, rfl⟩⟩)),
    fun hroom => he.trans ((addTyped_cases ..).mpr (.inr ⟨hs, .inr ⟨hroom, rfl⟩⟩)), rfl⟩

/-! ## The branches of a getter (spec/42_option_codec.md R260) -/

section
variable {good : Nat → Bool} {absent : Result} {k : List Byte → Result} {o : OptRec}

theorem exec_of_readTyped_absent (hs : s.valid = true) (he : exec i s = readTyped tag good absent k s)
    (h : Absent s.opts tag) : exec i s = absent := by
  have hnone : firstOpt s.opts tag = none := (firstOpt_eq_none_iff ..).mpr h
  rw [he, readTyped, withSegment_of_valid hs, hnone]

/-- The length of the first record's payload decides between the getter's value and TYPED_BAD_LENGTH. -/
theorem exec_of_readTyped_firstIs (hs : s.valid = true) (he : exec i s = readTyped tag good absent k s)
    (ho : FirstIs s.opts tag o) :
    exec i s = if good o.payload.length then k o.payload else raiseFault .typedBadLength s := by
  have hsome : firstOpt s.opts tag = some o := (firstOpt_eq_some_iff ..).mpr ho
  rw [he, readTyped, withSegment_of_valid hs, hsome]

theorem exec_of_readTyped_badLength (hs : s.valid = true) (he : exec i s = readTyped tag good absent k s)
    (ho : FirstIs s.opts tag o) (hl : good o.payload.length = false) :
    exec i s = .next (faulted .typedBadLength s) := by
  rw [exec_of_readTyped_firstIs hs he ho, hl]
  rfl

theorem exec_of_readTyped_goodLength (hs : s.valid = true) (he : exec i s = readTyped tag good absent k s)
    (ho : FirstIs s.opts tag o) (hl : good o.payload.length = true) : exec i s = k o.payload :=
  (exec_of_readTyped_firstIs hs he ho).trans (if_pos hl)

end

/-! ## Each getter as `readTyped` (spec/42_option_codec.md R267, R270, R271) -/

theorem exec_getMss (s : State) :
    exec .getMss s =
      readTyped Config.tagMss (· == 2) (finishWith 0#32 s) (fun p => finishWith (zext32 (listBE16 p 0)) s) s := rfl

theorem exec_getSack (s : State) :
    exec .getSack s = readTyped Config.tagSack (· % 4 == 0) (raiseError .optionNotFound s)
      (fun p => copyOut s.arg0.toNat p (finishWith (resultOfNat (p.length / 4))) s) s := rfl

theorem exec_getTimestamp (s : State) :
    exec .getTimestamp s = readTyped Config.tagTsopt (· == 8) (raiseError .optionNotFound s)
      (fun p => finishWith2 (listBE32 p 0) (listBE32 p 4) s) s := rfl

/-! ## Getters of one value -/

theorem returns_of_finishWith {v : Word} {n : Nat} (he : exec i s = finishWith v s) (hv : v.toNat = n) :
    Returns i s n :=
  ⟨v, he.trans ((finishWith_eq_next ..).mpr rfl), hv⟩

/-- A getter of one value (spec/42_option_codec.md R267, R268, R272): 0 when absent, TYPED_BAD_LENGTH when the payload
is not `n` bytes long, else the number of the decoded value. -/
theorem valueGetter_rule (hs : s.valid = true) {n : Nat} {f : List Byte → Word}
    (he : exec i s = readTyped tag (· == n) (finishWith 0#32 s) (fun p => finishWith (f p) s) s) :
    (Absent s.opts tag → Returns i s 0) ∧
      ∀ o, FirstIs s.opts tag o →
        (o.payload.length ≠ n → exec i s = .next (faulted .typedBadLength s)) ∧
        (o.payload.length = n → Returns i s (f o.payload).toNat) :=
  ⟨fun h => returns_of_finishWith (exec_of_readTyped_absent hs he h) rfl,
    fun _ ho => ⟨fun hl => exec_of_readTyped_badLength hs he ho (beq_false_of_ne hl),
      fun hl => returns_of_finishWith (exec_of_readTyped_goodLength hs he ho (beq_iff_eq.mpr hl)) rfl⟩⟩

/-- A getter of the one byte of a payload (spec/42_option_codec.md R268, R272). -/
theorem byteGetter_rule (hs : s.valid = true)
    (he : exec i s = readTyped tag (· == 1) (finishWith 0#32 s) (fun p => finishWith (zext32 (byteAt p 0)) s) s) :
    (Absent s.opts tag → Returns i s 0) ∧
      ∀ o, FirstIs s.opts tag o →
        (o.payload.length ≠ 1 → exec i s = .next (faulted .typedBadLength s)) ∧
        ∀ x, o.payload = [x] → Returns i s x.toNat := by
  obtain ⟨habsent, hfirst⟩ := valueGetter_rule hs he
  refine ⟨habsent, fun o ho => ⟨(hfirst o ho).1, fun x hx => ?_⟩⟩
  have hret := (hfirst o ho).2 (by rw [hx]; rfl)
  rwa [hx, toNat_zext32 (by decide)] at hret

end

end Sys2Proof.Machine
end

section
open Sys2Proof Sys2Proof.Machine Sys2Proof.Claims

/-- Settles O40: each setter is `addTyped` of its tag and the big-endian bytes of its arguments. -/
theorem typedSettersAppend : Obligations.TypedSettersAppend := by
  iterate 5 refine ⟨command_of_encode rfl, ?_⟩
  intro s hs
  have htime : (toBE32 s.arg0 ++ toBE32 s.arg1).map BitVec.toNat = _ :=
    List.map_append.trans (congrArg₂ (· ++ ·) (map_toNat_toBE32 s.arg0) (map_toNat_toBE32 s.arg1))
  exact ⟨appendsTyped_of_addTyped hs rfl (map_toNat_toBE16_low16 s.arg0) rfl,
    appendsTyped_of_addTyped hs rfl (congrArg ([·]) (toNat_low8 s.arg0)) rfl,
    appendsTyped_of_addTyped hs rfl rfl rfl,
    appendsTyped_of_addTyped hs rfl htime rfl,
    appendsTyped_of_addTyped hs rfl (congrArg ([·]) (toNat_low8 s.arg0)) rfl⟩

/-- Settles O41: past the operand check the command is a buffer read, whose bytes are appended with their own length. -/
theorem setSackAppendsTheValues : Obligations.SetSackAppendsTheValues := by
  refine ⟨command_of_encode rfl, fun s hs => ⟨fun hn => ?_, fun hn hr => ?_, fun hn hfit hu => ?_,
    fun p hlen hn hfit hp => ?_⟩⟩
  · exact exec_of_operandRange rfl hs hn
  · exact (exec_of_operandFits rfl hs hn).trans (withBytes_of_range hr)
  · exact (exec_of_operandFits rfl hs hn).trans (withBytes_of_uninit hfit hu)
  · have he : exec .setSack s = appendOpt ⟨5#8, p, BitVec.ofNat 8 p.length⟩ s :=
      (exec_of_operandFits rfl hs hn).trans (withBytes_of_holdsAt hlen hfit hp)
    rw [← hlen, rawSize_append_singleton, optCost_of_tag_ne (show (5#8 : Byte) ≠ Config.tagSackOk by decide)]
    exact ⟨fun hfull => he.trans ((appendOpt_cases ..).mpr (.inl ⟨hfull, rfl⟩)),
      fun hroom => ⟨he.trans ((appendOpt_cases ..).mpr (.inr ⟨hroom, rfl⟩)), rfl⟩⟩

/-- Settles O42: three getters of one value, and HAS_SACK_OK, which asks only whether the lookup finds a record. -/
theorem typedGettersDecodeTheFirstRecord : Obligations.TypedGettersDecodeTheFirstRecord := by
  iterate 4 refine ⟨command_of_encode rfl, ?_⟩
  intro s hs
  refine ⟨?_, byteGetter_rule hs rfl, ⟨fun h => ?_, fun o ho => ?_⟩, byteGetter_rule hs rfl⟩
  · obtain ⟨habsent, hfirst⟩ := valueGetter_rule hs (exec_getMss s)
    refine ⟨habsent, fun o ho => ⟨(hfirst o ho).1, fun x y hxy => ?_⟩⟩
    have hret := (hfirst o ho).2 (by rw [hxy]; rfl)
    rw [hxy, toNat_zext32 (by decide)] at hret
    exact toNat_be16 x y ▸ hret
  · have hnone : firstOpt s.opts Config.tagSackOk = none := (firstOpt_eq_none_iff ..).mpr h
    exact returns_of_finishWith (withSegment_of_valid hs _) (by rw [hnone]; rfl)
  · have hsome : firstOpt s.opts Config.tagSackOk = some o := (firstOpt_eq_some_iff ..).mpr ho
    exact returns_of_finishWith (withSegment_of_valid hs _) (by rw [hsome]; rfl)

/-- Settles O43: a payload of a good length is copied out behind the room check. -/
theorem getSackCopiesTheValues : Obligations.GetSackCopiesTheValues := by
  refine ⟨command_of_encode rfl, fun s hs => ⟨exec_of_readTyped_absent hs (exec_getSack s), fun o ho => ?_⟩⟩
  have hcopy (hl : o.payload.length % 4 = 0) : exec .getSack s =
      copyOut s.arg0.toNat o.payload (finishWith (resultOfNat (o.payload.length / 4))) s :=
    exec_of_readTyped_goodLength hs (exec_getSack s) ho (by simpa using hl)
  exact ⟨fun hl => exec_of_readTyped_badLength hs (exec_getSack s) ho (by simpa using hl),
    fun hl hr => (hcopy hl).trans (withRoom_of_range hr _),
    fun hl hfit => ⟨_, _, (hcopy hl).trans (withRoom_of_fits hfit _), storedAt_memWrite .., toNat_resultOfNat⟩⟩

/-- Settles O44: a payload of eight bytes is two big-endian words. -/
theorem getTimestampReturnsBothHalves : Obligations.GetTimestampReturnsBothHalves := by
  refine ⟨command_of_encode rfl, fun s hs => ⟨exec_of_readTyped_absent hs (exec_getTimestamp s), fun o ho =>
    ⟨fun hl => exec_of_readTyped_badLength hs (exec_getTimestamp s) ho (by simpa using hl),
      fun a b c d e f g h hp => ?_⟩⟩⟩
  have he : exec .getTimestamp s = finishWith2 (listBE32 o.payload 0) (listBE32 o.payload 4) s :=
    exec_of_readTyped_goodLength hs (exec_getTimestamp s) ho (by rw [hp]; rfl)
  rw [hp] at he
  exact ⟨_, _, he.trans ((finishWith2_eq_next ..).mpr rfl), toNat_listBE32 _ 0, toNat_listBE32 _ 4⟩

end

section
/-! SUPPORT. The rules of SERIALIZE (spec/44_serializer.md): the encoding of a record and of a list, the bytes of the header
written as numbers, and the checksum for each parent kind. -/

namespace Sys2Proof.Machine

/-! ## Option encoding (spec/44_serializer.md R341, R342) -/

section
variable {o : OptRec}

theorem encOpt_of_single (h : o.tag = Config.tagEol ∨ o.tag = Config.tagNop) : encOpt o = [o.tag] := if_pos h

theorem encOpt_of_multi (h : ¬(o.tag = Config.tagEol ∨ o.tag = Config.tagNop)) :
    encOpt o = o.tag :: lengthByte o :: o.payload := if_neg h

/-- The length byte of a true length counts the tag and itself, modulo 256. -/
theorem lengthByte_of_true (h : o.lenfield.toNat = o.payload.length) :
    lengthByte o = BitVec.ofNat 8 ((o.lenfield.toNat + 2) % 256) := by
  rw [lengthByte, if_pos h]
  apply BitVec.eq_of_toNat_eq
  simp

theorem lengthByte_of_spoofed (h : o.lenfield.toNat ≠ o.payload.length) : lengthByte o = o.lenfield := if_neg h

end

/-! ## The header (spec/44_serializer.md R344, R345, R349) -/

/-- The second of two updates of a field is the one that stays. -/
theorem hdrPut16_hdrPut16 (h : Header) (i : Nat) (v w : BitVec 16) (hi : i + 1 < 20) :
    hdrPut16 (hdrPut16 h i v hi) i w hi = hdrPut16 h i w hi := by
  ext1 j hj
  simp only [getElem_hdrPut16]
  split_ifs <;> rfl

/-- Clearing the checksum field of the header written gives back the header the sum is taken over. -/
theorem clear_serializedHeader (ph : Option Nat) (s : State) :
    ((serializedHeader ph s).set 16 0#8).set 17 0#8 = clearedHeader s := by
  change hdrPut16 (serializedHeader ph s) 16 0#16 = clearedHeader s
  rw [serializedHeader, clearedHeader, hdrPut16_hdrPut16, hdrPut16_hdrPut16]

/-- The bytes of the header written, as numbers. -/
theorem toNat_getElem_serializedHeader (ph : Option Nat) {s : State} (h : alignedSize s.opts ≤ 40) (j : Nat) (hj : j < 20) :
    (serializedHeader ph s)[j].toNat =
      if j = 12 then (20 + alignedSize s.opts) / 4 * 16 + s.hdr[12].toNat % 16
      else if j = 16 then (segmentChecksum ph s).toNat / 256
      else if j = 17 then (segmentChecksum ph s).toNat % 256 else s.hdr[j].toNat := by
  have hdoff : headerSize s.opts / 4 % 2 ^ 4 = (20 + alignedSize s.opts) / 4 := by
    rw [headerSize, Config.fixedHdr]
    omega
  have hhigh : (segmentChecksum ph s).toNat / 2 ^ 8 % 2 ^ 8 = (segmentChecksum ph s).toNat / 256 := by
    have := (segmentChecksum ph s).isLt
    omega
  have hlow : (segmentChecksum ph s).toNat / 2 ^ 0 % 2 ^ 8 = (segmentChecksum ph s).toNat % 256 := by omega
  rw [getElem_serializedHeader]
  by_cases h16 : j = 16
  · subst h16
    exact (toNat_field ..).trans hhigh
  by_cases h17 : j = 17
  · subst h17
    exact (toNat_field ..).trans hlow
  by_cases h12 : j = 12
  · subst h12
    simp only [Nat.reduceEqDiff, if_false, if_true, toNat_nibbles, BitVec.toNat_ofNat, hdoff, toNat_lowNibble]
  · simp only [h12, h16, h17, if_false]

/-! ## The checksum (spec/44_serializer.md R346, R347) -/

/-- The ones-complement of a folded sum, as a number. -/
theorem toNat_checksumOf (ph : Nat) (seg : List Byte) : (checksumOf ph seg).toNat = 0xFFFF - fold (ph + wordSum seg) := by
  have hlt : fold (ph + wordSum seg) % 2 ^ 16 = fold (ph + wordSum seg) := Nat.mod_eq_of_lt (fold_spec _).1
  rw [checksumOf, BitVec.toNat_not, BitVec.toNat_ofNat, hlt]

/-- PARENT_KIND is read modulo 4 (spec/10_state.md R39). -/
theorem parentIp_eq (w : Word) :
    parentIp w = if w.toNat % 4 = 1 then some .ipv4 else if w.toNat % 4 = 2 then some .ipv6 else none := by
  have hk : w.toNat % 4 = (w.extractLsb' 0 2).toNat := by
    rw [toNat_field]
    omega
  rw [hk, parentIp]
  generalize w.extractLsb' 0 2 = k
  revert k
  decide

section
variable {s : State} (n : Nat)

/-- With a recognised parent the checksum is the complement of the sum over the segment whose checksum field is 0. -/
theorem toNat_segmentChecksum_of_parent {k : IpKind} (h : parentIp s.parentKind = some k) :
    (segmentChecksum (parentSum s n) s).toNat =
      0xFFFF - fold (Config.ph k (psrc s) (pdst s) n 6#8 + wordSum ((clearedHeader s).toList ++ bodyBytes s)) := by
  rw [parentSum, h]
  exact toNat_checksumOf ..

theorem segmentChecksum_of_no_parent (h : parentIp s.parentKind = none) :
    segmentChecksum (parentSum s n) s = 0#16 := by
  rw [parentSum, h]
  rfl

end

end Sys2Proof.Machine
end

section
open Sys2Proof Sys2Proof.Machine Sys2Proof.Claims

/-- Settles O50: each fault is one branch of what SERIALIZE can answer. -/
theorem serializeFaultsInOrder : Obligations.SerializeFaultsInOrder := by
  intro s hs
  have run {t : State} := (execSerialize_cases s t).mpr
  refine ⟨fun hr => run (.inr ⟨hs, .inl ⟨hr, rfl⟩⟩), fun hfit => ⟨fun h40 => ?_, fun h40 henc => ?_,
    fun h40 henc hcap => ?_⟩⟩
  · exact run (.inr ⟨hs, .inr ⟨hfit, .inl ⟨h40, rfl⟩⟩⟩)
  · exact run (.inr ⟨hs, .inr ⟨hfit, .inr (.inl ⟨h40, henc, rfl⟩)⟩⟩)
  · exact run (.inr ⟨hs, .inr ⟨hfit, .inr (.inr (.inl ⟨h40, henc, hcap, rfl⟩))⟩⟩)

/-- Settles O51: the encoding of a list is the encoding of its first record before that of the rest. -/
theorem optionsEncodeAsStated : Obligations.OptionsEncodeAsStated := by
  refine ⟨encOpts_nil, fun o os => ⟨fun htag => ?_, fun htag hlen => ?_, fun htag hlen => ?_⟩⟩ <;> rw [encOpts_cons]
  · rw [encOpt_of_single htag, List.singleton_append]
  · rw [encOpt_of_multi htag, lengthByte_of_true hlen, List.cons_append, List.cons_append]
  · rw [encOpt_of_multi htag, lengthByte_of_spoofed hlen, List.cons_append, List.cons_append]

/-- Settles O52: the state is the last branch of what SERIALIZE can answer; the bytes, the header and the checksum each
follow their own law, at the pseudo-header sum of the parent. -/
theorem serializeWritesTheSegment : Obligations.SerializeWritesTheSegment := by
  refine ⟨command_of_encode rfl, fun s hs hfit h40 henc hcap => ?_⟩
  let ph := parentSum s (totalSize s)
  have hck : (zext32 (segmentChecksum ph s)).toNat = (segmentChecksum ph s).toNat := toNat_zext32 (by decide) _
  have hkind := parentIp_eq s.parentKind
  refine ⟨memWrite s.mem s.arg0.toNat (serializedBytes ph s), serializedHeader ph s, zext32 (segmentChecksum ph s),
    resultOfNat (totalSize s), _, ?_, toNat_resultOfNat (hcap.trans_lt s.arg1.isLt), rfl, storedAt_memWrite ..,
    length_serializedBytes ph henc, ?_, ?_⟩
  · exact (execSerialize_cases s _).mpr (.inr ⟨hs, .inr ⟨hfit, .inr (.inr (.inr ⟨h40, henc, hcap,
      (serializeWith_eq_next ..).mpr rfl⟩))⟩⟩)
  · rw [hck]
    exact toNat_getElem_serializedHeader ph h40
  · rw [hck, clear_serializedHeader]
    refine ⟨fun h => ?_, fun h => ?_, fun h => ?_⟩
    · exact toNat_segmentChecksum_of_parent _ (by rw [hkind, if_pos h])
    · exact toNat_segmentChecksum_of_parent _ (by rw [hkind, if_neg (by omega), if_pos h])
    · have hnone : parentIp s.parentKind = none := by rw [hkind, if_neg (by omega), if_neg (by omega)]
      exact congrArg zext32 (segmentChecksum_of_no_parent _ hnone)

end

section
/-! SUPPORT. The rules of the response matcher and the inner layer (spec/45_matcher_inner.md): what the match tests, in
terms of the inbound bytes, and the end of each command with a segment held. -/

namespace Sys2Proof.Machine

open Sys2Proof.Claims

/-! ## What the match tests (spec/45_matcher_inner.md R390 to R392) -/

theorem be16_inj {x y x' y' : Byte} : be16 x y = be16 x' y' ↔ x = x' ∧ y = y' := by
  have := y.isLt
  have := y'.isLt
  simp only [← BitVec.toNat_inj, toNat_be16]
  omega

theorem headerEnd_eq_declaredEnd (b12 : Byte) : headerEnd b12 = declaredEnd b12 := by
  rw [headerEnd, toNat_highNibble, declaredEnd]

theorem byteAt_eq_getElem {b : List Byte} {i : Nat} (h : i < b.length) : byteAt b i = b[i] :=
  List.getD_eq_getElem b 0#8 h

section
variable {b : List Byte}

/-- Equal 16-bit ports are equal bytes. -/
theorem portsSwapped_iff (h : Header) (hb : 20 ≤ b.length) :
    portsSwapped h b = true ↔ (b[0] = h[2] ∧ b[1] = h[3]) ∧ b[2] = h[0] ∧ b[3] = h[1] := by
  simp (disch := omega) only [portsSwapped, listBE16, hdrBE16, byteAt_eq_getElem, Bool.and_eq_true, beq_iff_eq,
    be16_inj]

theorem innerAccepts_iff (i : Option Inner) (hb : 20 ≤ b.length) :
    innerAccepts i b = true ↔
      ∀ j, i = some j →
        Config.innerMatch j.origin j.bytes (b.drop (min (declaredEnd b[12]) b.length)) = true := by
  have hbound : boundary b = min (declaredEnd b[12]) b.length := by
    rw [boundary, byteAt_eq_getElem (by omega), headerEnd_eq_declaredEnd]
  cases i with
  | none => simp [innerAccepts]
  | some j => simp [innerAccepts, hbound]

/-- Fewer bytes than a fixed header never match (R391). -/
theorem matchesReply_of_short (s : State) (hb : b.length < 20) : matchesReply s b = false := by
  simp [matchesReply, Nat.not_le.mpr hb]

theorem matchesReply_iff (s : State) (hb : 20 ≤ b.length) :
    matchesReply s b = true ↔
      b[0] = s.hdr[2] ∧ b[1] = s.hdr[3] ∧ b[2] = s.hdr[0] ∧ b[3] = s.hdr[1] ∧
        ∀ i, s.inner = some i →
          Config.innerMatch i.origin i.bytes (b.drop (min (declaredEnd b[12]) b.length)) = true := by
  simp only [matchesReply, hb, decide_true, Bool.true_and, Bool.and_eq_true, portsSwapped_iff s.hdr hb,
    innerAccepts_iff s.inner hb, and_assoc]

end

/-! ## Each command with a segment held -/

section
variable {s : State}

theorem exec_matchResponse (hs : s.valid = true) :
    exec .matchResponse s =
      withBytes s s.arg0.toNat s.arg1.toNat fun b => finishWith (resultOfBool (matchesReply s b)) s :=
  withSegment_of_valid hs _

theorem exec_attachInner (hs : s.valid = true) :
    exec .attachInner s =
      withBytes s s.arg0.toNat s.arg1.toNat fun b => finishOk { s with inner := some ⟨.host, b⟩ } :=
  withSegment_of_valid hs _

theorem exec_innerRead_of_none (hs : s.valid = true) (h : s.inner = none) :
    exec .innerRead s = finishWith2 0#32 0#32 s :=
  (withSegment_of_valid hs _).trans (by rw [h])

theorem exec_innerRead_of_some (hs : s.valid = true) {i : Inner} (h : s.inner = some i) :
    exec .innerRead s =
      copyOut s.arg0.toNat i.bytes (finishWith2 (originWord i.origin) (resultOfNat i.bytes.length)) s :=
  (withSegment_of_valid hs _).trans (by rw [h])

theorem originWord_eq (o : Origin) : originWord o = if o = .raw then 1#32 else 3#32 := by
  cases o <;> rfl

end

end Sys2Proof.Machine
end

section
open Sys2Proof Sys2Proof.Machine Sys2Proof.Claims

/-- Settles O59: past the two buffer faults the result is the match itself, which fails below 20 bytes and otherwise is
the port swap and the inner layer's answer. -/
theorem matchResponseTestsPortsAndInner : Obligations.MatchResponseTestsPortsAndInner := by
  refine ⟨command_of_encode rfl, fun s hs => ⟨fun hr => ?_, fun hfit hu => ?_, fun b hlen hfit hp => ?_⟩⟩
  · exact (exec_matchResponse hs).trans (withBytes_of_range hr)
  · exact (exec_matchResponse hs).trans (withBytes_of_uninit hfit hu)
  · have returns {m : Bool} (hm : matchesReply s b = m) : Returns .matchResponse s (resultOfBool m).toNat :=
      returns_of_finishWith ((exec_matchResponse hs).trans (withBytes_of_holdsAt hlen hfit hp)) (by rw [hm])
    rw [← hlen]
    exact ⟨fun hb => returns (matchesReply_of_short s hb), fun hb =>
      ⟨fun h => returns ((matchesReply_iff s hb).mpr h),
        fun h => returns (Bool.eq_false_iff.mpr (mt (matchesReply_iff s hb).mp h))⟩⟩

/-- Settles O60: ATTACH_INNER is a buffer read, DETACH_INNER has no check to fail, and INNER_READ copies out what is
attached behind the room check. -/
theorem innerLayerAttachDetachRead : Obligations.InnerLayerAttachDetachRead := by
  refine ⟨command_of_encode rfl, command_of_encode rfl, command_of_encode rfl, fun s hs =>
    ⟨⟨fun hr => ?_, fun hfit hu => ?_, fun b hlen hfit hp => ?_⟩, ?_, fun hn => ?_, fun i hi =>
      ⟨fun hr => ?_, fun hfit => ⟨_, _, ?_, storedAt_memWrite .., toNat_resultOfNat⟩⟩⟩⟩
  · exact (exec_attachInner hs).trans (withBytes_of_range hr)
  · exact (exec_attachInner hs).trans (withBytes_of_uninit hfit hu)
  · exact (exec_attachInner hs).trans (withBytes_of_holdsAt hlen hfit hp)
  · exact (withSegment_of_valid hs _).trans ((finishOk_eq_next ..).mpr rfl)
  · exact (exec_innerRead_of_none hs hn).trans ((finishWith2_eq_next ..).mpr rfl)
  · exact (exec_innerRead_of_some hs hi).trans (withRoom_of_range hr _)
  · rw [← originWord_eq]
    exact (exec_innerRead_of_some hs hi).trans (withRoom_of_fits hfit _)

end

section
/-! SUPPORT. The two ends of a command that are not `ok` (spec/60_exceptions.md R430, R434), told apart by the state they
leave: a command that leaves FAULT = 1 wrote the fault fields alone, one that leaves an error code wrote that code alone. -/

namespace Sys2Proof.Machine

/-- From FAULT = 0, only fault entry ends with FAULT = 1 (spec/60_exceptions.md R434). -/
theorem exec_eq_of_fault {i : Instr} {s t : State} (hs : s.fault = none) (h : exec i s = .next t) (ht : t.fault ≠ none) :
    t = { s with fault := t.fault, faultInfo := s.cmd } := by
  rcases exec_ends h with ⟨c, rfl⟩ | ⟨_, -, rfl⟩ | ⟨_, _, _, _, _, _, _, rfl, -⟩
  · rfl
  · exact absurd hs ht
  · exact absurd hs ht

/-- Without a fault, only an error ends with a nonzero code (spec/60_exceptions.md R430). -/
theorem exec_eq_of_error {i : Instr} {s t : State} (h : exec i s = .next t) (hf : t.fault = none) (he : t.err ≠ .noError) :
    t = { s with err := t.err } := by
  rcases exec_ends h with ⟨c, rfl⟩ | ⟨_, -, rfl⟩ | ⟨_, _, _, _, _, _, _, rfl, -⟩
  · exact absurd hf (Option.some_ne_none c)
  · rfl
  · exact absurd rfl he

/-- A CMD write that faults, of a legal or an illegal word, stores the word and enters the fault (spec/60_exceptions.md
R434). -/
theorem writeCmd_eq_of_fault {s t : State} {w : Word} (hs : s.fault = none) (h : writeCmd w s = .next t)
    (ht : t.fault ≠ none) : t = { s with cmd := w, fault := t.fault, faultInfo := w } := by
  by_cases hd : ∃ i, decode w = .ok i
  · obtain ⟨i, hi⟩ := hd
    rw [writeCmd_ok hs hi] at h
    exact exec_eq_of_fault (s := { s with cmd := w }) hs h ht
  · rw [writeCmd_illegal hs (not_exists.mp hd)] at h
    cases h
    rfl

end Sys2Proof.Machine
end

section
open Sys2Proof Sys2Proof.Machine

/-- Settles O18: of the ends `exec_ends` lists, only fault entry sets FAULT, and a CMD write ends in one of them or in the
fault of an illegal word. -/
theorem faultEntryIsPrecise : Obligations.FaultEntryIsPrecise := by
  refine ⟨fun _ _ _ => exec_eq_of_fault, fun s t es w hs hp h ht => ?_⟩
  rw [step_writeCmd hp] at h
  exact writeCmd_eq_of_fault (s := { s with pending := es }) hs h ht

/-- Settles O19: of the ends `exec_ends` lists, an `ok` end clears the code and fault entry sets FAULT. -/
theorem errorsWriteOnlyTheErrorCode : Obligations.ErrorsWriteOnlyTheErrorCode :=
  fun _ _ _ _ => exec_eq_of_error

end

section
/-! SUPPORT. What the reset event sets, and what no other access clears: a recorded fault and the written bytes of BUF
(spec/70_reset_and_hazards.md R470). VALID is `step_keeps_valid`. -/

namespace Sys2Proof.Machine

open Sys2Proof.Claims

/-- The reset event gives the block the values of spec/10_state.md R53; the host's own record is not among them. -/
theorem resetValues_resetBlock (s : State) : ResetValues (resetBlock s) := resetGivesTheListedValues s.params

/-- No write makes a written byte unwritten: the range stored over holds the new bytes, the rest its old ones. -/
theorem memByte_memWrite_ne_none {m : Memory} {b : Nat} (h : memByte m b ≠ none) (a : Nat) (bs : List Byte) :
    memByte (memWrite m a bs) b ≠ none := by
  by_cases hb : b < a ∨ a + bs.length ≤ b
  · rwa [memByte_memWrite_outside bs m a b hb]
  · obtain ⟨k, rfl⟩ : ∃ k, b = a + k := Nat.exists_eq_add_of_le (by omega)
    rw [memByte_memWrite_inside bs m a k (by omega)]
    exact Option.some_ne_none _

theorem MemEffect_keeps_written {s : State} {m : Memory} (h : MemEffect s m) {a : Nat} (ha : memByte s.mem a ≠ none) :
    memByte m a ≠ none := by
  cases h with
  | same => exact ha
  | store bs _ => exact memByte_memWrite_ne_none ha _ bs

/-- No command makes a written byte of BUF unwritten. -/
theorem exec_keeps_written {i : Instr} {s t : State} (h : exec i s = .next t) {a : Nat} (ha : memByte s.mem a ≠ none) :
    memByte t.mem a ≠ none := by
  rcases exec_ends h with ⟨c, rfl⟩ | ⟨e, -, rfl⟩ | ⟨_, _, _, _, m, _, _, rfl, -, -, -, hm⟩
  · exact ha
  · exact ha
  · exact MemEffect_keeps_written hm ha

section
variable {s t : State} {e : HostEvent} {es : List HostEvent}

/-- No step but reset clears or replaces a recorded fault: a step that could write it starts from FAULT = 0. -/
theorem step_keeps_fault (hp : s.pending = e :: es) (he : e ≠ .reset) (h : step s = .next t) {c : FaultCause}
    (hc : s.fault = some c) : t.fault = some c := by
  have hs : s.fault ≠ none := by simp [hc]
  rcases step_cases hp he h with ⟨i, w, hf, -⟩ | ⟨w, hf, -⟩ | ⟨a, b, -, -, rfl⟩ |
    ⟨_, _, _, _, _, _, _, _, _, _, _, _, _, _, rfl⟩
  · exact absurd hf hs
  · exact absurd hf hs
  · exact hc
  · exact hc

/-- No step but reset makes a written byte of BUF unwritten. -/
theorem step_keeps_written (hp : s.pending = e :: es) (he : e ≠ .reset) (h : step s = .next t) {a : Nat}
    (ha : memByte s.mem a ≠ none) : memByte t.mem a ≠ none := by
  rcases step_cases hp he h with ⟨i, w, -, hx⟩ | ⟨w, -, rfl⟩ | ⟨addr, b, -, -, rfl⟩ |
    ⟨_, _, _, _, _, _, _, _, _, _, _, _, _, _, rfl⟩
  · exact exec_keeps_written hx ha
  · exact ha
  · exact memByte_memWrite_ne_none ha _ _
  · exact ha

end

end Sys2Proof.Machine
end

section
open Sys2Proof Sys2Proof.Machine

/-- Settles O13: the reset event is `resetBlock`, and by `step_cases` no other access clears FAULT, VALID or a written
byte. -/
theorem onlyResetClearsFaultValidAndBuffer : Obligations.OnlyResetClearsFaultValidAndBuffer := by
  refine ⟨fun s es hp => ⟨_, step_cons hp, resetValues_resetBlock _, rfl⟩, fun s t e es hp he h => ?_⟩
  exact ⟨fun _ => step_keeps_fault hp he h, step_keeps_valid hp he h, fun _ => step_keeps_written hp he h⟩

end

section
/-! SUPPORT. The encoder against the opcode map (spec/30_encoding.md R115): the row of an opcode makes only instructions
whose command word has that opcode. -/

namespace Sys2Proof

open Sys2Proof.Machine

/-- What the decoder reads from the row of `opc` encodes with `opc` and the operand the row was given. -/
def OpRow.EncodesWith (opc : Byte) : OpRow → Prop
  | .n i => encode i = commandWord opc 0x00#8
  | .t mk => ∀ tag, encode (mk tag) = commandWord opc tag
  | .f mk => ∀ f, encode (mk f) = commandWord opc (flagSub f)

/-- The encoder agrees with the opcode map row by row: GET_FLAG and SET_FLAG are the rows 22 and 23, the option commands with
a tag the rows 26 to 28, and behind the 46 rows stand the reserved opcodes. -/
theorem encodesWith_of_opcodeRow {opc : Byte} {row : OpRow} (h : opcodeRow opc = some row) : row.EncodesWith opc := by
  unfold opcodeRow at h
  split at h
  case h_22 | h_23 | h_26 | h_27 | h_28 => cases h; exact fun _ => rfl
  case h_47 => cases h
  all_goals cases h; exact rfl

/-- A SUB byte whose bits 7:3 are zero is the SUB byte of the flag index in its bits 2:0 (spec/30_encoding.md R112). -/
theorem flagSub_extractLsb' {sub : Byte} (h : sub.extractLsb' 3 5 = 0#5) : flagSub (sub.extractLsb' 0 3) = sub := by
  have hhigh : sub.toNat / 2 ^ 3 % 2 ^ 5 = 0 := by rw [← toNat_field, h]; rfl
  apply BitVec.eq_of_toNat_eq
  have := sub.isLt
  rw [toNat_flagSub, toNat_field]
  omega

/-- The SUB check yields an instruction that encodes with the SUB it was given. -/
theorem encode_of_decodeSub {opc sub : Byte} {row : OpRow} {i : Instr} (hrow : row.EncodesWith opc)
    (h : decodeSub row sub = .ok i) : encode i = commandWord opc sub := by
  cases row with
  | n j =>
    rw [decodeSub] at h
    split at h
    · next hs =>
      cases h
      rw [hs, hrow]
    · cases h
  | t mk =>
    cases h
    exact hrow sub
  | f mk =>
    rw [decodeSub] at h
    split at h
    · next hs =>
      cases h
      rw [hrow, flagSub_extractLsb' hs]
    · cases h

/-- A word the decoder accepts is the command word of what it reads: RSV is zero, so OPC and SUB are all of it. -/
theorem encode_of_decode {w : Word} {i : Instr} (h : decode w = .ok i) : encode i = w := by
  rw [decode] at h
  cases hrow : opcodeRow (opcField w) with
  | none => simp [hrow] at h
  | some row =>
    simp only [hrow] at h
    split at h
    · next hrsv => rw [encode_of_decodeSub (encodesWith_of_opcodeRow hrow) h, commandWord_fields hrsv]
    · cases h

end Sys2Proof
end

section
open Sys2Proof Sys2Proof.Machine

/-- Settles O1: the decoder on a built word is left with the SUB check of its row. -/
theorem decodeEncodeRoundTrip : Obligations.DecodeEncodeRoundTrip := decode_encode

/-- Settles O2: the encoder follows the row of the opcode map the decoder took, and RSV is zero. -/
theorem encodeDecodeRoundTrip : Obligations.EncodeDecodeRoundTrip := fun _ _ => encode_of_decode

/-- Settles O3: the opcode map and the ranges of the legality check agree opcode by opcode, and so do the SUB checks. -/
theorem decodableWordsAreLegalWords : Obligations.DecodableWordsAreLegalWords := decode_ok_iff

/-- Settles O4: eleven literal words, run through the decoder. -/
theorem listedCommandWordsDecode : Obligations.ListedCommandWordsDecode := by
  unfold Obligations.ListedCommandWordsDecode
  decide

end

section
/-! SUPPORT. The invariant along a step and at reset (spec/00_scope.md R16; spec/10_state.md R47, R52), and what a
faulted block keeps (spec/60_exceptions.md R436). -/

namespace Sys2Proof.Machine

/-- The reset state meets the invariant for parameters in their bounds: it holds no byte, no record and no inner layer. -/
theorem inv_resetWith {p : Params} (h : p.wf = true) : (State.resetWith p).Inv = true :=
  (inv_iff _).mpr ⟨h, rfl, rfl, Nat.zero_le _, nofun, rfl⟩

/-- Storing bytes inside BUF keeps the invariant. -/
theorem inv_bufWrite {s : State} {a : Nat} {bs : List Byte} (hfit : a + bs.length ≤ s.params.bufSize)
    (hs : s.Inv = true) : (bufWrite s a bs).Inv = true := by
  obtain ⟨hparams, hwf, hinside, hopts, hpayload, hinner⟩ := (inv_iff s).mp hs
  exact (inv_iff _).mpr ⟨hparams, memWrite_wf bs hwf a, memWrite_inside bs hinside hfit, hopts, hpayload, hinner⟩

/-- Every step keeps the invariant: an idle one changes nothing, reset gives the reset state, a command ends as
`exec_ends` says, and a host write stores at most one byte inside BUF. -/
theorem step_keeps_inv {s t : State} (hs : s.Inv = true) (h : step s = .next t) : t.Inv = true := by
  rcases hp : s.pending with _ | ⟨e, es⟩
  · rw [step_idle hp] at h
    cases h
    exact hs
  by_cases he : e = .reset
  · subst he
    rw [step_cons hp] at h
    cases h
    exact inv_resetWith ((inv_iff s).mp hs).1
  rcases step_cases hp he h with ⟨i, w, -, hx⟩ | ⟨w, -, rfl⟩ | ⟨a, b, -, hb, rfl⟩ |
    ⟨_, _, _, _, _, _, _, _, _, _, _, _, _, _, rfl⟩
  · exact inv_of_ends (exec_ends hx) hs
  · exact hs
  · obtain ⟨hlow, hhigh, -⟩ := (bufferAccess_iff ..).mp hb
    exact inv_bufWrite (s := { s with pending := es })
      (show a.toNat - 0x1000 + 1 ≤ s.params.bufSize by omega) hs
  · exact hs

/-- A faulted block keeps its segment, CMD, STATUS, FAULT_INFO and results: only a command or an illegal word writes
them, and neither is run (spec/60_exceptions.md R436). -/
theorem step_of_faulted {s t : State} {e : HostEvent} {es : List HostEvent} (hf : s.fault ≠ none)
    (hp : s.pending = e :: es) (he : e ≠ .reset) (h : step s = .next t) :
    t.valid = s.valid ∧ t.hdr = s.hdr ∧ t.opts = s.opts ∧ t.inner = s.inner ∧ t.cmd = s.cmd ∧ t.err = s.err ∧
      t.fault = s.fault ∧ t.faultInfo = s.faultInfo ∧ t.result0 = s.result0 ∧ t.result1 = s.result1 := by
  rcases step_cases hp he h with ⟨i, w, hn, -⟩ | ⟨w, hn, -⟩ | ⟨a, b, -, -, rfl⟩ |
    ⟨_, _, _, _, _, _, _, _, _, _, _, _, _, _, rfl⟩
  · exact absurd hn hf
  · exact absurd hn hf
  all_goals exact ⟨rfl, rfl, rfl, rfl, rfl, rfl, rfl, rfl, rfl, rfl⟩

end Sys2Proof.Machine
end

section
open Sys2Proof Sys2Proof.Machine

/-- Settles O25, by the kinds of step `step_cases` lists. -/
theorem stepKeepsTheInvariant : Obligations.StepKeepsTheInvariant := fun _ _ => step_keeps_inv

/-- Settles O26: the reset state is empty, whatever its parameters. -/
theorem resetMeetsTheInvariant : Obligations.ResetMeetsTheInvariant :=
  ⟨fun _ => inv_resetWith, inv_resetWith (by decide)⟩

/-- Settles O14: a faulted block runs no command and takes no illegal word. -/
theorem faultedBlockRunsNoCommand : Obligations.FaultedBlockRunsNoCommand := fun _ _ _ _ => step_of_faulted

/-- Settles O11: a read is a reply, with a fresh byte drawn where none was written. -/
theorem hostReadsChangeNothing : Obligations.HostReadsChangeNothing := by
  intro s t es width addr hp h
  obtain ⟨v, d, hread⟩ := hostRead_cases width addr { s with pending := es }
  rw [step_cons hp, perform, hread] at h
  cases h
  rfl

/-- Settles O22: each end of a command that `exec_ends` lists writes none of these fields. -/
theorem commandsKeepTheHostsRegisters : Obligations.CommandsKeepTheHostsRegisters := by
  intro i s t h
  rcases exec_ends h with ⟨c, rfl⟩ | ⟨e, -, rfl⟩ | ⟨_, _, _, _, _, _, _, rfl, -⟩ <;>
    exact ⟨rfl, rfl, rfl, rfl, rfl, rfl, rfl, rfl, rfl, rfl, rfl, rfl, rfl, rfl, rfl, rfl, rfl⟩

end

section
/-! SUPPORT. STATUS and the parent addresses as numbers (spec/10_state.md R37, R40). -/

namespace Sys2Proof.Machine

open Sys2Proof.Claims

theorem toNat_errCode (e : ErrCode) : (errCode e).toNat = errNumber e := by cases e <;> rfl

theorem toNat_causeCode (c : FaultCause) : (causeCode c).toNat = causeNumber c := by cases c <;> rfl

/-- Each field of STATUS adds its own number at its bit place (spec/10_state.md R37). -/
theorem toNat_statusWord (s : State) :
    (statusWord s).toNat =
      errNumber s.err + (if s.fault = none then 0 else 256) + ((s.fault.map causeNumber).getD 0) * 65536 +
        (if s.valid then 2 ^ 31 else 0) := by
  have hcause : ((s.fault.map causeCode).getD 0#8).toNat = (s.fault.map causeNumber).getD 0 := by
    cases s.fault with
    | none => rfl
    | some c => exact toNat_causeCode c
  have hfault : (BitVec.ofBool s.fault.isSome).toNat * 256 = if s.fault = none then 0 else 256 := by
    cases s.fault <;> simp
  have hvalid : (BitVec.ofBool s.valid).toNat * 2 ^ 31 = if s.valid then 2 ^ 31 else 0 := by
    cases s.valid <;> rfl
  rw [← hfault, ← hcause, ← hvalid, ← toNat_errCode]
  simp only [statusWord, toNat_append_lt, BitVec.toNat_ofNat]
  omega

/-- Four concatenated words, the first highest. -/
theorem toNat_append_words (a b c d : Word) :
    (a ++ b ++ c ++ d).toNat = a.toNat * 2 ^ 96 + b.toNat * 2 ^ 64 + c.toNat * 2 ^ 32 + d.toNat := by
  simp only [toNat_append_lt]
  omega

end Sys2Proof.Machine
end

section
open Sys2Proof Sys2Proof.Machine

/-- Settles O8: STATUS is a concatenation, and each part is the number of its field. -/
theorem statusIsTheSumOfItsFields : Obligations.StatusIsTheSumOfItsFields := toNat_statusWord

/-- Settles O53: both addresses are four concatenated registers. -/
theorem parentAddressesAreTheRegisters : Obligations.ParentAddressesAreTheRegisters :=
  fun _ => ⟨toNat_append_words .., toNat_append_words ..⟩

end

section
/-! SUPPORT. The steps of an assembler command line (spec/30_encoding.md R128): one per argument register and one for the
command word. -/

namespace Sys2Proof.Machine

open Sys2Proof.Claims

/-- A run of at least one step starts with that step. -/
theorem run_succ_of_next {M : Host.Core} {s t : M.State} (h : M.step s = .next t) (k : Nat) :
    M.run (k + 1) s = M.run k t := by
  rw [Host.Core.run, h]

/-- A run of one step is that step. -/
theorem run_one {M : Host.Core} (s : M.State) : M.run 1 s = M.step s := by
  rw [Host.Core.run]
  cases M.step s <;> rfl

theorem run_succ_of_step {s t : State} (h : step s = .next t) (k : Nat) :
    Host.Core.run core (k + 1) s = Host.Core.run core k t :=
  run_succ_of_next (M := core) (s := s) (t := t) h k

theorem run_one_eq_step (s : State) : Host.Core.run core 1 s = step s := run_one (M := core) s

/-- A register write at the head of the host's accesses is one step of a run. -/
theorem run_wr {addr : Word} {g : Word → State → State} (hw : WritesAs addr g) (s : State) (v : Word)
    (es : List HostEvent) (k : Nat) :
    Host.Core.run core (k + 1) ({ s with pending := wr addr v :: es } : State) =
      Host.Core.run core k (g v { s with pending := es }) :=
  run_succ_of_step (hw { s with pending := wr addr v :: es } es v rfl) k

theorem writesAs_arg0 : WritesAs 0x004#32 fun v s => { s with arg0 := v } :=
  writesAs_of_writeRegister rfl fun _ _ => rfl

theorem writesAs_arg1 : WritesAs 0x008#32 fun v s => { s with arg1 := v } :=
  writesAs_of_writeRegister rfl fun _ _ => rfl

theorem writesAs_arg2 : WritesAs 0x00C#32 fun v s => { s with arg2 := v } :=
  writesAs_of_writeRegister rfl fun _ _ => rfl

/-- The command word at the end of a line runs its instruction. -/
theorem run_commandWrite {s : State} (hf : s.fault = none) (i : Instr) (es : List HostEvent) :
    Host.Core.run core 1 ({ s with pending := commandWrite (encode i) :: es } : State) =
      exec i { s with pending := es, cmd := encode i } := by
  rw [run_one_eq_step, step_writeCmd rfl, writeCmd_ok (by exact hf) (decode_encode i)]

/-- No command reads more than the three argument registers (spec/30_encoding.md R114). -/
theorem argCount_le (i : Instr) : argCount i ≤ 3 := by
  cases i <;> exact Nat.le_of_ble_eq_true rfl

/-- The line's register writes are steps that write ARG0 on in order, and its last step runs the command. -/
theorem run_commandLine {s : State} (hf : s.fault = none) {i : Instr} {args : List Word} (hlen : args.length = argCount i)
    (es : List HostEvent) :
    Host.Core.run core (args.length + 1) ({ s with pending := commandLine i args ++ es } : State) =
      exec i { withArgs s args with pending := es, cmd := encode i } := by
  have hle : args.length ≤ 3 := hlen ▸ argCount_le i
  rw [commandLine, List.take_of_length_le hlen.le]
  match args with
  | [] => exact run_commandWrite hf i es
  | [a] => exact (run_wr writesAs_arg0 ..).trans (run_commandWrite (s := { s with arg0 := a }) hf i es)
  | [a, b] =>
    exact (run_wr writesAs_arg0 ..).trans <| (run_wr writesAs_arg1 { s with arg0 := a } ..).trans <|
      run_commandWrite (s := { s with arg0 := a, arg1 := b }) hf i es
  | [a, b, c] =>
    exact (run_wr writesAs_arg0 ..).trans <| (run_wr writesAs_arg1 { s with arg0 := a } ..).trans <|
      (run_wr writesAs_arg2 { s with arg0 := a, arg1 := b } ..).trans <|
      run_commandWrite (s := { s with arg0 := a, arg1 := b, arg2 := c }) hf i es
  | _ :: _ :: _ :: _ :: _ => exact absurd hle (by simp)

end Sys2Proof.Machine
end

section
open Sys2Proof Sys2Proof.Machine

/-- Settles O16: a step per argument, then the step of the command word. -/
theorem commandLineWritesArgsThenRuns : Obligations.CommandLineWritesArgsThenRuns :=
  fun _ _ _ es hf hlen => run_commandLine hf hlen es

end

section
/-! SUPPORT. PARSE against the wire format (spec/43_parser.md; spec/30_encoding.md R121, R122): the statements' words for a
parsed record and its wire form are the laws' own, what an accepted buffer is made of, and which buffers are refused. -/

namespace Sys2Proof.Machine

open Sys2Proof.Claims

/-! ## Wire records and their encoding -/

theorem wireRecord_iff_parsedShape (o : OptRec) : WireRecord o ↔ ParsedShape o := by
  rw [WireRecord, ParsedShape, Config.tagEol, Config.tagNop, not_or, and_assoc]

/-- A parsed record has a true length (spec/43_parser.md R305, R308). -/
theorem lenfield_of_wireRecord {o : OptRec} (h : WireRecord o) : o.lenfield.toNat = o.payload.length := by
  rcases h with ⟨-, hp, hl⟩ | ⟨-, -, -, hl⟩
  · rw [hp, hl]
    rfl
  · exact hl

theorem wireOpt_eq_encOpt {o : OptRec} (h : WireRecord o) : wireOpt o = encOpt o :=
  (encOpt_of_parsedShape ((wireRecord_iff_parsedShape o).mp h)).symm

theorem wireOpts_eq_encOpts {os : List OptRec} (h : ∀ o ∈ os, WireRecord o) : wireOpts os = encOpts os := by
  rw [wireOpts, encOpts, List.flatMap_congr fun o ho => wireOpt_eq_encOpt (h o ho)]

/-! ## The buffer of a successful parse -/

/-- The fixed header register is the first twenty bytes (spec/43_parser.md R302). -/
theorem toList_headerOfBytes {b : List Byte} (h : 20 ≤ b.length) : (headerOfBytes b).toList = b.take 20 := by
  refine List.ext_getElem (by simp [h]) fun j hj hj' => ?_
  rw [Vector.getElem_toList, getElem_headerOfBytes, byteAt_eq_getElem (by simp at hj; omega), List.getElem_take]

/-- The inner layer is the bytes past the header end, if there are any (spec/43_parser.md R309). -/
theorem trailing_eq_rawInner (b : List Byte) (hend : Nat) : trailing b hend = rawInner (b.drop hend) := by
  simp only [trailing, rawInner, List.drop_eq_nil_iff, ← Nat.not_lt, ite_not]

/-- An accepted buffer is the header, the wire forms of the options up to the declared header end, and the rest. -/
theorem bytes_of_parseSegment {b : List Byte} {p : Parsed} (h : parseSegment b = some p) :
    ∃ tail, b = p.hdr.toList ++ wireOpts p.opts ++ tail ∧ p.inner = rawInner tail ∧
      declaredEnd p.hdr[12] = 20 + (wireOpts p.opts).length ∧ ∀ o ∈ p.opts, WireRecord o := by
  obtain ⟨hlen, -, -, hhdr, hinner, hshape, hdrop, hend⟩ := parseSegment_sound h
  have hwire : ∀ o ∈ p.opts, WireRecord o := fun o ho => (wireRecord_iff_parsedShape o).mpr (hshape o ho)
  refine ⟨b.drop (headerEnd (byteAt b 12)), ?_, hinner.trans (trailing_eq_rawInner ..), ?_, hwire⟩
  · rw [hhdr, toList_headerOfBytes hlen, wireOpts_eq_encOpts hwire, List.append_assoc, ← hdrop, List.take_append_drop]
  · rw [hhdr, getElem_headerOfBytes, ← headerEnd_eq_declaredEnd, ← hend, wireOpts_eq_encOpts hwire]

/-! ## Refused buffers (spec/43_parser.md R302, R303, R306, R307) -/

theorem parseSegment_of_short {b : List Byte} (h : b.length < 20) : parseSegment b = none := if_pos h

theorem parseSegment_of_badEnd {b : List Byte} (hlen : 20 ≤ b.length)
    (h : headerEnd (byteAt b 12) < 20 ∨ b.length < headerEnd (byteAt b 12)) : parseSegment b = none :=
  (if_neg (Nat.not_lt.mpr hlen)).trans (if_pos h)

/-- When the option loop refuses, so does the parse. -/
theorem parseSegment_of_badOpts {b : List Byte}
    (h : parseOpts b (headerEnd (byteAt b 12)) (headerEnd (byteAt b 12) - 20) 20 = none) : parseSegment b = none := by
  have hfixed : Config.fixedHdr = 20 := rfl
  rw [parseSegment]
  simp only [hfixed, h]
  split_ifs <;> rfl

/-- The loop refuses at the first option that has no length byte, a length byte below 2 or a payload past the header
end, behind any number of well-formed ones. -/
theorem parseOpts_of_badOption {b : List Byte} {hend : Nat} {os : List OptRec} {t : Byte} {rest : List Byte}
    (hs : ∀ o ∈ os, ParsedShape o) (hsingle : ¬(t = Config.tagEol ∨ t = Config.tagNop))
    (hb : b.drop 20 = encOpts os ++ t :: rest) (hlt : 20 + (encOpts os).length < hend)
    (hbad : rest = [] ∨ ∃ l more, rest = l :: more ∧ (l.toNat < 2 ∨ hend < 20 + (encOpts os).length + l.toNat)) :
    parseOpts b hend (hend - 20) 20 = none := by
  obtain ⟨fuel, hfuel, hloop⟩ := parseOpts_encOpts b hend os hs 20 (hend - 20) (t :: rest) hb hlt.le le_rfl
  obtain ⟨fuel, rfl⟩ : ∃ f, fuel = f + 1 := Nat.exists_eq_add_one.mpr (by omega)
  have hdrop : b.drop (20 + (encOpts os).length) = t :: rest := by
    rw [← List.drop_drop, hb, List.drop_left]
  have htag : b[20 + (encOpts os).length]? = some t := getElem?_of_drop (k := 0) hdrop
  have hlength : b[20 + (encOpts os).length + 1]? = rest[0]? := getElem?_of_drop (k := 1) hdrop
  rw [hloop, parseOpts_bad hlt htag hsingle ?_, Option.map_none]
  rw [hlength]
  rcases hbad with rfl | ⟨l, more, rfl, hl⟩
  · exact .inl rfl
  · exact .inr ⟨l, rfl, hl⟩

/-! ## PARSE on a written buffer range (spec/43_parser.md R300, R310) -/

section
variable {s : State} {b : List Byte}

theorem exec_parse_of_none (hlen : b.length = s.arg1.toNat) (hfit : s.arg0.toNat + s.arg1.toNat ≤ s.params.bufSize)
    (hb : HoldsAt s.mem s.arg0.toNat b) (h : parseSegment b = none) :
    exec .parse s = .next { s with err := .malformedInput } :=
  (withBytes_of_holdsAt hlen hfit hb).trans (by rw [h]; rfl)

theorem exec_parse_of_some (hlen : b.length = s.arg1.toNat) (hfit : s.arg0.toNat + s.arg1.toNat ≤ s.params.bufSize)
    (hb : HoldsAt s.mem s.arg0.toNat b) {p : Parsed} (h : parseSegment b = some p) :
    exec .parse s =
      .next { s with hdr := p.hdr, opts := p.opts, inner := p.inner, valid := true, err := .noError } :=
  (withBytes_of_holdsAt hlen hfit hb).trans (by rw [h]; rfl)

end

/-- A PARSE that ends `ok` read a buffer range and accepted it. -/
theorem execParse_ok {s t : State} (h : exec .parse s = .next t) (hf : t.fault = none) (he : t.err = .noError) :
    ∃ b p, b.length = s.arg1.toNat ∧ s.arg0.toNat + s.arg1.toNat ≤ s.params.bufSize ∧ HoldsAt s.mem s.arg0.toNat b ∧
      parseSegment b = some p ∧
      t = { s with hdr := p.hdr, opts := p.opts, inner := p.inner, valid := true, err := .noError } := by
  change withBytes s _ _ _ = _ at h
  rcases withBytes_cases s _ _ _ with ⟨-, e⟩ | ⟨-, -, e⟩ | ⟨b, hb, hlen, -⟩
  · rw [(raiseFault_eq_next ..).mp (e.symm.trans h)] at hf
    cases hf
  · rw [(raiseFault_eq_next ..).mp (e.symm.trans h)] at hf
    cases hf
  · obtain ⟨hfit, -, hholds⟩ := (bufRead_eq_ok_iff ..).mp hb
    cases hp : parseSegment b with
    | none =>
      cases (exec_parse_of_none hlen hfit hholds hp).symm.trans h
      cases he
    | some p =>
      cases (exec_parse_of_some hlen hfit hholds hp).symm.trans h
      exact ⟨b, p, hlen, hfit, hholds, hp, rfl⟩

end Sys2Proof.Machine
end

section
open Sys2Proof Sys2Proof.Machine Sys2Proof.Claims

/-- Settles O46: the wire forms are encodings, and the option loop reads back every list it is given encoded. -/
theorem parseDecodesEveryWellFormedSegment : Obligations.ParseDecodesEveryWellFormedSegment := by
  intro s h os tail hwire hend hlen hfit hb
  have hshape : ∀ o ∈ os, ParsedShape o := fun o ho => (wireRecord_iff_parsedShape o).mp (hwire o ho)
  rw [wireOpts_eq_encOpts hwire] at hend hlen hb
  exact exec_parse_of_some hlen.symm hfit hb
    (parseSegment_encOpts h os tail hshape ((headerEnd_eq_declaredEnd _).trans hend))

/-- Settles O47: whatever the option loop accepts is the encoding of what it records. -/
theorem parseAcceptsOnlyWellFormedSegments : Obligations.ParseAcceptsOnlyWellFormedSegments := by
  intro s t _ h hf he
  obtain ⟨b, p, hlen, hfit, hb, hp, rfl⟩ := execParse_ok h hf he
  obtain ⟨tail, rfl, hinner, hend, hwire⟩ := bytes_of_parseSegment hp
  exact ⟨tail, hb, hlen, hfit, hend, hwire, by rw [hinner]⟩

/-- Settles O48: the two buffer faults, then one refusal for each way a buffer can be malformed. -/
theorem parseRejectsMalformedBuffers : Obligations.ParseRejectsMalformedBuffers := by
  intro s
  refine ⟨withBytes_of_range, withBytes_of_uninit, fun b hlen hfit hb => ⟨fun hn => ?_, fun h20 => ⟨fun hend => ?_,
    fun os t rest hwire ht0 ht1 hdrop hlt hle hbad => ?_⟩⟩⟩
  · exact exec_parse_of_none hlen hfit hb (parseSegment_of_short (hlen.trans_lt hn))
  · rw [← headerEnd_eq_declaredEnd, ← byteAt_eq_getElem, ← hlen] at hend
    exact exec_parse_of_none hlen hfit hb (parseSegment_of_badEnd h20 hend)
  · rw [← headerEnd_eq_declaredEnd, ← byteAt_eq_getElem, wireOpts_eq_encOpts hwire] at hlt hbad
    have hshape : ∀ o ∈ os, ParsedShape o := fun o ho => (wireRecord_iff_parsedShape o).mp (hwire o ho)
    exact exec_parse_of_none hlen hfit hb (parseSegment_of_badOpts
      (parseOpts_of_badOption hshape (not_or.mpr ⟨ht0, ht1⟩)
        (wireOpts_eq_encOpts hwire ▸ hdrop) hlt hbad))

/-- Settles O49: a parsed record costs at most its wire bytes, and the wire bytes end at the declared header end, which
is a multiple of 4 and at most 60. -/
theorem parsedSizesFitTheHeader : Obligations.ParsedSizesFitTheHeader := by
  intro s t _ h hf he
  obtain ⟨b, p, -, -, -, hp, rfl⟩ := execParse_ok h hf he
  obtain ⟨-, -, -, hend, hwire⟩ := bytes_of_parseSegment hp
  have hraw : rawSize p.opts ≤ (wireOpts p.opts).length :=
    wireOpts_eq_encOpts hwire ▸ rawSize_le_of_parsedShape fun o ho => (wireRecord_iff_parsedShape o).mp (hwire o ho)
  have halign : alignedSize p.opts ≤ (wireOpts p.opts).length :=
    alignedSize_le hraw (by rw [declaredEnd] at hend; omega)
  refine ⟨length_parsed_le hp, fun o ho => lenfield_of_wireRecord (hwire o ho), ?_, ?_⟩ <;> rw [hend]
  · exact Nat.add_le_add_left hraw 20
  · exact Nat.add_le_add_left halign 20

end

section
/-! SUPPORT. WordSum and Fold (spec/00_scope.md R23): both as the spec's own equations, and the sum of a byte string one of
whose words was replaced. -/

namespace Sys2Proof.Machine

/-! ## WordSum -/

theorem wordSum_singleton (x : Byte) : wordSum [x] = x.toNat * 256 := rfl

theorem wordSum_cons_cons (x y : Byte) (bs : List Byte) :
    wordSum (x :: y :: bs) = x.toNat * 256 + y.toNat + wordSum bs := rfl

/-- The big-endian word at index `i` of a byte string. -/
def wordAt (bs : List Byte) (i : Nat) : Nat := (bs.getD (2 * i) 0#8).toNat * 256 + (bs.getD (2 * i + 1) 0#8).toNat

/-- The word an odd last byte is the high byte of (spec/00_scope.md R23). -/
def lastWord (bs : List Byte) : Nat := if bs.length % 2 = 1 then (bs.getD (bs.length - 1) 0#8).toNat * 256 else 0

theorem wordAt_cons_cons_succ (x y : Byte) (bs : List Byte) (i : Nat) : wordAt (x :: y :: bs) (i + 1) = wordAt bs i := rfl

theorem lastWord_cons_cons (x y : Byte) (bs : List Byte) : lastWord (x :: y :: bs) = lastWord bs := by
  have hpar : (x :: y :: bs).length % 2 = bs.length % 2 := Nat.add_mod_right bs.length 2
  rw [lastWord, lastWord, hpar]
  split
  · obtain ⟨n, hn⟩ : ∃ n, bs.length = n + 1 := Nat.exists_eq_add_one.mpr (by omega)
    simp [hn]
  · rfl

/-- WordSum is the sum of the words, with an odd last byte as the high byte of one more. -/
theorem wordSum_eq_sum (bs : List Byte) :
    wordSum bs = ((List.range (bs.length / 2)).map (wordAt bs)).sum + lastWord bs := by
  induction bs using wordSum.induct with
  | case1 => rfl
  | case2 x =>
    have hlast : lastWord [x] = x.toNat * 256 := if_pos rfl
    simp [hlast, wordSum_singleton]
  | case3 x y rest ih =>
    have hlen : (x :: y :: rest).length / 2 = rest.length / 2 + 1 := Nat.add_div_right rest.length two_pos
    have hword : wordAt (x :: y :: rest) 0 = x.toNat * 256 + y.toNat := rfl
    have hwords : wordAt (x :: y :: rest) ∘ Nat.succ = wordAt rest := funext (wordAt_cons_cons_succ x y rest)
    rw [wordSum_cons_cons, ih, hlen, List.range_succ_eq_map, List.map_cons, List.map_map, List.sum_cons, hword, hwords,
      lastWord_cons_cons]
    omega

/-- Replacing the two bytes of a word changes the sum by the difference of the words. -/
theorem wordSum_set_word (n : Nat) :
    ∀ (bs : List Byte) (a b : Byte), 2 * n + 1 < bs.length →
      wordSum ((bs.set (2 * n) a).set (2 * n + 1) b) + wordAt bs n = wordSum bs + (a.toNat * 256 + b.toNat) := by
  induction n with
  | zero =>
    intro bs a b hn
    match bs, hn with
    | x :: y :: rest, _ =>
      change a.toNat * 256 + b.toNat + wordSum rest + (x.toNat * 256 + y.toNat) =
        x.toNat * 256 + y.toNat + wordSum rest + (a.toNat * 256 + b.toNat)
      omega
  | succ n ih =>
    intro bs a b hn
    match bs, hn with
    | x :: y :: rest, hn =>
      have hrest := ih rest a b (by simp only [List.length_cons] at hn; omega)
      rw [wordAt_cons_cons_succ, wordSum_cons_cons, Nat.add_assoc, ← hrest]
      exact Nat.add_assoc ..

/-! ## Fold -/

/-- Two folds agree when the values agree modulo 65535 and are zero together. -/
theorem fold_congr {x y : Nat} (hmod : x % 65535 = y % 65535) (hzero : x = 0 ↔ y = 0) : fold x = fold y := by
  obtain ⟨hx, hxmod, hxzero⟩ := fold_spec x
  obtain ⟨hy, hymod, hyzero⟩ := fold_spec y
  omega

/-- One round keeps what a sum folds to (spec/00_scope.md R23). -/
theorem fold_round (x : Nat) : fold (x % 65536 + x / 65536) = fold x :=
  fold_congr (by omega) (by omega)

/-- A part of a sum may be folded beforehand. -/
theorem fold_add_fold (x y : Nat) : fold (x + fold y) = fold (x + y) := by
  obtain ⟨-, hmod, hzero⟩ := fold_spec y
  exact fold_congr (by omega) (by omega)

end Sys2Proof.Machine
end

section
open Sys2Proof Sys2Proof.Machine

/-- Settles O54: WordSum two bytes at a time, Fold because a round keeps what `fold_spec` determines it by. -/
theorem wordSumAndFoldAsDefined : Obligations.WordSumAndFoldAsDefined := by
  refine ⟨wordSum_eq_sum, fun x => ?_⟩
  split
  · next h => exact foldRounds_small h x
  · exact (fold_round x).symm

/-- Settles O55: the three laws of `fold_spec`, and the fourth because they determine the result. -/
theorem foldLaws : Obligations.FoldLaws := by
  intro x y
  obtain ⟨hlow, hmod, hzero⟩ := fold_spec x
  exact ⟨hlow, hmod, hzero, fold_add_fold x y⟩

end

section
/-! SUPPORT. A field of HDR read after it was written (spec/40_lifecycle_header.md sections 3 to 5). -/

namespace Sys2Proof.Machine

open Sys2Proof.Claims

@[simp] theorem hdrBE16_hdrPut16 (h : Header) (i : Nat) (v : BitVec 16) (hi : i + 1 < 20) :
    hdrBE16 (hdrPut16 h i v hi) i hi = v := by
  simp [hdrBE16, getElem_hdrPut16]

@[simp] theorem hdrBE32_hdrPut32 (h : Header) (i : Nat) (v : Word) (hi : i + 3 < 20) :
    hdrBE32 (hdrPut32 h i v hi) i hi = v := by
  simp [hdrBE32, getElem_hdrPut32]

@[simp] theorem highNibble_hdrPutDoff (h : Header) (v : BitVec 4) : highNibble (hdrPutDoff h v)[12] = v := by
  rw [getElem_hdrPutDoff, if_pos rfl, highNibble_nibbles]

@[simp] theorem hdrFlag_hdrPutFlag (h : Header) (f : BitVec 3) (v : Bool) : hdrFlag (hdrPutFlag h f v) f = v := by
  rw [hdrFlag, getElem_hdrPutFlag, if_pos rfl, getLsbD_putBit, if_pos rfl]

/-- The combined flags are both parts of the 12-bit value written (spec/10_state.md R44). -/
@[simp] theorem hdrFlags12_hdrPutFlags12 (h : Header) (v : BitVec 12) : hdrFlags12 (hdrPutFlags12 h v) = v := by
  apply BitVec.eq_of_toNat_eq
  have := v.isLt
  simp only [toNat_hdrFlags12, getElem_hdrPutFlags12, Nat.reduceEqDiff, if_true, if_false, toNat_nibbles, toNat_field]
  omega

/-- A setter completes, and the getter of its field returns the number of what the field then holds. -/
theorem getter_after_setter {s : State} (hs : s.valid = true) {c g : Instr} {h : Header} {n k : Nat}
    {field : Header → BitVec n} (hc : exec c s = writeHeader h s) (hg : ∀ t, exec g t = readField (field t.hdr) t)
    (hk : (field h).toNat = k) (hn : n ≤ 32 := by decide) : ∃ t, exec c s = .next t ∧ Returns g t k :=
  ⟨_, exec_of_writeHeader hs hc, returns_of_readField (s := { s with hdr := h, err := .noError }) hs (hg _) hk hn⟩

end Sys2Proof.Machine
end

section
open Sys2Proof Sys2Proof.Machine Sys2Proof.Claims

/-- Settles O31: the field read is the one written, so the number is that of the bits of ARG0 it was given. -/
theorem getterReturnsWhatTheSetterStored : Obligations.GetterReturnsWhatTheSetterStored := by
  intro s hs
  have low (n : Nat) {hn : n + 1 < 20} (h : Header) :
      (hdrBE16 (hdrPut16 h n (low16 s.arg0) hn) n hn).toNat = s.arg0.toNat % 2 ^ 16 := by simp
  refine ⟨getter_after_setter hs rfl (field := (hdrBE16 · 0)) (fun _ => rfl) (low 0 _),
    getter_after_setter hs rfl (field := (hdrBE16 · 2)) (fun _ => rfl) (low 2 _),
    getter_after_setter hs rfl (field := (hdrBE32 · 4)) (fun _ => rfl) (by simp),
    getter_after_setter hs rfl (field := (hdrBE32 · 8)) (fun _ => rfl) (by simp),
    getter_after_setter hs rfl (field := fun h => highNibble h[12]) (fun _ => rfl) (by simp),
    getter_after_setter hs rfl (field := (hdrBE16 · 14)) (fun _ => rfl) (low 14 _),
    getter_after_setter hs rfl (field := (hdrBE16 · 16)) (fun _ => rfl) (low 16 _),
    getter_after_setter hs rfl (field := (hdrBE16 · 18)) (fun _ => rfl) (low 18 _),
    fun f => getter_after_setter hs rfl (field := fun h => BitVec.ofBool (hdrFlag h f)) (fun _ => rfl) ?_,
    getter_after_setter hs rfl (field := hdrFlags12) (fun _ => rfl) (by simp)⟩
  rw [hdrFlag_hdrPutFlag, BitVec.toNat_ofBool, bit0, toNat_getLsbD, pow_zero, Nat.div_one]

end

section
/-! SUPPORT. The state a SERIALIZE without a fault leaves (spec/44_serializer.md section 3): what a second SERIALIZE computes
from it, the sum of the bytes with the checksum filled in, and the wire form the bytes have. -/

namespace Sys2Proof.Machine

open Sys2Proof.Claims

/-! ## Bytes standing in BUF -/

/-- The bytes that stand at an offset are determined by their number. -/
theorem holdsAt_unique {m : Memory} {a : Nat} {bs cs : List Byte} (hlen : bs.length = cs.length) (hbs : HoldsAt m a bs)
    (hcs : HoldsAt m a cs) : bs = cs :=
  List.ext_getElem hlen fun k hk hk' => Option.some.inj ((hbs k hk).symm.trans (hcs k hk'))

/-- Storing bytes where they already stand changes no byte. -/
theorem memByte_memWrite_of_holdsAt {m : Memory} {a : Nat} {bs : List Byte} (h : HoldsAt m a bs) (b : Nat) :
    memByte (memWrite m a bs) b = memByte m b := by
  by_cases hb : b < a ∨ a + bs.length ≤ b
  · exact memByte_memWrite_outside bs m a b hb
  · obtain ⟨k, rfl⟩ : ∃ k, b = a + k := Nat.exists_eq_add_of_le (by omega)
    rw [memByte_memWrite_inside bs m a k (by omega), h k (by omega)]

/-! ## The state after a SERIALIZE -/

/-- The state a SERIALIZE that passed its checks leaves, at the pseudo-header sum of its parent (R340, R349). -/
def serialized (s : State) : State :=
  { bufWrite s s.arg0.toNat (serializedBytes (parentSum s (totalSize s)) s) with
    hdr := serializedHeader (parentSum s (totalSize s)) s
    result0 := resultOfNat (totalSize s)
    result1 := zext32 (segmentChecksum (parentSum s (totalSize s)) s)
    err := .noError }

/-- The four checks of SERIALIZE pass (R350), and a segment is held. -/
structure Serializable (s : State) : Prop where
  valid : s.valid = true
  fits : s.arg0.toNat + s.arg1.toNat ≤ s.params.bufSize
  short : alignedSize s.opts ≤ 40
  encoded : (encOpts s.opts).length ≤ alignedSize s.opts
  room : totalSize s ≤ s.arg1.toNat

theorem exec_serialize {s : State} (h : Serializable s) : exec .serialize s = .next (serialized s) :=
  (execSerialize_cases s _).mpr (.inr ⟨h.valid, .inr ⟨h.fits, .inr (.inr (.inr ⟨h.short, h.encoded, h.room,
    (serializeWith_eq_next ..).mpr rfl⟩))⟩⟩)

/-- A SERIALIZE that ends without a fault passed its checks. -/
theorem execSerialize_ok {s t : State} (h : exec .serialize s = .next t) (hf : t.fault = none) :
    Serializable s ∧ t = serialized s := by
  rcases (execSerialize_cases s t).mp h with
    ⟨-, rfl⟩ | ⟨hv, ⟨-, rfl⟩ | ⟨hfit, ⟨-, rfl⟩ | ⟨-, -, rfl⟩ | ⟨-, -, -, rfl⟩ | ⟨h40, henc, hcap, ht⟩⟩⟩
  iterate 5 cases hf
  exact ⟨⟨hv, hfit, h40, henc, hcap⟩, (serializeWith_eq_next ..).mp ht⟩

theorem toNat_result0_serialized {s : State} (h : Serializable s) : (serialized s).result0.toNat = totalSize s :=
  toNat_resultOfNat (h.room.trans_lt s.arg1.isLt)

theorem holdsAt_serialized (s : State) :
    HoldsAt (serialized s).mem s.arg0.toNat (serializedBytes (parentSum s (totalSize s)) s) :=
  (storedAt_memWrite ..).1

/-! ## A second SERIALIZE -/

/-- The header the second sum is taken over is the first one: the data offset is recomputed from the same list and the
checksum field is cleared again. -/
theorem clearedHeader_serialized (s : State) : clearedHeader (serialized s) = clearedHeader s := by
  ext1 j hj
  have hhdr : (serialized s).hdr = serializedHeader (parentSum s (totalSize s)) s := rfl
  have hopts : (serialized s).opts = s.opts := rfl
  rw [getElem_clearedHeader, getElem_clearedHeader, hhdr, hopts]
  by_cases hck : j = 16 ∨ j = 17
  · rw [if_pos hck, if_pos hck]
  · obtain ⟨h16, h17⟩ := not_or.mp hck
    simp only [getElem_serializedHeader, h16, h17, or_self, Nat.reduceEqDiff, if_false, if_true, lowNibble_nibbles]
    split_ifs <;> rfl

theorem segmentChecksum_serialized (ph : Option Nat) (s : State) :
    segmentChecksum ph (serialized s) = segmentChecksum ph s := by
  cases ph with
  | none => rfl
  | some ph =>
    change checksumOf ph ((clearedHeader (serialized s)).toList ++ bodyBytes s) = _
    rw [clearedHeader_serialized]
    rfl

theorem serializedHeader_serialized (ph : Option Nat) (s : State) :
    serializedHeader ph (serialized s) = serializedHeader ph s := by
  rw [serializedHeader, clearedHeader_serialized, segmentChecksum_serialized, serializedHeader]

theorem serializedBytes_serialized (ph : Option Nat) (s : State) :
    serializedBytes ph (serialized s) = serializedBytes ph s := by
  rw [serializedBytes, serializedHeader_serialized]
  rfl

/-- The second SERIALIZE stores the same bytes over themselves. -/
theorem serialized_serialized (s : State) :
    serialized (serialized s) =
      bufWrite (serialized s) s.arg0.toNat (serializedBytes (parentSum s (totalSize s)) s) := by
  have hsum : parentSum (serialized s) (totalSize (serialized s)) = parentSum s (totalSize s) := rfl
  rw [serialized, hsum, serializedBytes_serialized, serializedHeader_serialized, segmentChecksum_serialized]
  rfl

theorem serializable_serialized {s : State} (h : Serializable s) : Serializable (serialized s) :=
  ⟨h.valid, h.fits, h.short, h.encoded, h.room⟩

/-! ## The sum of the bytes written -/

/-- A word of a header's bytes is the 16-bit field at its place. -/
theorem wordAt_toList (h : Header) (i : Nat) (hi : 2 * i + 1 < 20) : wordAt h.toList i = (hdrBE16 h (2 * i) hi).toNat := by
  rw [wordAt, List.getD_eq_getElem _ _ (by simp; omega), List.getD_eq_getElem _ _ (by simp; omega), hdrBE16, toNat_be16]
  rfl

/-- Filling in the checksum adds it to the sum. -/
theorem wordSum_serializedBytes (ph : Option Nat) (s : State) :
    wordSum (serializedBytes ph s) =
      wordSum ((clearedHeader s).toList ++ bodyBytes s) + (segmentChecksum ph s).toNat := by
  have hck : wordAt (serializedHeader ph s).toList 8 = (segmentChecksum ph s).toNat := by
    rw [wordAt_toList _ 8 (by decide), serializedHeader, hdrBE16_hdrPut16]
  have hclear : ((serializedHeader ph s).toList.set 16 0#8).set 17 0#8 = (clearedHeader s).toList := by
    rw [← clear_serializedHeader ph s, Vector.toList_set, Vector.toList_set]
  have hset : wordSum (((serializedHeader ph s).toList.set 16 0#8).set 17 0#8) + _ = _ + 0 :=
    wordSum_set_word 8 _ 0#8 0#8 (by simp)
  rw [hclear, hck] at hset
  rw [serializedBytes, wordSum_append 10 _ _ (by simp), wordSum_append 10 _ _ (by simp)]
  omega

/-- With a parent the written bytes and the pseudo-header sum to all ones (spec/44_serializer.md section 3). -/
theorem fold_serializedBytes {s : State} {k : IpKind} (hk : parentIp s.parentKind = some k) (n : Nat) :
    fold (Config.ph k (psrc s) (pdst s) n 6#8 + wordSum (serializedBytes (parentSum s n) s)) = 0xFFFF := by
  rw [wordSum_serializedBytes, toNat_segmentChecksum_of_parent n hk, ← Nat.add_assoc]
  generalize Config.ph k (psrc s) (pdst s) n 6#8 + wordSum ((clearedHeader s).toList ++ bodyBytes s) = x
  rw [Nat.add_comm, ← fold_add_fold, Nat.sub_add_cancel (Nat.le_of_lt_succ (fold_spec x).1)]
  exact foldRounds_small (by decide) _

/-! ## The wire form of the bytes written -/

section
variable {o : OptRec} (h : RoundTripRecord o)
include h

theorem parsedShape_of_roundTripRecord (hlen : o.payload.length ≤ 253) : ParsedShape o := by
  obtain ⟨hlf, hsingle, -⟩ := h
  by_cases htag : o.tag = Config.tagEol ∨ o.tag = Config.tagNop
  · have hp := hsingle htag
    exact .inl ⟨htag, hp, BitVec.eq_of_toNat_eq (by rw [hlf, hp]; rfl)⟩
  · exact .inr ⟨htag, hlen, hlf⟩

/-- The bookkeeping charges such a record exactly its encoding. -/
theorem optCost_of_roundTripRecord : optCost o = (encOpt o).length := by
  obtain ⟨-, hsingle, hmulti⟩ := h
  rw [optCost_eq]
  by_cases htag : o.tag = Config.tagEol ∨ o.tag = Config.tagNop
  · have hne : o.tag ≠ Config.tagSackOk := by rcases htag with h | h <;> rw [h] <;> decide
    rw [encOpt_of_single htag, if_neg (by simp [hsingle htag, hne])]
    rfl
  · have hlong : o.payload ≠ [] ∨ o.tag = Config.tagSackOk :=
      or_iff_not_imp_left.mpr fun hp => ((or_assoc.mpr (hmulti (not_not.mp hp))).resolve_left htag)
    rw [encOpt_of_multi htag, if_pos hlong, List.length_cons, List.length_cons, Nat.add_comm]

end

theorem rawSize_of_roundTripRecords {os : List OptRec} (h : ∀ o ∈ os, RoundTripRecord o) :
    rawSize os = (encOpts os).length := by
  rw [rawSize, encOpts, List.length_flatMap, List.map_congr_left fun o ho => optCost_of_roundTripRecord (h o ho)]

/-- No record costs more than its list. -/
theorem optCost_le_rawSize {os : List OptRec} {o : OptRec} (h : o ∈ os) : optCost o ≤ rawSize os :=
  List.le_sum_of_mem (List.mem_map_of_mem h)

theorem length_payload_le_optCost (o : OptRec) : o.payload.length ≤ optCost o := by
  rw [optCost_eq]
  split
  · omega
  · next h => simp [not_not.mp (not_or.mp h).1]

/-- The record PARSE makes of a no-op padding byte (spec/43_parser.md R305). -/
def nopRec : OptRec := ⟨1#8, [], 0#8⟩

theorem wireRecord_nopRec : WireRecord nopRec := .inl ⟨.inr rfl, rfl, rfl⟩

theorem encOpts_replicate_nopRec (n : Nat) : encOpts (List.replicate n nopRec) = List.replicate n Config.tagNop := by
  induction n with
  | zero => rfl
  | succ n ih =>
    rw [List.replicate_succ, encOpts_cons, ih]
    rfl

/-- The option list PARSE reads from the bytes written: the old one, and a no-op record per padding byte. -/
def paddedOpts (os : List OptRec) : List OptRec := os ++ List.replicate (alignedSize os - rawSize os) nopRec

section
variable {os : List OptRec} (h : ∀ o ∈ os, RoundTripRecord o)
include h

/-- In an option region of at most 40 bytes every payload fits a length byte, so the padded list is one PARSE can make. -/
theorem wireRecord_of_mem_paddedOpts (hshort : alignedSize os ≤ 40) : ∀ o ∈ paddedOpts os, WireRecord o := by
  intro o ho
  rcases List.mem_append.mp ho with ho | ho
  · have hlen := length_payload_le_optCost o
    have hcost := optCost_le_rawSize ho
    have halign := (alignedSize_bounds os).2.1
    exact (wireRecord_iff_parsedShape o).mpr (parsedShape_of_roundTripRecord (h o ho) (by omega))
  · rw [List.eq_of_mem_replicate ho]
    exact wireRecord_nopRec

/-- The option region is the encoding of the padded list. -/
theorem optRegion_eq_encOpts : optRegion os = encOpts (paddedOpts os) := by
  rw [optRegion, ← rawSize_of_roundTripRecords h, paddedOpts, encOpts_append, encOpts_replicate_nopRec]

end

/-- PARSE of the bytes written reads the header as it is, the padded list and the inner bytes (spec/44_serializer.md
section 3). -/
theorem parse_serialized {s : State} (h : Serializable s) (hrec : ∀ o ∈ s.opts, RoundTripRecord o) :
    exec .parse { serialized s with arg1 := (serialized s).result0 } = .next { serialized s with
      arg1 := (serialized s).result0
      opts := paddedOpts s.opts
      inner := rawInner (innerBytes s.inner)
      valid := true
      err := .noError } := by
  have hwire := wireRecord_of_mem_paddedOpts hrec h.short
  have hopts : wireOpts (paddedOpts s.opts) = optRegion s.opts :=
    (wireOpts_eq_encOpts hwire).trans (optRegion_eq_encOpts hrec).symm
  have hbytes : (serialized s).hdr.toList ++ wireOpts (paddedOpts s.opts) ++ innerBytes s.inner =
      serializedBytes (parentSum s (totalSize s)) s := by
    rw [hopts, List.append_assoc]
    rfl
  have hlen := length_serializedBytes (parentSum s (totalSize s)) h.encoded
  have htotal := toNat_result0_serialized h
  refine parseDecodesEveryWellFormedSegment { serialized s with arg1 := (serialized s).result0 } (serialized s).hdr
    (paddedOpts s.opts) (innerBytes s.inner) hwire ?_ ?_ ?_ ?_
  · rw [hopts, length_optRegion h.encoded, ← headerEnd_eq_declaredEnd]
    exact headerEnd_serializedHeader _ h.short
  · rw [hbytes, hlen, htotal]
  · have := h.fits
    have := h.room
    simp only [htotal]
    change s.arg0.toNat + totalSize s ≤ s.params.bufSize
    omega
  · rw [hbytes]
    exact holdsAt_serialized s

end Sys2Proof.Machine
end

section
open Sys2Proof Sys2Proof.Machine Sys2Proof.Claims

/-- Settles O56: the bytes that stand at ARG0 are those written, and their sum is the cleared one plus its complement. -/
theorem serializedChecksumVerifies : Obligations.SerializedChecksumVerifies := by
  intro s t k bs _ h hf hk hlen hbs
  obtain ⟨hser, rfl⟩ := execSerialize_ok h hf
  rw [toNat_result0_serialized hser] at hlen
  obtain rfl := holdsAt_unique (hlen.trans (length_serializedBytes _ hser.encoded).symm) hbs (holdsAt_serialized s)
  rw [hlen]
  exact fold_serializedBytes hk (totalSize s)

/-- Settles O57: the second SERIALIZE computes the bytes that already stand there. -/
theorem serializeTwiceGivesTheSameBytes : Obligations.SerializeTwiceGivesTheSameBytes := by
  intro s t _ h hf
  obtain ⟨hser, rfl⟩ := execSerialize_ok h hf
  refine ⟨_, exec_serialize (serializable_serialized hser), ?_, ?_⟩ <;> rw [serialized_serialized]
  · rfl
  · exact memByte_memWrite_of_holdsAt (holdsAt_serialized s)

/-- Settles O58: the option region is the wire form of the padded list, so PARSE decodes it. -/
theorem parseOfSerializeIsTheSegment : Obligations.ParseOfSerializeIsTheSegment := by
  intro s t _ h hf hrec
  obtain ⟨hser, rfl⟩ := execSerialize_ok h hf
  have hvalid : (serialized s).valid = true := hser.valid
  rw [parse_serialized hser hrec, ← hvalid]
  rfl

end

section
/-! SUPPORT. How each command ends: the fault causes and error codes it can answer (spec/60_exceptions.md R431, R435) and the
BUF bytes it can change (spec/20_memory.md R86), in one case analysis. -/

namespace Sys2Proof.Machine

open Sys2Proof.Claims

/-- The commands that raise an error, by code (spec/60_exceptions.md R431). -/
def reportedBy (e : ErrCode) (i : Instr) : Bool :=
  match e, i with
  | .malformedInput, .parse | .optionNotFound, .getSack | .optionNotFound, .getTimestamp => true
  | _, _ => false

theorem eq_parse_of_reportedBy {i : Instr} (h : reportedBy .malformedInput i = true) : i = .parse := by
  cases i with
  | parse => rfl
  | _ => cases h

theorem eq_getter_of_reportedBy {i : Instr} (h : reportedBy .optionNotFound i = true) :
    i = .getSack ∨ i = .getTimestamp := by
  cases i with
  | getSack => exact .inl rfl
  | getTimestamp => exact .inr rfl
  | _ => cases h

/-- The answer `r` of a command run in `s` is fault entry with a cause in `F`, an error in `E`, or an `ok` end that leaves
every BUF byte outside `[ARG0, ARG0 + n)`. -/
inductive EndsWithin (F : FaultCause → Bool) (E : ErrCode → Bool) (n : Nat) (s : State) : Result → Prop
  | fault (c : FaultCause) : F c = true → EndsWithin F E n s (raiseFault c s)
  | error (e : ErrCode) : E e = true → EndsWithin F E n s (raiseError e s)
  | ok (t : State) : t.fault = s.fault →
      (∀ a, a < s.arg0.toNat ∨ s.arg0.toNat + n ≤ a → memByte t.mem a = memByte s.mem a) →
      EndsWithin F E n s (finishOk t)

section
variable {F : FaultCause → Bool} {E : ErrCode → Bool} {n : Nat} {s : State}

/-- An `ok` end that writes no BUF byte. -/
theorem endsWithin_finishOk {t : State} (hf : t.fault = s.fault) (hm : t.mem = s.mem) : EndsWithin F E n s (finishOk t) :=
  .ok t hf fun _ _ => by rw [hm]

theorem endsWithin_finishWith (v : Word) : EndsWithin F E n s (finishWith v s) := endsWithin_finishOk rfl rfl

theorem endsWithin_finishWith2 (v w : Word) : EndsWithin F E n s (finishWith2 v w s) := endsWithin_finishOk rfl rfl

/-- An `ok` end that stores a byte string at ARG0. -/
theorem endsWithin_store {bs : List Byte} {t : State} (hf : t.fault = s.fault)
    (hm : t.mem = memWrite s.mem s.arg0.toNat bs) (hn : bs.length = n) : EndsWithin F E n s (finishOk t) :=
  .ok t hf fun a ha => by rw [hm, memByte_memWrite_outside bs _ _ a (hn ▸ ha)]

theorem endsWithin_ite {p : Prop} [Decidable p] {x y : Result} (hx : p → EndsWithin F E n s x)
    (hy : ¬p → EndsWithin F E n s y) : EndsWithin F E n s (if p then x else y) := by
  split
  · next h => exact hx h
  · next h => exact hy h

theorem endsWithin_withSegment {k : Result} (hc : F .noSegment = true) (hk : EndsWithin F E n s k) :
    EndsWithin F E n s (withSegment s k) :=
  endsWithin_ite (fun _ => hk) fun _ => .fault _ hc

theorem endsWithin_withRoom {a m : Nat} {k : Result} (hc : F .bufRange = true) (hk : EndsWithin F E n s k) :
    EndsWithin F E n s (withRoom s a m k) :=
  endsWithin_ite (fun _ => hk) fun _ => .fault _ hc

theorem endsWithin_withBytes {a m : Nat} {k : List Byte → Result} (hr : F .bufRange = true) (hu : F .bufUninit = true)
    (hk : ∀ bs, EndsWithin F E n s (k bs)) : EndsWithin F E n s (withBytes s a m k) := by
  rcases withBytes_cases s a m k with ⟨-, e⟩ | ⟨-, -, e⟩ | ⟨bs, -, -, e⟩ <;> rw [e]
  · exact .fault _ hr
  · exact .fault _ hu
  · exact hk bs

theorem endsWithin_appendOpt (hc : F .optCapacity = true) (o : OptRec) : EndsWithin F E n s (appendOpt o s) :=
  endsWithin_ite (fun _ => .fault _ hc) fun _ => endsWithin_finishOk rfl rfl

theorem endsWithin_addTyped (hs : F .noSegment = true) (hc : F .optCapacity = true) (tag : Byte) (p : List Byte) :
    EndsWithin F E n s (addTyped tag p s) :=
  endsWithin_withSegment hs (endsWithin_appendOpt hc _)

theorem endsWithin_writeHeader (hs : F .noSegment = true) (h : Header) : EndsWithin F E n s (writeHeader h s) :=
  endsWithin_withSegment hs (endsWithin_finishOk rfl rfl)

theorem endsWithin_readField (hs : F .noSegment = true) {m : Nat} (v : BitVec m) : EndsWithin F E n s (readField v s) :=
  endsWithin_withSegment hs (endsWithin_finishWith _)

theorem endsWithin_returnOption (hr : F .bufRange = true) {o : OptRec} (hn : o.payload.length = n) :
    EndsWithin F E n s (returnOption o s) :=
  endsWithin_withRoom hr (endsWithin_store rfl rfl hn)

theorem endsWithin_readTyped {tag : Byte} {good : Nat → Bool} {absent : Result} {k : List Byte → Result}
    (hs : F .noSegment = true) (hl : F .typedBadLength = true) (ha : EndsWithin F E n s absent)
    (hk : ∀ o, firstOpt s.opts tag = some o → EndsWithin F E n s (k o.payload)) :
    EndsWithin F E n s (readTyped tag good absent k s) := by
  refine endsWithin_withSegment hs ?_
  split
  · exact ha
  · next o ho => exact endsWithin_ite (fun _ => hk o ho) fun _ => .fault _ hl

end

/-- Every command ends in a fault or an error its rule lists, or `ok` with BUF changed only where its rule stores. -/
theorem exec_endsWithin (i : Instr) (s : State) :
    EndsWithin (raisedBy · i) (reportedBy · i) (storedLength i s) s (exec i s) := by
  cases i with
  | init => exact endsWithin_finishOk rfl rfl
  | parse =>
    refine endsWithin_withBytes rfl rfl fun bs => ?_
    split
    · exact .error _ rfl
    · exact endsWithin_finishOk rfl rfl
  | serialize =>
    refine endsWithin_withSegment rfl (endsWithin_withRoom rfl (endsWithin_ite (fun _ => .fault _ rfl) fun _ =>
      endsWithin_ite (fun _ => .fault _ rfl) fun henc => endsWithin_ite (fun _ => .fault _ rfl) fun _ => ?_))
    exact endsWithin_store rfl rfl (length_serializedBytes _ (Nat.not_lt.mp henc))
  | hdrSize | optCount | hasSackOk => exact endsWithin_withSegment rfl (endsWithin_finishWith _)
  | optSizes => exact endsWithin_withSegment rfl (endsWithin_finishWith2 _ _)
  | getSport | getDport | getSeq | getAck | getDoff | getWindow | getChecksum | getUrgptr | getFlag _ | getFlags =>
    exact endsWithin_readField rfl _
  | setSport | setDport | setSeq | setAck | setDoff | setWindow | setChecksum | setUrgptr | setFlag _ | setFlags =>
    exact endsWithin_writeHeader rfl _
  | addOption _ | setSack =>
    exact endsWithin_withSegment rfl (endsWithin_ite (fun _ => .fault _ rfl) fun _ =>
      endsWithin_withBytes rfl rfl fun _ => endsWithin_appendOpt rfl _)
  | removeOption _ =>
    refine endsWithin_withSegment rfl ?_
    split
    · exact endsWithin_finishWith _
    · exact endsWithin_finishOk rfl rfl
  | getOption tag =>
    refine endsWithin_withSegment rfl ?_
    split
    · exact endsWithin_finishWith2 _ _
    · next o ho => exact endsWithin_returnOption rfl (by simp [storedLength, ho])
  | getOptionAt =>
    refine endsWithin_withSegment rfl ?_
    split
    · exact endsWithin_finishWith2 _ _
    · next o ho => exact endsWithin_returnOption rfl (by simp [storedLength, ho])
  | setMss | setWscale | setSackOk | setTimestamp | setAltchk => exact endsWithin_addTyped rfl rfl _ _
  | getMss =>
    rw [exec_getMss]
    exact endsWithin_readTyped rfl rfl (endsWithin_finishWith _) fun _ _ => endsWithin_finishWith _
  | getWscale =>
    unfold exec execGetWscale
    exact endsWithin_readTyped rfl rfl (endsWithin_finishWith _) fun _ _ => endsWithin_finishWith _
  | getAltchk =>
    unfold exec execGetAltchk
    exact endsWithin_readTyped rfl rfl (endsWithin_finishWith _) fun _ _ => endsWithin_finishWith _
  | getSack =>
    rw [exec_getSack]
    refine endsWithin_readTyped rfl rfl (.error _ rfl) fun o ho => endsWithin_withRoom rfl ?_
    have hn : storedLength .getSack s = o.payload.length := congrArg (fun r => (r.map fun o => o.payload.length).getD 0) ho
    exact endsWithin_store rfl rfl hn.symm
  | getTimestamp =>
    rw [exec_getTimestamp]
    exact endsWithin_readTyped rfl rfl (.error _ rfl) fun _ _ => endsWithin_finishWith2 _ _
  | attachInner =>
    exact endsWithin_withSegment rfl (endsWithin_withBytes rfl rfl fun _ => endsWithin_finishOk rfl rfl)
  | detachInner => exact endsWithin_withSegment rfl (endsWithin_finishOk rfl rfl)
  | innerRead =>
    refine endsWithin_withSegment rfl ?_
    split
    · exact endsWithin_finishWith2 _ _
    · next j hj => exact endsWithin_withRoom rfl (endsWithin_store rfl rfl (by simp [storedLength, hj]))
  | matchResponse =>
    exact endsWithin_withSegment rfl (endsWithin_withBytes rfl rfl fun _ => endsWithin_finishWith _)

section
variable {F : FaultCause → Bool} {E : ErrCode → Bool} {n : Nat} {s t : State} {r : Result}

/-- None of these ends is a stop of the machine. -/
theorem EndsWithin.next (h : EndsWithin F E n s r) : ∃ t, r = .next t := by
  cases h <;> exact ⟨_, rfl⟩

/-- A fault that was not there is one of the causes allowed. -/
theorem EndsWithin.fault_mem (h : EndsWithin F E n s r) (hr : r = .next t) (hs : s.fault = none) {c : FaultCause}
    (ht : t.fault = some c) : F c = true := by
  cases h with
  | fault d hd =>
    rw [(raiseFault_eq_next ..).mp hr] at ht
    cases ht
    exact hd
  | error e _ =>
    rw [(raiseError_eq_next ..).mp hr] at ht
    cases hs.symm.trans ht
  | ok u hu _ =>
    rw [(finishOk_eq_next ..).mp hr] at ht
    cases (hu.trans hs).symm.trans ht

/-- An error code, without a fault, is one of the codes allowed. -/
theorem EndsWithin.err_mem (h : EndsWithin F E n s r) (hr : r = .next t) (hf : t.fault = none) (he : t.err ≠ .noError) :
    E t.err = true := by
  cases h with
  | fault c _ =>
    rw [(raiseFault_eq_next ..).mp hr] at hf
    cases hf
  | error e h =>
    rw [(raiseError_eq_next ..).mp hr]
    exact h
  | ok u _ _ =>
    rw [(finishOk_eq_next ..).mp hr] at he
    exact absurd rfl he

/-- No byte outside the range is changed. -/
theorem EndsWithin.memByte_eq (h : EndsWithin F E n s r) (hr : r = .next t) {a : Nat}
    (ha : a < s.arg0.toNat ∨ s.arg0.toNat + n ≤ a) : memByte t.mem a = memByte s.mem a := by
  cases h with
  | fault c _ => rw [(raiseFault_eq_next ..).mp hr]
  | error e _ => rw [(raiseError_eq_next ..).mp hr]
  | ok u _ hm =>
    rw [(finishOk_eq_next ..).mp hr]
    exact hm a ha

end

/-! ## Every step answers a next state (spec/70_reset_and_hazards.md R479) -/

theorem exec_next (i : Instr) (s : State) : ∃ t, exec i s = .next t ∧ t.params = s.params := by
  obtain ⟨t, h⟩ := (exec_endsWithin i s).next
  refine ⟨t, h, ?_⟩
  rcases exec_ends h with ⟨c, rfl⟩ | ⟨e, -, rfl⟩ | ⟨_, _, _, _, _, _, _, rfl, -⟩ <;> rfl

theorem writeCmd_next (w : Word) (s : State) : ∃ t, writeCmd w s = .next t ∧ t.params = s.params := by
  by_cases hf : s.fault = none
  · by_cases hd : ∃ i, decode w = .ok i
    · obtain ⟨i, hi⟩ := hd
      rw [writeCmd_ok hf hi]
      exact exec_next i { s with cmd := w }
    · exact ⟨_, writeCmd_illegal hf (not_exists.mp hd), rfl⟩
  · exact ⟨s, writeCmd_faulted hf w, rfl⟩

theorem hostWrite_next (width : Width) (addr v : Word) (s : State) :
    ∃ t, hostWrite width addr v s = .next t ∧ t.params = s.params := by
  rw [hostWrite]
  split
  · rcases writeRegister_cases addr.toNat v s with ⟨-, e⟩ | ⟨_, _, _, _, _, _, _, _, _, _, _, _, e⟩ <;> rw [e]
    · exact writeCmd_next v s
    · exact ⟨_, rfl, rfl⟩
  · split <;> exact ⟨_, rfl, rfl⟩

theorem perform_next (e : HostEvent) (s : State) : ∃ t, perform e s = .next t ∧ t.params = s.params := by
  cases e with
  | write width addr v => exact hostWrite_next width addr v s
  | read width addr =>
    obtain ⟨v, d, h⟩ := hostRead_cases width addr s
    exact ⟨_, h, rfl⟩
  | reset => exact ⟨_, rfl, rfl⟩

/-! ## A state for each cause the table lists (spec/60_exceptions.md R435) -/

/-- A block that holds an empty segment, BUF unwritten, every argument 0. -/
def heldBlock : State := { State.reset with valid := true }

/-- A state in which every command listed for the cause raises it; `tag` is the tag of a record it holds where the cause
is raised on a record found. -/
def raising (c : FaultCause) (tag : Byte) : State :=
  match c with
  | .illegalCommand => heldBlock
  | .noSegment => State.reset
  | .bufRange => { heldBlock with arg0 := 4097#32, opts := [⟨tag, [], 0#8⟩], inner := some ⟨.raw, []⟩ }
  | .bufUninit => { heldBlock with arg1 := 1#32 }
  | .operandRange => { heldBlock with arg1 := 256#32 }
  | .optCapacity => { heldBlock with opts := List.replicate 40 ⟨4#8, [], 0#8⟩ }
  | .outbufTooSmall => heldBlock
  | .optionsOverflow => { heldBlock with opts := List.replicate 21 ⟨4#8, [], 0#8⟩ }
  | .optionRegionOverrun => { heldBlock with opts := [⟨3#8, [7#8], 1#8⟩, ⟨9#8, [], 0#8⟩] }
  | .typedBadLength => { heldBlock with opts := [⟨tag, [1#8, 2#8, 3#8], 3#8⟩] }

/-- The tag of the record a command looks for, 0 where it looks for none. -/
def lookupTag : Instr → Byte
  | .getOption tag => tag
  | .getSack => 5#8
  | .getMss => 2#8
  | .getWscale => 3#8
  | .getTimestamp => 8#8
  | .getAltchk => 14#8
  | _ => 0#8

theorem raising_fault (c : FaultCause) (tag : Byte) : (raising c tag).fault = none := by cases c <;> rfl

/-- Every listed command raises the cause from its state. -/
theorem exec_raising {c : FaultCause} {i : Instr} (h : raisedBy c i = true) :
    exec i (raising c (lookupTag i)) = .next (faulted c (raising c (lookupTag i))) := by
  cases c with
  | illegalCommand => cases h
  | noSegment => exact exec_of_invalid (by rintro rfl; cases h) (by rintro rfl; cases h) rfl
  | bufRange =>
    cases i with
    | getOption tag =>
      have hfirst : FirstIs (raising .bufRange tag).opts tag ⟨tag, [], 0#8⟩ := ⟨[], [], rfl, nofun, rfl⟩
      have hrange : 4096 < 4097 + 0 := by decide
      exact (exec_getOption_of_firstIs rfl hfirst).trans ((returnOption_cases ..).mpr (.inl ⟨hrange, rfl⟩))
    | parse | serialize | addOption _ | setSack | attachInner | matchResponse | getOptionAt | getSack | innerRead => rfl
    | _ => cases h
  | bufUninit =>
    cases i with
    | parse | addOption _ | setSack | attachInner | matchResponse => rfl
    | _ => cases h
  | operandRange =>
    cases i with
    | addOption _ | setSack => rfl
    | _ => cases h
  | optCapacity =>
    cases i with
    | addOption _ | setMss | setWscale | setSackOk | setSack | setTimestamp | setAltchk => rfl
    | _ => cases h
  | outbufTooSmall | optionsOverflow | optionRegionOverrun =>
    cases i with
    | serialize => rfl
    | _ => cases h
  | typedBadLength =>
    cases i with
    | getMss | getWscale | getSack | getTimestamp | getAltchk => rfl
    | _ => cases h

end Sys2Proof.Machine
end

section
open Sys2Proof Sys2Proof.Machine

/-- Settles O15: the queue is empty, or its first access answers a next state. -/
theorem everyStepAnswersANextState : Obligations.EveryStepAnswersANextState := by
  intro s
  cases hp : s.pending with
  | nil => exact ⟨s, step_idle hp, rfl⟩
  | cons e es =>
    rw [step_cons hp]
    exact perform_next e { s with pending := es }

/-- Settles O20: a listed pair has a state that raises the cause, and no command ends in a cause its rule does not
list. -/
theorem faultCausesComeFromListedCommands : Obligations.FaultCausesComeFromListedCommands := by
  refine fun c i => ⟨fun h => ⟨_, _, raising_fault c (lookupTag i), exec_raising h, rfl⟩, ?_⟩
  rintro ⟨s, t, hs, h, ht⟩
  exact (exec_endsWithin i s).fault_mem h hs ht

/-- Settles O21: an empty buffer is malformed, an empty list has no record, and no other command reports either. -/
theorem errorsComeFromListedCommands : Obligations.ErrorsComeFromListedCommands := by
  have listed {i : Instr} {e : ErrCode} (hne : e ≠ .noError) :
      (∃ s t : State, s.fault = none ∧ exec i s = .next t ∧ t.fault = none ∧ t.err = e) → reportedBy e i = true := by
    rintro ⟨s, t, -, h, hf, rfl⟩
    exact (exec_endsWithin i s).err_mem h hf hne
  refine fun i => ⟨⟨fun h => eq_parse_of_reportedBy (listed (by decide) h), ?_⟩,
    ⟨fun h => eq_getter_of_reportedBy (listed (by decide) h), ?_⟩⟩
  · rintro rfl
    exact ⟨heldBlock, _, rfl, rfl, rfl, rfl⟩
  · rintro (rfl | rfl) <;> exact ⟨heldBlock, _, rfl, rfl, rfl, rfl⟩

/-- Settles O24: a command that stores bytes stores as many as its rule says, at ARG0. -/
theorem commandsStoreOnlyInTheirRange : Obligations.CommandsStoreOnlyInTheirRange :=
  fun i s _ _ h ha => (exec_endsWithin i s).memByte_eq h ha

end

section
/-! SUPPORT. The list before and after a command that adds or removes a record (spec/41_option_list.md sections 1 and 2), and
a typed getter on a list a setter has appended to (spec/42_option_codec.md section 1). -/

namespace Sys2Proof.Machine

open Sys2Proof.Claims

/-! ## Lookup -/

/-- A tag is absent, or some record is the first with it. -/
theorem absent_or_firstIs (opts : List OptRec) (tag : Byte) : Absent opts tag ∨ ∃ o, FirstIs opts tag o := by
  cases h : firstOpt opts tag with
  | none => exact .inl ((firstOpt_eq_none_iff ..).mp h)
  | some o => exact .inr ⟨o, (firstOpt_eq_some_iff ..).mp h⟩

/-- Removing the first match takes its cost off the raw size. -/
theorem rawSize_removeFirst {opts : List OptRec} {tag : Byte} {o : OptRec} (h : FirstIs opts tag o) :
    rawSize (removeFirst opts tag) + optCost o = rawSize opts := by
  obtain ⟨pre, post, rfl, hpre, ho⟩ := h
  rw [removeFirst_append hpre ho, rawSize_append, rawSize_append, rawSize_cons]
  omega

/-- An ADD_OPTION that does not fault appends one record of its tag. -/
theorem exec_addOption_ok {s t : State} {tag : Byte} (hs : s.valid = true) (h : exec (.addOption tag) s = .next t)
    (hf : t.fault = none) : ∃ o, t.opts = s.opts ++ [o] ∧ o.tag = tag := by
  by_cases hn : 255 < s.arg1.toNat
  · cases (exec_of_operandRange rfl hs hn).symm.trans h
    cases hf
  rw [exec_of_operandFits rfl hs (Nat.not_lt.mp hn)] at h
  rcases withBytes_cases s _ _ _ with ⟨-, e⟩ | ⟨-, -, e⟩ | ⟨p, -, -, e⟩ <;> rw [e] at h
  · rw [(raiseFault_eq_next ..).mp h] at hf
    cases hf
  · rw [(raiseFault_eq_next ..).mp h] at hf
    cases hf
  · rcases (appendOpt_cases ..).mp h with ⟨-, rfl⟩ | ⟨-, rfl⟩
    · cases hf
    · exact ⟨_, rfl, rfl⟩

/-! ## A record appended -/

/-- The record a typed setter appends, with a true length field (spec/42_option_codec.md R260). -/
def typedRec (tag : Byte) (p : List Byte) : OptRec := ⟨tag, p, BitVec.ofNat 8 p.length⟩

/-- The state a typed setter leaves. -/
def appended (o : OptRec) (s : State) : State := { s with opts := s.opts ++ [o], err := .noError }

section
variable {s : State} {o o' : OptRec} {tag : Byte} {c g : Instr} {p : List Byte}

/-- Where no record had the tag, the appended one is the first. -/
theorem firstIs_appended_of_absent (p : List Byte) (h : Absent s.opts tag) :
    FirstIs (appended (typedRec tag p) s).opts tag (typedRec tag p) :=
  ⟨s.opts, [], rfl, h, rfl⟩

/-- A first record stays the first. -/
theorem firstIs_appended (h : FirstIs s.opts tag o') : FirstIs (appended o s).opts tag o' := by
  obtain ⟨pre, post, hopts, hpre, ho⟩ := h
  exact ⟨pre, post ++ [o], by rw [appended, hopts, List.append_assoc]; rfl, hpre, ho⟩

theorem exec_of_addTyped (hs : s.valid = true) (hroom : s.opts.length ≠ s.params.optCapacity)
    (hc : exec c s = addTyped tag p s) : exec c s = .next (appended (typedRec tag p) s) :=
  hc.trans ((addTyped_cases ..).mpr (.inr ⟨hs, .inr ⟨hroom, rfl⟩⟩))

/-- A setter and a getter of one byte (spec/42_option_codec.md R262, R266, R268, R272). -/
theorem byte_set_then_get (hs : s.valid = true) (hroom : s.opts.length ≠ s.params.optCapacity)
    (hc : exec c s = addTyped tag [low8 s.arg0] s)
    (hg : ∀ t, exec g t =
      readTyped tag (· == 1) (finishWith 0#32 t) (fun p => finishWith (zext32 (byteAt p 0)) t) t) :
    ∃ t, exec c s = .next t ∧ (Absent s.opts tag → Returns g t (s.arg0.toNat % 2 ^ 8)) ∧
      ∀ o x, FirstIs s.opts tag o → o.payload = [x] → Returns g t x.toNat := by
  have hget := (byteGetter_rule (s := appended (typedRec tag [low8 s.arg0]) s) hs (hg _)).2
  refine ⟨_, exec_of_addTyped hs hroom hc, fun ha => ?_, fun o x ho => (hget o (firstIs_appended ho)).2 x⟩
  rw [← toNat_low8]
  exact (hget _ (firstIs_appended_of_absent _ ha)).2 _ rfl

theorem getMss_of_firstIs (ho : FirstIs s.opts 2#8 o) (hs : s.valid = true) {x y : Byte} (hp : o.payload = [x, y]) :
    Returns .getMss s (be16 x y).toNat := by
  obtain ⟨-, -, -, -, hget⟩ := typedGettersDecodeTheFirstRecord
  obtain ⟨⟨-, hmss⟩, -⟩ := hget s hs
  obtain ⟨-, hvalue⟩ := hmss o ho
  exact toNat_be16 x y ▸ hvalue x y hp

theorem hasSackOk_of_firstIs (ho : FirstIs s.opts 4#8 o) (hs : s.valid = true) : Returns .hasSackOk s 1 := by
  obtain ⟨-, -, -, -, hget⟩ := typedGettersDecodeTheFirstRecord
  obtain ⟨-, -, ⟨-, hpresent⟩, -⟩ := hget s hs
  exact hpresent o ho

theorem getTimestamp_of_firstIs (ho : FirstIs s.opts 8#8 o) (hs : s.valid = true) (hl : o.payload.length = 8)
    {v w : Word} (hv : listBE32 o.payload 0 = v) (hw : listBE32 o.payload 4 = w) :
    exec .getTimestamp s = .next { s with result0 := v, result1 := w, err := .noError } := by
  subst hv hw
  exact exec_of_readTyped_goodLength hs (exec_getTimestamp s) ho (beq_iff_eq.mpr hl)

/-- GET_SACK copies the first record's values to any ARG0 that leaves room. -/
theorem copiesSack_of_firstIs (ho : FirstIs s.opts 5#8 o) (hs : s.valid = true) {n : Nat}
    (hl : o.payload.length = 4 * n) (hn : n < 2 ^ 32) : CopiesSack s o.payload n := by
  intro d hd
  have hcount : o.payload.length / 4 = n := by omega
  obtain ⟨-, hget⟩ := getSackCopiesTheValues
  obtain ⟨-, hfirst⟩ := hget { s with arg0 := d } hs
  obtain ⟨-, -, hcopy⟩ := hfirst o ho
  obtain ⟨m, r, hexec, hm, hr⟩ := hcopy (by omega) hd
  exact ⟨m, r, hexec, hm, (hr (hcount ▸ hn)).trans hcount⟩

/-- SET_SACK on values written in BUF appends them. -/
theorem exec_setSack_of_holdsAt (hs : s.valid = true) (hroom : s.opts.length ≠ s.params.optCapacity)
    (hlen : p.length = 4 * s.arg1.toNat) (hn : p.length ≤ 255) (hfit : s.arg0.toNat + p.length ≤ s.params.bufSize)
    (hp : HoldsAt s.mem s.arg0.toNat p) :
    exec .setSack s = .next (appended (typedRec 5#8 p) s) := by
  rw [hlen] at hn hfit
  exact (exec_of_operandFits rfl hs hn).trans ((withBytes_of_holdsAt hlen hfit hp).trans
    ((appendOpt_cases ..).mpr (.inr ⟨hroom, rfl⟩)))

end

end Sys2Proof.Machine
end

section
open Sys2Proof Sys2Proof.Machine Sys2Proof.Claims

/-- Settles O39: the raw size is a sum, of which one term comes or goes. -/
theorem sizesChangeByTheRecordsCost : Obligations.SizesChangeByTheRecordsCost := by
  intro tag s t hs _
  refine ⟨fun h hf => ?_, fun h hr => ?_, fun h hr => ?_⟩
  · obtain ⟨o, hopts, ho⟩ := exec_addOption_ok hs h hf
    exact ⟨o, hopts, ho, by rw [hopts, rawSize_append_singleton]⟩
  · rcases absent_or_firstIs s.opts tag with ha | ⟨o, ho⟩
    · cases (exec_removeOption_of_absent hs ha).symm.trans h
      cases hr
    · cases (exec_removeOption_of_firstIs hs ho).symm.trans h
      exact ⟨o, ho, rawSize_removeFirst ho⟩
  · rcases absent_or_firstIs s.opts tag with ha | ⟨o, ho⟩
    · cases (exec_removeOption_of_absent hs ha).symm.trans h
      rfl
    · cases (exec_removeOption_of_firstIs hs ho).symm.trans h
      cases hr

/-- Settles O45: the setter appends, and the getter's own rule applies to the first record of the longer list. -/
theorem typedSetThenGet : Obligations.TypedSetThenGet := by
  intro s hs hroom
  refine ⟨⟨_, exec_of_addTyped hs hroom rfl, fun ha => ?_, fun o x y ho hp => ?_⟩,
    byte_set_then_get hs hroom rfl fun _ => rfl, byte_set_then_get hs hroom rfl fun _ => rfl,
    ⟨_, exec_of_addTyped hs hroom rfl, ?_⟩,
    ⟨_, exec_of_addTyped hs hroom rfl, fun ha => ?_, fun o a b c d e f g h ho hp => ?_⟩,
    fun p hlen hn hfit hp => ⟨_, exec_setSack_of_holdsAt hs hroom hlen hn hfit hp, fun ha => ?_, fun o ho hl hn => ?_⟩⟩
  · have hvalue : (be16 ((low16 s.arg0).extractLsb' 8 8) ((low16 s.arg0).extractLsb' 0 8)).toNat =
        s.arg0.toNat % 2 ^ 16 := by rw [be16_bytes, toNat_low16]
    exact hvalue ▸ getMss_of_firstIs (firstIs_appended_of_absent (toBE16 (low16 s.arg0)) ha) hs rfl
  · exact toNat_be16 x y ▸ getMss_of_firstIs (firstIs_appended ho) hs hp
  · rcases absent_or_firstIs s.opts 4#8 with ha | ⟨o, ho⟩
    · exact hasSackOk_of_firstIs (firstIs_appended_of_absent [] ha) hs
    · exact hasSackOk_of_firstIs (firstIs_appended ho) hs
  · exact getTimestamp_of_firstIs (firstIs_appended_of_absent (toBE32 s.arg0 ++ toBE32 s.arg1) ha) hs rfl
      (be32_bytes s.arg0) (be32_bytes s.arg1)
  · obtain ⟨-, hget⟩ := getTimestampReturnsBothHalves
    obtain ⟨-, hfirst⟩ := hget (appended (typedRec 8#8 (toBE32 s.arg0 ++ toBE32 s.arg1)) s) hs
    obtain ⟨-, hvalues⟩ := hfirst o (firstIs_appended ho)
    exact hvalues a b c d e f g h hp
  · exact copiesSack_of_firstIs (firstIs_appended_of_absent p ha) hs hlen s.arg1.isLt
  · exact copiesSack_of_firstIs (firstIs_appended ho) hs (by omega) hn

end
